-- ==== Sys2Proof/Word.lean ====
section
/-! DEFINITION. The word types of HUFCORE (spec/00_scope.md R5, R7): the 32-bit bus word, the byte-wide
command fields and node indices, the 39-bit weight and the 7-bit symbol. Bit 0 is the least significant bit. -/

namespace Sys2Proof

/-- A bus word: every register and every packed bit word is W_WORD = 32 bits wide (R5). -/
abbrev Word := BitVec 32

/-- A byte: the A field of a command, a node index, ROOT, NLEAF, NCOUNT and LEN (R5, R41 to R43). -/
abbrev Byte := BitVec 8

/-- A node weight, W_WEIGHT = 39 bits, unsigned (R5). -/
abbrev Weight := BitVec 39

/-- A decoded symbol as SYMQ holds it, 7 bits (R47). -/
abbrev Symbol := BitVec 7

/-- The index of an entry of FREQ or CODE: NSYM = 128 symbols, 0 to 127 (R5). -/
abbrev SymIx := Fin 128

end Sys2Proof
end

