-- ==== Sys2Proof/Syntax.lean ====
section
/-! DEFINITION. The command set, version 1: one constructor per row of spec/opcode_table.json
(spec/30_encoding.md R85). `a` and `k` are the operands A and K as R83 assembles them: unsigned numbers. -/

namespace Sys2Proof

/-- The 22 commands of R85. Where an operand fits its field is `Instr.wellFormed`. -/
inductive Instr where
  /-- NOP (R100) -/
  | nop
  /-- CLR (R101) -/
  | clr
  /-- FREQ_WR symbol (R110) -/
  | freqWr (a : Nat)
  /-- FREQ_RD symbol (R111) -/
  | freqRd (a : Nat)
  /-- BUILD (R112) -/
  | build
  /-- TREE_INFO (R120) -/
  | treeInfo
  /-- NODE_RD node index (R121) -/
  | nodeRd (a : Nat)
  /-- NODE_WR node index (R122) -/
  | nodeWr (a : Nat)
  /-- ROOT_WR (R123) -/
  | rootWr
  /-- CODE_RD symbol, word (R124) -/
  | codeRd (a : Nat) (k : Nat)
  /-- CODE_WR symbol, word (R125) -/
  | codeWr (a : Nat) (k : Nat)
  /-- CODE_LEN_WR symbol (R126) -/
  | codeLenWr (a : Nat)
  /-- ENC_SYM symbol (R151) -/
  | encSym (a : Nat)
  /-- ENC_FLUSH (R152) -/
  | encFlush
  /-- ENC_RESET (R153) -/
  | encReset
  /-- OUT_POP (R154) -/
  | outPop
  /-- ENC_INFO (R155) -/
  | encInfo
  /-- DEC_WORD bit count (R171) -/
  | decWord (a : Nat)
  /-- DEC_END (R172) -/
  | decEnd
  /-- DEC_RESET (R173) -/
  | decReset
  /-- SYM_POP (R174) -/
  | symPop
  /-- DEC_INFO (R175) -/
  | decInfo
deriving DecidableEq, Repr

end Sys2Proof
end

