-- ==== Sys2Proof/WellFormed.lean ====
section
/-! DEFINITION. When a command's operands fit their fields (spec/30_encoding.md R81, R90: "An operand that does not
fit its field (a > 255, k > 3 ...) is an assembler error, not a command"). -/

namespace Sys2Proof

/-- A fits its 8-bit field (R81). -/
def fitsA (a : Nat) : Bool := decide (a ≤ 255)

/-- K fits its 2-bit field (R81). -/
def fitsK (k : Nat) : Bool := decide (k ≤ 3)

/-- The commands that have an encoding: every operand fits its field (R81, R90). -/
def Instr.wellFormed : Instr → Bool
  | .nop => true
  | .clr => true
  | .freqWr a => fitsA a
  | .freqRd a => fitsA a
  | .build => true
  | .treeInfo => true
  | .nodeRd a => fitsA a
  | .nodeWr a => fitsA a
  | .rootWr => true
  | .codeRd a k => fitsA a && fitsK k
  | .codeWr a k => fitsA a && fitsK k
  | .codeLenWr a => fitsA a
  | .encSym a => fitsA a
  | .encFlush => true
  | .encReset => true
  | .outPop => true
  | .encInfo => true
  | .decWord a => fitsA a
  | .decEnd => true
  | .decReset => true
  | .symPop => true
  | .decInfo => true

end Sys2Proof
end

