-- ==== Sys2Proof/Decode.lean ====
section
/-! DEFINITION. Decoding a command word and encoding a command (spec/30_encoding.md R81 to R86). The decoder is
total on all 2^32 words and rejects by name; the encoder is written from the same opcode map. -/

namespace Sys2Proof

/-- The three formats of R82. -/
inductive Format where
  /-- OP only; A, K, RSV must be 0 -/
  | f0
  /-- OP and A; K, RSV must be 0 -/
  | fa
  /-- OP, A and K; RSV must be 0 -/
  | fak
deriving DecidableEq, Repr

/-- R82: the mask of fixed bits of a format. -/
def Format.mask : Format → Word
  | .f0 => 0xFFFFFFFF#32
  | .fa => 0xFFFF00FF#32
  | .fak => 0xFFFC00FF#32

/-- R81: OP, bits 7:0. -/
def fieldOp (w : Word) : Byte := w.extractLsb' 0 8

/-- R81, R83: A, bits 15:8, as an unsigned number. -/
def fieldA (w : Word) : Nat := (w.extractLsb' 8 8).toNat

/-- R81, R83: K, bits 17:16, as an unsigned number. -/
def fieldK (w : Word) : Nat := (w.extractLsb' 16 2).toNat

/-- Why a word is no command (both raise ILLEGAL_CMD, R84). -/
inductive DecodeReject where
  /-- no row of R85 has this OP -/
  | undefinedOp
  /-- a field the format does not use, or RSV, is not 0 -/
  | nonzeroField
deriving DecidableEq, Repr

/-- One row of the opcode map: its OP, its format and the command its operands make. -/
structure Row where
  op : Byte
  format : Format
  make : Nat → Nat → Instr

/-- R85: the opcode map. -/
def opcodeMap : List Row :=
  [⟨0x00#8, .f0, fun _ _ => .nop⟩,
   ⟨0x01#8, .f0, fun _ _ => .clr⟩,
   ⟨0x02#8, .fa, fun a _ => .freqWr a⟩,
   ⟨0x03#8, .fa, fun a _ => .freqRd a⟩,
   ⟨0x04#8, .f0, fun _ _ => .build⟩,
   ⟨0x05#8, .f0, fun _ _ => .treeInfo⟩,
   ⟨0x06#8, .fa, fun a _ => .nodeRd a⟩,
   ⟨0x07#8, .fa, fun a _ => .nodeWr a⟩,
   ⟨0x08#8, .f0, fun _ _ => .rootWr⟩,
   ⟨0x09#8, .fak, fun a k => .codeRd a k⟩,
   ⟨0x0A#8, .fak, fun a k => .codeWr a k⟩,
   ⟨0x0B#8, .fa, fun a _ => .codeLenWr a⟩] ++
  [⟨0x10#8, .fa, fun a _ => .encSym a⟩,
   ⟨0x11#8, .f0, fun _ _ => .encFlush⟩,
   ⟨0x12#8, .f0, fun _ _ => .encReset⟩,
   ⟨0x13#8, .f0, fun _ _ => .outPop⟩,
   ⟨0x14#8, .f0, fun _ _ => .encInfo⟩] ++
  [⟨0x20#8, .fa, fun a _ => .decWord a⟩,
   ⟨0x21#8, .f0, fun _ _ => .decEnd⟩,
   ⟨0x22#8, .f0, fun _ _ => .decReset⟩,
   ⟨0x23#8, .f0, fun _ _ => .symPop⟩,
   ⟨0x24#8, .f0, fun _ _ => .decInfo⟩]

/-- R84: the value a row's word has under its format's mask: OP, with every other fixed bit 0. -/
def Row.pattern (r : Row) : Word := r.op.setWidth 32

/-- R84: "row = the row of rule R85 whose OP equals op". -/
def rowOf (op : Byte) : Option Row := opcodeMap.find? (fun r => r.op == op)

/-- R84: decode a word written to CMD. -/
def decode (w : Word) : Except DecodeReject Instr :=
  match rowOf (fieldOp w) with
  | none => .error .undefinedOp
  | some r =>
    if w &&& r.format.mask = r.pattern then .ok (r.make (fieldA w) (fieldK w))
    else .error .nonzeroField

/-- R85: the OP of a command. -/
def Instr.op : Instr → Byte
  | .nop => 0x00#8
  | .clr => 0x01#8
  | .freqWr _ => 0x02#8
  | .freqRd _ => 0x03#8
  | .build => 0x04#8
  | .treeInfo => 0x05#8
  | .nodeRd _ => 0x06#8
  | .nodeWr _ => 0x07#8
  | .rootWr => 0x08#8
  | .codeRd _ _ => 0x09#8
  | .codeWr _ _ => 0x0A#8
  | .codeLenWr _ => 0x0B#8
  | .encSym _ => 0x10#8
  | .encFlush => 0x11#8
  | .encReset => 0x12#8
  | .outPop => 0x13#8
  | .encInfo => 0x14#8
  | .decWord _ => 0x20#8
  | .decEnd => 0x21#8
  | .decReset => 0x22#8
  | .symPop => 0x23#8
  | .decInfo => 0x24#8

/-- The operand A of a command, 0 where its format has none (R82). -/
def Instr.operandA : Instr → Nat
  | .freqWr a => a
  | .freqRd a => a
  | .nodeRd a => a
  | .nodeWr a => a
  | .codeRd a _ => a
  | .codeWr a _ => a
  | .codeLenWr a => a
  | .encSym a => a
  | .decWord a => a
  | .nop => 0
  | .clr => 0
  | .build => 0
  | .treeInfo => 0
  | .rootWr => 0
  | .encFlush => 0
  | .encReset => 0
  | .outPop => 0
  | .encInfo => 0
  | .decEnd => 0
  | .decReset => 0
  | .symPop => 0
  | .decInfo => 0

/-- The operand K of a command, 0 where its format has none (R82). -/
def Instr.operandK : Instr → Nat
  | .codeRd _ k => k
  | .codeWr _ k => k
  | .nop => 0
  | .clr => 0
  | .freqWr _ => 0
  | .freqRd _ => 0
  | .build => 0
  | .treeInfo => 0
  | .nodeRd _ => 0
  | .nodeWr _ => 0
  | .rootWr => 0
  | .codeLenWr _ => 0
  | .encSym _ => 0
  | .encFlush => 0
  | .encReset => 0
  | .outPop => 0
  | .encInfo => 0
  | .decWord _ => 0
  | .decEnd => 0
  | .decReset => 0
  | .symPop => 0
  | .decInfo => 0

/-- R81, R90: the word of a command, `OP | a << 8 | k << 16`; RSV is 0. -/
def encode (i : Instr) : Word :=
  0#14 ++ BitVec.ofNat 2 i.operandK ++ BitVec.ofNat 8 i.operandA ++ i.op

/-- The command this decoder reads from a word of `nbits` bits numbered as spec/opcode_table.json numbers them (every
bit above `nbits` is 0); none where it rejects the word. A command is one whole 32-bit word (R80), so the word as the
bus carries it is the word the table numbers. -/
def decodeTableWord (nbits w : Nat) : Option Instr :=
  match decode (BitVec.ofNat 32 (w % 2 ^ nbits)) with
  | .ok i => some i
  | .error _ => none

end Sys2Proof
end

