-- ==== Sys2Proof/Config.lean ====
section
/-! DEFINITION. The implementation parameters of spec/00_scope.md R5 and their bounds (R5, R6): the two FIFO
depths the spec leaves open within a range, the fixed constants, and the platform's window base. -/

namespace Sys2Proof

/-- The open parameters DEPTH_OUT and DEPTH_SYM (R5; spec/92_eei_decisions.md D13, D14). State carries them as a
field no step changes (log entry 1). -/
structure Config where
  depthOut : Nat
  depthSym : Nat
deriving DecidableEq, Repr

/-- R5 and R6: "4 <= DEPTH_OUT <= 31", "32 <= DEPTH_SYM <= 63"; parameters outside these ranges are outside the spec. -/
def Config.wellFormed (c : Config) : Bool :=
  decide (4 ≤ c.depthOut) && decide (c.depthOut ≤ 31) && decide (32 ≤ c.depthSym) && decide (c.depthSym ≤ 63)

/-- R5: the default depths, 16 and 32. -/
def Config.default : Config := { depthOut := 16, depthSym := 32 }

/-- R5: NULL, the node index that names no node. -/
def nullIx : Byte := 0xFF#8

/-- R22: the constant ID reads. -/
def idWord : Word := 0x48554631#32

/-- R64: HUF_BASE, the platform's base address of the register window. A parameter of the host, so a constant with
no body: no claim can depend on its value (log entry 12). -/
opaque Config.hufBase : Nat

end Sys2Proof
end

