-- ==== Sys2Proof/Machine/State.lean ====
section
/-! DEFINITION. The architectural state of HUFCORE (spec/10_state.md R20 to R51) as plain data, the host agent
beside it, the reset state, and the reasons a step can stop. -/

namespace Sys2Proof.Machine

/-- R200: the ten error codes STATUS.ERR takes; codes 10 to 15 are never produced (spec/93_implementation_defined.md U8). -/
inductive ErrCode where
  /-- 0: every command that succeeds -/
  | ok
  /-- 1: BUILD with no positive count -/
  | emptyAlphabet
  /-- 2: ENC_SYM of a symbol with no codeword -/
  | unknownSymbol
  /-- 3: DEC_END inside a codeword -/
  | truncatedStream
  /-- 4: DEC_WORD cannot descend the tree -/
  | malformedTree
  /-- 5: a CMD word that is no command -/
  | illegalCmd
  /-- 6: an operand out of its range -/
  | badOperand
  /-- 7: OUTQ has too few free entries -/
  | outFull
  /-- 8: SYMQ is full when a symbol must be queued -/
  | symFull
  /-- 9: pop of an empty FIFO -/
  | fifoEmpty
deriving DecidableEq, Repr

/-- R41: the KIND of a node, 0 = Leaf, 1 = Internal. -/
inductive Kind where
  | leaf
  | internal
deriving DecidableEq, Repr

/-- R41: one entry of the node arena. -/
structure Node where
  valid : Bool
  kind : Kind
  a : Byte
  b : Byte
  weight : Weight
deriving DecidableEq, Repr

/-- R51: an empty arena entry. -/
def Node.empty : Node := { valid := false, kind := .leaf, a := 0, b := 0, weight := 0 }

/-- R42: one entry of the code table. BITS[127] is hardwired to 0, so BITS[126:0] are what is stored (log entry 7). -/
structure Code where
  len : Byte
  bits : BitVec 127
deriving DecidableEq, Repr

/-- R51: an entry with no codeword. -/
def Code.empty : Code := { len := 0, bits := 0 }

/-- R45: one entry of OUTQ. -/
structure OutEntry where
  data : Word
  nbits : BitVec 6
deriving DecidableEq, Repr

/-- R60, R230: what the host can do. An access carries its byte offset in the window and its width in bytes, so that
the accesses R68 rules out can be written down and refused. -/
inductive Transaction where
  /-- `BusRead(off)`, `bytes` wide -/
  | busRead (off : Nat) (bytes : Nat)
  /-- `BusWrite(off, v)`, `bytes` wide -/
  | busWrite (off : Nat) (bytes : Nat) (v : Word)
  /-- R220: `rst_n` asserted and released -/
  | reset
deriving DecidableEq, Repr

/-- R20: the complete state of the block, the parameters it was built with (R50, log entry 1), and the host agent's
transactions and readings (R230, R231, log entry 2). -/
structure State where
  /-- DEPTH_OUT and DEPTH_SYM: no step changes them (R50) -/
  cfg : Config
  /-- R24 -/
  arg : Word
  /-- R26 -/
  res0 : Word
  /-- R26 -/
  res1 : Word
  /-- STATUS.ERR, stored (R23, R29) -/
  err : ErrCode
  /-- STATUS.ERR_INFO, stored (R23, R29) -/
  errInfo : BitVec 5
  /-- R40 -/
  freq : Vector Word 128
  /-- R41 -/
  node : Vector Node 255
  /-- R43 -/
  root : Byte
  /-- R43 -/
  nleaf : Byte
  /-- R43 -/
  ncount : Byte
  /-- R42 -/
  code : Vector Code 128
  /-- R44 -/
  pack : Word
  /-- R44 -/
  fill : BitVec 5
  /-- R44 -/
  encTotal : Word
  /-- R45, head = oldest -/
  outq : List OutEntry
  /-- R46 -/
  decCur : Byte
  /-- R47, head = oldest -/
  symq : List Symbol
  /-- the host's transactions not yet taken, the next one first (log entry 2) -/
  pending : List Transaction
  /-- what the host has read, oldest first (R231, log entry 2) -/
  reads : List Word
deriving DecidableEq, Repr

/-- R51: every element right after reset; the default depths (R5), no transaction issued and nothing read yet. -/
def State.reset : State where
  cfg := Config.default
  arg := 0
  res0 := 0
  res1 := 0
  err := .ok
  errInfo := 0
  freq := Vector.replicate 128 0
  node := Vector.replicate 255 Node.empty
  root := nullIx
  nleaf := 0
  ncount := 0
  code := Vector.replicate 128 Code.empty
  pack := 0
  fill := 0
  encTotal := 0
  outq := []
  decCur := nullIx
  symq := []
  pending := []
  reads := []

/-- The block never stops on a fault: "The block never stops or hangs on an error" (R205), every error is a code in
STATUS. So there is no fault reason, and no step can end in one (log entry 6). -/
inductive Fault
deriving DecidableEq, Repr

/-- Why a step has no meaning. -/
inductive Refusal where
  /-- An arm of `exec` whose command has no meaning yet; no arm answers it. Safe: nothing is claimed of such a step. -/
  | notModelled (mnemonic : String)
  /-- Raised by the bus (`runTransaction`) for an access R68 rules out: not 4 bytes wide, not a multiple of 4, or outside
  0x00 to 0x1C. "refuses it ...; it is not given a meaning". Safe: no command raises it (log entry 5). -/
  | noSuchTransaction
deriving DecidableEq, Repr

/-- What a command or a step answers. -/
abbrev Result := Host.Outcome State Fault Refusal

end Sys2Proof.Machine
end

