-- ==== Sys2Proof/Machine/Ops.lean ====
section
/-! DEFINITION. The operations the commands share: how a command ends (spec/00_scope.md R8; spec/60_exceptions.md
R203, R204), reset, the table and arena accesses and the tree walk's view of a node. -/

namespace Sys2Proof.Machine

/-- ERR <- e, ERR_INFO <- info: the two stored status fields, written by every command at completion (R29). -/
def State.withStatus (e : ErrCode) (info : BitVec 5) (s : State) : State :=
  { s with err := e, errInfo := info }

/-- RES0 and RES1: a command that has results writes both (R26). -/
def State.withResults (r0 r1 : Word) (s : State) : State :=
  { s with res0 := r0, res1 := r1 }

/-- R8 `done`: the command ends, keeping its writes, with OK. -/
def done (s : State) : Result := .next (s.withStatus .ok 0)

/-- R8 `raise E(info)`, the error entry of R203: `s` is the state BEFORE the command, so every write the command made is
discarded and only ERR and ERR_INFO change. There is nothing saved and no return (R205, R206). -/
def raise (e : ErrCode) (info : BitVec 5) (s : State) : Result := .next (s.withStatus e info)

/-- R8 `report E(info)`: `s` is the state WITH the command's writes, which are kept. Only DEC_END uses it (R204). -/
def report (e : ErrCode) (info : BitVec 5) (s : State) : Result := .next (s.withStatus e info)

/-- R51, R101, R220: every state element of the block at its reset value. The parameters (R50) and the host agent are no
elements of the block and stay. -/
def State.cleared (s : State) : State :=
  { State.reset with cfg := s.cfg, pending := s.pending, reads := s.reads }

/-- FREQ[x] (R40). -/
def State.readFreq (x : SymIx) (s : State) : Word := s.freq[x]

/-- FREQ[x] <- v (R40). -/
def State.writeFreq (x : SymIx) (v : Word) (s : State) : State := { s with freq := s.freq.set x v }

/-- NODE[i] (R41). -/
def State.readNode (i : Fin 255) (s : State) : Node := s.node[i]

/-- NODE[i] <- n (R41). -/
def State.writeNode (i : Fin 255) (n : Node) (s : State) : State := { s with node := s.node.set i n }

/-- CODE[x] (R42). -/
def State.readCode (x : SymIx) (s : State) : Code := s.code[x]

/-- CODE[x] <- c (R42). -/
def State.writeCode (x : SymIx) (c : Code) (s : State) : State := { s with code := s.code.set x c }

/-- The node an 8-bit index names, where it names a VALID one: NULL (0xFF) names no entry (R41), an empty entry holds no
node. -/
def validNode (node : Vector Node 255) (i : Byte) : Option Node :=
  match node[i.toNat]? with
  | none => none
  | some n => if n.valid then some n else none

/-- R41: the symbol of a leaf, A[6:0]; A[7] has no meaning. -/
def leafSymbol (n : Node) : Symbol := n.a.setWidth 7

/-- The table index of a symbol. -/
def symbolIx (x : Symbol) : SymIx := ⟨x.toNat, x.isLt⟩

/-- `w[i] <- b`: one bit of a word (R8). -/
def setBit (w : Word) (i : Nat) (b : Bool) : Word :=
  if b then w ||| (1#32 <<< i) else w &&& ~~~(1#32 <<< i)

end Sys2Proof.Machine
end

