-- ==== Sys2Proof/Machine/Huffman.lean ====
section
/-! DEFINITION. The tree build and the code derivation of BUILD (spec/41_builder.md R112 to R119) as functions of the
frequency table. During the build the arena is the list of the entries written so far: the entry at index i is
NODE[i], and the next free index n is its length (log entry 9). -/

namespace Sys2Proof.Machine

/-- R113, R115: the symbols with FREQ[s] > 0, in increasing symbol order. -/
def positiveSymbols (freq : Vector Word 128) : List SymIx :=
  (List.finRange 128).filter fun x => decide (0 < freq[x].toNat)

/-- R115: a symbol's leaf: VALID = 1, KIND = 0, A = the symbol, B = 0, WEIGHT = the count. -/
def leafNode (freq : Vector Word 128) (x : SymIx) : Node :=
  { valid := true, kind := .leaf, a := BitVec.ofNat 8 x.val, b := 0, weight := freq[x].setWidth 39 }

/-- R116: a member of the priority collection P with its key(i) = (NODE[i].WEIGHT, i). -/
structure Key where
  weight : Weight
  idx : Nat
deriving DecidableEq, Repr

/-- R116: least weight first, and among equal weights the least index (lexicographic order). -/
def keyLess (p q : Key) : Bool :=
  decide (p.weight < q.weight) || (p.weight == q.weight && decide (p.idx < q.idx))

/-- R117: "the i in P with the least key(i); P = P minus it": the least member and the rest. -/
def takeLeast : List Key → Option (Key × List Key)
  | [] => none
  | p :: rest =>
    match takeLeast rest with
    | none => some (p, [])
    | some (q, others) => if keyLess p q then some (p, rest) else some (q, p :: others)

/-- R117: the new node: left child the first one removed, right child the second, weight their 39-bit sum. -/
def mergedNode (x y : Key) : Node :=
  { valid := true, kind := .internal, a := BitVec.ofNat 8 x.idx, b := BitVec.ofNat 8 y.idx,
    weight := x.weight + y.weight }

/-- R117: "Repeat while more than one node remains". The first argument bounds the merges; each one makes P one
shorter, so the length of P is enough. -/
def mergeLoop : Nat → List Node → List Key → List Node × List Key
  | 0, nodes, p => (nodes, p)
  | fuel + 1, nodes, p =>
    match takeLeast p with
    | none => (nodes, p)
    | some (x, p1) =>
      match takeLeast p1 with
      | none => (nodes, p)
      | some (y, p2) =>
        let m := mergedNode x y
        mergeLoop fuel (nodes ++ [m]) ({ weight := m.weight, idx := nodes.length } :: p2)

/-- R115, R116: P at the start: every leaf's index with its weight. -/
def initialKeys (leaves : List Node) : List Key :=
  leaves.zipIdx.map fun e => { weight := e.1.weight, idx := e.2 }

/-- R118: Assign(i, v, d): the codes of the leaves below node i, where v is the number the path bits so far make and d
is their count. The first argument bounds the depth; a child's index is below its parent's, so the number of nodes is
enough. -/
def assignCodes : Nat → List Node → Nat → Nat → Nat → List (SymIx × Code)
  | 0, _, _, _, _ => []
  | fuel + 1, nodes, i, v, d =>
    match nodes[i]? with
    | none => []
    | some n =>
      match n.kind with
      | .leaf => [(symbolIx (leafSymbol n), { len := BitVec.ofNat 8 d, bits := BitVec.ofNat 127 v })]
      | .internal =>
        assignCodes fuel nodes n.a.toNat (2 * v) (d + 1) ++ assignCodes fuel nodes n.b.toNat (2 * v + 1) (d + 1)

/-- R114: the code table with the given entries written into an empty one. -/
def codeTableOf (entries : List (SymIx × Code)) : Vector Code 128 :=
  entries.foldl (fun t e => t.set e.1 e.2) (Vector.replicate 128 Code.empty)

/-- R114: the arena with the given entries from index 0 on, and every other entry empty. -/
def arenaOf (nodes : List Node) : Vector Node 255 :=
  Vector.ofFn fun i : Fin 255 => (nodes[i.val]?).getD Node.empty

/-- What BUILD makes of a frequency table (R112). -/
structure BuildResult where
  node : Vector Node 255
  code : Vector Code 128
  root : Byte
  nleaf : Byte
  ncount : Byte
deriving DecidableEq, Repr

/-- R119: the code "0" of a sole symbol. -/
def soleCode : Code := { len := 1, bits := 0 }

/-- R115: the leaves of a frequency table. -/
def leavesOf (freq : Vector Word 128) : List Node := (positiveSymbols freq).map (leafNode freq)

/-- R115 to R117: the arena entries and the last collection. -/
def mergedTree (freq : Vector Word 128) : List Node × List Key :=
  mergeLoop (leavesOf freq).length (leavesOf freq) (initialKeys (leavesOf freq))

/-- R118, R119: the codes of the tree with the given root. -/
def codesOf (freq : Vector Word 128) (nodes : List Node) (root : Nat) : Vector Code 128 :=
  match positiveSymbols freq with
  | [x] => codeTableOf [(x, soleCode)]
  | _ => codeTableOf (assignCodes nodes.length nodes root 0 0)

/-- R112: the whole of BUILD; none where no symbol has a positive count (R113). -/
def buildTree (freq : Vector Word 128) : Option BuildResult :=
  match mergedTree freq with
  | (nodes, r :: _) =>
    some { node := arenaOf nodes, code := codesOf freq nodes r.idx, root := BitVec.ofNat 8 r.idx,
           nleaf := BitVec.ofNat 8 (leavesOf freq).length, ncount := BitVec.ofNat 8 nodes.length }
  | (_, []) => none

end Sys2Proof.Machine
end

