-- ==== Sys2Proof/Machine/Operands.lean ====
section
/-! DEFINITION. Every operand form of the commands (spec/30_encoding.md R83, R87) and the packed layouts of ARG and
the result registers (R87, R89). -/

namespace Sys2Proof.Machine

/-- A as a symbol: "legal values 0 to 127" (R83). -/
def symbolOperand (a : Nat) : Option SymIx := if h : a < 128 then some ⟨a, h⟩ else none

/-- A as a node index: "legal values 0 to 254" (R83). -/
def nodeOperand (a : Nat) : Option (Fin 255) := if h : a < 255 then some ⟨a, h⟩ else none

/-- A as a bit count: "legal values 1 to 32" (R83). -/
def bitCountOperand (a : Nat) : Option Nat := if 1 ≤ a ∧ a ≤ 32 then some a else none

/-- ARG[7:0] as a node index for ROOT_WR (R123). -/
def rootOperand (arg : Word) : Byte := arg.extractLsb' 0 8

/-- ARG[7:0] as a codeword length, "0 to 127" (R126). -/
def lengthOperand (arg : Word) : Option Byte :=
  if (arg.extractLsb' 0 8).toNat ≤ 127 then some (arg.extractLsb' 0 8) else none

/-- The KIND bit (R41). -/
def kindBit : Kind → BitVec 1
  | .leaf => 0
  | .internal => 1

/-- The kind a KIND bit names (R41). -/
def kindOfBit (b : Bool) : Kind := if b then .internal else .leaf

/-- R87: NODEHDR as NODE_RD writes it: VALID 31, KIND 30, 0 in 29:23, WEIGHT[38:32] in 22:16, B in 15:8, A in 7:0. -/
def nodeHeader (n : Node) : Word :=
  BitVec.ofBool n.valid ++ kindBit n.kind ++ 0#7 ++ n.weight.extractLsb' 32 7 ++ n.b ++ n.a

/-- R87, R122: the entry NODE_WR makes of ARG; WEIGHT <- 0, ARG[29:16] is ignored. -/
def nodeOfHeader (arg : Word) : Node :=
  { valid := arg.getLsbD 31, kind := kindOfBit (arg.getLsbD 30),
    a := arg.extractLsb' 0 8, b := arg.extractLsb' 8 8, weight := 0 }

/-- R87: TREEINFO: 0 in 31:24, NCOUNT in 23:16, NLEAF in 15:8, ROOT in 7:0. -/
def treeInfoWord (root nleaf ncount : Byte) : Word := 0#8 ++ ncount ++ nleaf ++ root

/-- R42: BITS as its 128 bits, with BITS[127] = 0. -/
def codeBits128 (c : Code) : BitVec 128 := c.bits.setWidth 128

/-- R124: BITS[32*k + 31 : 32*k]. -/
def codeWord (c : Code) (k : Nat) : Word := (codeBits128 c).extractLsb' (32 * k) 32

/-- R125: BITS[32*k + 31 : 32*k] <- v, with BITS[127] hardwired to 0 (so v[31] is ignored for k = 3); LEN unchanged. -/
def codeWithWord (c : Code) (k : Nat) (v : Word) : Code :=
  { c with bits :=
      ((codeBits128 c &&& ~~~((0xFFFFFFFF#128) <<< (32 * k))) ||| (v.setWidth 128 <<< (32 * k))).setWidth 127 }

/-- R42: the codeword of an entry in emission order: BITS[LEN-1] first, BITS[0] last; empty where LEN = 0. -/
def codeword (c : Code) : List Bool :=
  (List.range c.len.toNat).map fun i => c.bits.getLsbD (c.len.toNat - 1 - i)

/-- R171: the `n` stream bits ARG[31], ARG[30], ..., ARG[32 - n], in that order. -/
def argBits (arg : Word) (n : Nat) : List Bool :=
  (List.range n).map fun i => arg.getLsbD (31 - i)

end Sys2Proof.Machine
end

