-- ==== Sys2Proof/Machine/Builder.lean ====
section
/-! DEFINITION. The tree builder commands (spec/41_builder.md). -/

namespace Sys2Proof.Machine

/-- R110: FREQ[a] <- ARG. -/
def execFreqWr (a : Nat) (s : State) : Result :=
  match symbolOperand a with
  | none => raise .badOperand 0 s
  | some x => done (s.writeFreq x s.arg)

/-- R111: RES0 <- FREQ[a]; RES1 <- 0. -/
def execFreqRd (a : Nat) (s : State) : Result :=
  match symbolOperand a with
  | none => raise .badOperand 0 s
  | some x => done (s.withResults (s.readFreq x) 0)

/-- R112: BUILD; EMPTY_ALPHABET where no count is positive (R113). The cursor goes to the new root (R117). -/
def execBuild (s : State) : Result :=
  match buildTree s.freq with
  | none => raise .emptyAlphabet 0 s
  | some r =>
    done (State.withResults (treeInfoWord r.root r.nleaf r.ncount) 0
      { s with node := r.node, code := r.code, root := r.root, nleaf := r.nleaf, ncount := r.ncount,
               decCur := r.root })

/-- R120: RES0 <- TREEINFO; RES1 <- 0. -/
def execTreeInfo (s : State) : Result :=
  done (s.withResults (treeInfoWord s.root s.nleaf s.ncount) 0)

/-- R121: RES0 <- NODE[a].WEIGHT[31:0]; RES1 <- NODEHDR. -/
def execNodeRd (a : Nat) (s : State) : Result :=
  match nodeOperand a with
  | none => raise .badOperand 0 s
  | some i => done (s.withResults ((s.readNode i).weight.extractLsb' 0 32) (nodeHeader (s.readNode i)))

/-- R122: NODE[a] <- the entry of the header in ARG, WEIGHT 0. -/
def execNodeWr (a : Nat) (s : State) : Result :=
  match nodeOperand a with
  | none => raise .badOperand 0 s
  | some i => done (s.writeNode i (nodeOfHeader s.arg))

/-- R123: ROOT <- ARG[7:0]; DEC_CUR <- ARG[7:0]. -/
def execRootWr (s : State) : Result :=
  done { s with root := rootOperand s.arg, decCur := rootOperand s.arg }

/-- R124: RES0 <- word k of BITS; RES1 <- LEN. -/
def execCodeRd (a k : Nat) (s : State) : Result :=
  match symbolOperand a with
  | none => raise .badOperand 0 s
  | some x => done (s.withResults (codeWord (s.readCode x) k) ((s.readCode x).len.setWidth 32))

/-- R125: word k of BITS <- ARG; LEN is not changed. -/
def execCodeWr (a k : Nat) (s : State) : Result :=
  match symbolOperand a with
  | none => raise .badOperand 0 s
  | some x => done (s.writeCode x (codeWithWord (s.readCode x) k s.arg))

/-- R126: LEN <- ARG[7:0]; BITS is not changed. -/
def execCodeLenWr (a : Nat) (s : State) : Result :=
  match symbolOperand a with
  | none => raise .badOperand 0 s
  | some x =>
    match lengthOperand s.arg with
    | none => raise .badOperand 0 s
    | some n => done (s.writeCode x { s.readCode x with len := n })

end Sys2Proof.Machine
end

