-- ==== Sys2Proof/Machine/Control.lean ====
section
/-! DEFINITION. The control commands (spec/40_control.md). -/

namespace Sys2Proof.Machine

/-- R100: NOP completes with OK and does nothing else. -/
def execNop (s : State) : Result := done s

/-- R101: CLR sets every state element to its reset value, ARG among them. -/
def execClr (s : State) : Result := done s.cleared

end Sys2Proof.Machine
end

