-- ==== Sys2Proof/Machine/Decoder.lean ====
section
/-! DEFINITION. The decoder commands (spec/43_decoder.md): the tree walk and the five commands over it. -/

namespace Sys2Proof.Machine

/-- R170: what one bit of the state machine does. -/
inductive WalkStep where
  /-- the cursor moves to an internal node -/
  | move (c : Byte)
  /-- a symbol is emitted and the cursor goes to `c` -/
  | emit (x : Symbol) (c : Byte)
  /-- the tree cannot be descended -/
  | malformed
deriving DecidableEq, Repr

/-- R170: DecStep(cur, bit). A missing entry is NULL or an entry that is not VALID (`validNode`). -/
def decStep (node : Vector Node 255) (root cur : Byte) (bit : Bool) : WalkStep :=
  match validNode node cur with
  | none => .malformed
  | some n =>
    match n.kind with
    | .leaf => if cur = root ∧ bit = false then .emit (leafSymbol n) root else .malformed
    | .internal =>
      let c := if bit then n.b else n.a
      match validNode node c with
      | none => .malformed
      | some m =>
        match m.kind with
        | .leaf => .emit (leafSymbol m) root
        | .internal => .move c

/-- How the bits of one DEC_WORD end (R171). -/
inductive WalkEnd where
  /-- every bit taken: the cursor, SYMQ and the count of symbols emitted -/
  | ok (cur : Byte) (q : List Symbol) (m : Nat)
  /-- bit `i` cannot descend the tree -/
  | malformed (i : Nat)
  /-- bit `i` would emit into a full SYMQ -/
  | full (i : Nat)
deriving DecidableEq, Repr

/-- R171: the loop over the bits; `i` is the index of the next bit, `q` SYMQ and `m` the symbols emitted so far. -/
def decBits (node : Vector Node 255) (root : Byte) (depth : Nat) :
    List Bool → Nat → Byte → List Symbol → Nat → WalkEnd
  | [], _, cur, q, m => .ok cur q m
  | b :: rest, i, cur, q, m =>
    match decStep node root cur b with
    | .malformed => .malformed i
    | .move c => decBits node root depth rest (i + 1) c q m
    | .emit x c =>
      if q.length = depth then .full i
      else decBits node root depth rest (i + 1) c (q ++ [x]) (m + 1)

/-- R171: DEC_WORD. Every error undoes the whole command. -/
def execDecWord (a : Nat) (s : State) : Result :=
  match bitCountOperand a with
  | none => raise .badOperand 0 s
  | some n =>
    match decBits s.node s.root s.cfg.depthSym (argBits s.arg n) 0 s.decCur s.symq 0 with
    | .malformed i => raise .malformedTree (BitVec.ofNat 5 i) s
    | .full i => raise .symFull (BitVec.ofNat 5 i) s
    | .ok cur q m =>
      done (State.withResults (BitVec.ofNat 32 m) (cur.setWidth 32) { s with decCur := cur, symq := q })

/-- R172: DEC_END. Inside a codeword the cursor returns to the root, and TRUNCATED_STREAM is reported (R204). -/
def execDecEnd (s : State) : Result :=
  if s.decCur = s.root then done s
  else report .truncatedStream 0 { s with decCur := s.root }

/-- R173: DEC_RESET. -/
def execDecReset (s : State) : Result := done { s with decCur := s.root, symq := [] }

/-- R174: SYM_POP. -/
def execSymPop (s : State) : Result :=
  match s.symq with
  | [] => raise .fifoEmpty 0 s
  | x :: rest => done (State.withResults (x.setWidth 32) (BitVec.ofNat 32 rest.length) { s with symq := rest })

/-- R175: DEC_INFO. -/
def execDecInfo (s : State) : Result := done (s.withResults (s.decCur.setWidth 32) (s.root.setWidth 32))

end Sys2Proof.Machine
end

