-- ==== Sys2Proof/Machine/Encoder.lean ====
section
/-! DEFINITION. The encoder commands (spec/42_encoder.md). -/

namespace Sys2Proof.Machine

/-- The encoder's packing registers while a codeword is appended: PACK, FILL and OUTQ (R151's p, f and OUTQ). -/
structure Packer where
  pack : Word
  fill : Nat
  outq : List OutEntry
deriving DecidableEq, Repr

/-- R151: append one stream bit; push the word when its 32nd bit is in (R150). -/
def packBit (p : Packer) (b : Bool) : Packer :=
  if p.fill + 1 = 32 then
    { pack := 0, fill := 0, outq := p.outq ++ [{ data := setBit p.pack (31 - p.fill) b, nbits := 32 }] }
  else { p with pack := setBit p.pack (31 - p.fill) b, fill := p.fill + 1 }

/-- R151: append bits in order. -/
def packBits (p : Packer) (bits : List Bool) : Packer := bits.foldl packBit p

/-- The packing registers of a state. -/
def packerOf (s : State) : Packer := { pack := s.pack, fill := s.fill.toNat, outq := s.outq }

/-- R151: `(FILL + len) div 32`, the words a codeword of this length completes. -/
def wordsCompleted (s : State) (len : Nat) : Nat := (s.fill.toNat + len) / 32

/-- R151: the state with a codeword appended. -/
def appendCode (c : Code) (s : State) : State :=
  let p := packBits (packerOf s) (codeword c)
  { s with pack := p.pack, fill := BitVec.ofNat 5 p.fill, outq := p.outq,
           encTotal := s.encTotal + c.len.setWidth 32 }

/-- R151: ENC_SYM. UNKNOWN_SYMBOL is checked first, then OUT_FULL. -/
def execEncSym (a : Nat) (s : State) : Result :=
  match symbolOperand a with
  | none => raise .unknownSymbol 0 s
  | some x =>
    let c := s.readCode x
    if c.len = 0 then raise .unknownSymbol 0 s
    else if s.cfg.depthOut < s.outq.length + wordsCompleted s c.len.toNat then raise .outFull 0 s
    else done ((appendCode c s).withResults (c.len.setWidth 32) (BitVec.ofNat 32 (wordsCompleted s c.len.toNat)))

/-- R152: ENC_FLUSH. -/
def execEncFlush (s : State) : Result :=
  if s.fill = 0 then done (s.withResults 0 0)
  else if s.outq.length = s.cfg.depthOut then raise .outFull 0 s
  else
    done (State.withResults (s.fill.setWidth 32) 1
      { s with pack := 0, fill := 0, outq := s.outq ++ [{ data := s.pack, nbits := s.fill.setWidth 6 }] })

/-- R153: ENC_RESET. -/
def execEncReset (s : State) : Result :=
  done { s with pack := 0, fill := 0, encTotal := 0, outq := [] }

/-- R154: OUT_POP. -/
def execOutPop (s : State) : Result :=
  match s.outq with
  | [] => raise .fifoEmpty 0 s
  | e :: rest => done (State.withResults e.data (e.nbits.setWidth 32) { s with outq := rest })

/-- R155: ENC_INFO. -/
def execEncInfo (s : State) : Result := done (s.withResults s.encTotal s.pack)

end Sys2Proof.Machine
end

