-- ==== Sys2Proof/Machine/Dispatch.lean ====
section
/-! DEFINITION. One arm per command: its body, run by the frame of spec/00_scope.md R9. -/

namespace Sys2Proof.Machine

/-- R84: "run the body of row.rule with (a, k, ARG)". -/
def exec (i : Instr) (s : State) : Host.Outcome State Fault Refusal :=
  match i with
  | .nop => Sys2Proof.Machine.execNop s
  | .clr => Sys2Proof.Machine.execClr s
  | .freqWr a => Sys2Proof.Machine.execFreqWr a s
  | .freqRd a => Sys2Proof.Machine.execFreqRd a s
  | .build => Sys2Proof.Machine.execBuild s
  | .treeInfo => Sys2Proof.Machine.execTreeInfo s
  | .nodeRd a => Sys2Proof.Machine.execNodeRd a s
  | .nodeWr a => Sys2Proof.Machine.execNodeWr a s
  | .rootWr => Sys2Proof.Machine.execRootWr s
  | .codeRd a k => Sys2Proof.Machine.execCodeRd a k s
  | .codeWr a k => Sys2Proof.Machine.execCodeWr a k s
  | .codeLenWr a => Sys2Proof.Machine.execCodeLenWr a s
  | .encSym a => Sys2Proof.Machine.execEncSym a s
  | .encFlush => Sys2Proof.Machine.execEncFlush s
  | .encReset => Sys2Proof.Machine.execEncReset s
  | .outPop => Sys2Proof.Machine.execOutPop s
  | .encInfo => Sys2Proof.Machine.execEncInfo s
  | .decWord a => Sys2Proof.Machine.execDecWord a s
  | .decEnd => Sys2Proof.Machine.execDecEnd s
  | .decReset => Sys2Proof.Machine.execDecReset s
  | .symPop => Sys2Proof.Machine.execSymPop s
  | .decInfo => Sys2Proof.Machine.execDecInfo s

end Sys2Proof.Machine
end

