-- ==== Sys2Proof/Machine/Flags.lean ====
section
/-! DEFINITION. STATUS and its flags (spec/10_state.md R23, R29, R30), the error numbers (spec/60_exceptions.md R200)
and PARAM (R27). The derived flags are computed at the moment of the read and stored nowhere (R30). -/

namespace Sys2Proof.Machine

/-- R200: the 4-bit number of an error code. -/
def errNumber : ErrCode → BitVec 4
  | .ok => 0
  | .emptyAlphabet => 1
  | .unknownSymbol => 2
  | .truncatedStream => 3
  | .malformedTree => 4
  | .illegalCmd => 5
  | .badOperand => 6
  | .outFull => 7
  | .symFull => 8
  | .fifoEmpty => 9

/-- R23: TREE, 1 if ROOT != NULL. -/
def flagTree (s : State) : Bool := s.root != nullIx

/-- R23: DEC_MID, 1 if DEC_CUR != ROOT. -/
def flagDecMid (s : State) : Bool := s.decCur != s.root

/-- R23: OUT_OCC, len(OUTQ). -/
def outOcc (s : State) : BitVec 5 := BitVec.ofNat 5 s.outq.length

/-- R23: SYM_OCC, len(SYMQ). -/
def symOcc (s : State) : BitVec 6 := BitVec.ofNat 6 s.symq.length

/-- R23: the STATUS word: 0 in 31:27, ERR_INFO 26:22, SYM_OCC 21:16, OUT_OCC 15:11, FILL 10:6, DEC_MID 5, TREE 4, ERR 3:0. -/
def statusWord (s : State) : Word :=
  0#5 ++ s.errInfo ++ symOcc s ++ outOcc s ++ s.fill ++ BitVec.ofBool (flagDecMid s) ++ BitVec.ofBool (flagTree s)
    ++ errNumber s.err

/-- R27: the PARAM word: 0x20 (W_COUNT), 0x80 (NSYM), DEPTH_SYM, DEPTH_OUT. -/
def paramWord (c : Config) : Word := 0x20#8 ++ 0x80#8 ++ BitVec.ofNat 8 c.depthSym ++ BitVec.ofNat 8 c.depthOut

end Sys2Proof.Machine
end

