-- ==== Sys2Proof/Machine/Bus.lean ====
section
/-! DEFINITION. The host interface (spec/20_memory.md R60 to R68): the register window, the two transactions, reset,
and the command frame a CMD write runs (spec/00_scope.md R9, spec/30_encoding.md R84). -/

namespace Sys2Proof.Machine

/-- R64: the eight word slots of the register window. -/
inductive Slot where
  | id
  | status
  | arg
  | cmd
  | res0
  | res1
  | param
  | reserved
deriving DecidableEq, Repr

/-- R64: the byte offset of a slot. -/
def slotOffset : Slot → Nat
  | .id => 0x00
  | .status => 0x04
  | .arg => 0x08
  | .cmd => 0x0C
  | .res0 => 0x10
  | .res1 => 0x14
  | .param => 0x18
  | .reserved => 0x1C

/-- R61, R64: the slot of a word offset `addr[4:2]`. -/
def slotOfAddr (addr : BitVec 3) : Slot :=
  match addr.toNat with
  | 0 => .id
  | 1 => .status
  | 2 => .arg
  | 3 => .cmd
  | 4 => .res0
  | 5 => .res1
  | 6 => .param
  | _ => .reserved

/-- R60, R68: the slot an access reaches; none where the access cannot be expressed: not 4 bytes wide, not a multiple of
4, or outside 0x00 to 0x1C. -/
def slotOfAccess (off bytes : Nat) : Option Slot :=
  if bytes = 4 ∧ off % 4 = 0 ∧ off ≤ 0x1C then some (slotOfAddr (BitVec.ofNat 3 (off / 4))) else none

/-- R65: what `BusRead` of a slot returns. It is no transition: a read changes nothing (R63). -/
def readSlot (x : Slot) (s : State) : Word :=
  match x with
  | .id => idWord
  | .status => statusWord s
  | .arg => s.arg
  | .cmd => 0
  | .res0 => s.res0
  | .res1 => s.res1
  | .param => paramWord s.cfg
  | .reserved => 0

/-- R9, R84: a CMD write of word `w`: decode it and run its body; a word that is no command raises ILLEGAL_CMD(0). -/
def runCommand (w : Word) (s : State) : Result :=
  match decode w with
  | .ok i => exec i s
  | .error _ => raise .illegalCmd 0 s

/-- R65, R66: `BusWrite` of `v` to a slot. -/
def writeSlot (x : Slot) (v : Word) (s : State) : Result :=
  match x with
  | .arg => .next { s with arg := v }
  | .cmd => runCommand v s
  | .id => .next s
  | .status => .next s
  | .res0 => .next s
  | .res1 => .next s
  | .param => .next s
  | .reserved => .next s

/-- R62: one transaction, one transition. A read hands its word to the host (R231); an access R68 rules out is refused. -/
def runTransaction (t : Transaction) (s : State) : Result :=
  match t with
  | .busRead off bytes =>
    match slotOfAccess off bytes with
    | some x => .next { s with reads := s.reads ++ [readSlot x s] }
    | none => .refused .noSuchTransaction
  | .busWrite off bytes v =>
    match slotOfAccess off bytes with
    | some x => writeSlot x v s
    | none => .refused .noSuchTransaction
  | .reset => .next s.cleared

end Sys2Proof.Machine
end

