-- ==== Sys2Proof/Machine/Step.lean ====
section
/-! DEFINITION. One step of the machine: the host's next transaction (spec/20_memory.md R62). The block fetches nothing
(R76); commands arrive as host writes to CMD (spec/10_state.md R32). -/

namespace Sys2Proof.Machine

/-- One step: take the host's next transaction and perform it. Where the host has issued none, the block is idle and its
state is kept (R214, log entry 3). -/
def step (s : State) : Host.Outcome State Fault Refusal :=
  match s.pending with
  | [] => .next s
  | t :: rest => runTransaction t { s with pending := rest }

/-- `s` with a CMD write of the table's word as the host's next transaction, so that the next step runs it
(log entry 2). -/
def State.withFetchWord (s : State) (nbits w : Nat) : State :=
  { s with pending := .busWrite (slotOffset .cmd) 4 (BitVec.ofNat 32 (w % 2 ^ nbits)) :: s.pending }

end Sys2Proof.Machine
end

