-- ==== Sys2Proof/Machine/Assembler.lean ====
section
/-! DEFINITION. The host program notation (spec/30_encoding.md R90, R91) as data: a line, its expansion and the bus
transactions it stands for. The spelling of lines as text is left out (log entry 13). -/

namespace Sys2Proof.Machine

/-- R90: the names an `RD` line takes. -/
inductive ReadName where
  | id
  | status
  | arg
  | res0
  | res1
  | param
deriving DecidableEq, Repr

/-- R64, R90: the slot of a read name. -/
def slotOfName : ReadName → Slot
  | .id => .id
  | .status => .status
  | .arg => .arg
  | .res0 => .res0
  | .res1 => .res1
  | .param => .param

/-- R90: a line that is one bus transaction. -/
inductive BasicLine where
  /-- `ARG v` -/
  | arg (v : Nat)
  /-- `MNEMONIC`, `MNEMONIC a` or `MNEMONIC a, k` -/
  | command (i : Instr)
  /-- `RD name` -/
  | rd (n : ReadName)
deriving DecidableEq, Repr

/-- R90, R91: a line of a host program. -/
inductive HostLine where
  | basic (l : BasicLine)
  /-- `SETF s, c` -/
  | setF (s c : Nat)
  /-- `LDNODE i, v` -/
  | ldNode (i v : Nat)
  /-- `LDROOT r` -/
  | ldRoot (r : Nat)
  /-- `LDBITS s, k, v` -/
  | ldBits (s k v : Nat)
  /-- `LDLEN s, n` -/
  | ldLen (s n : Nat)
  /-- `DEC n, v` -/
  | dec (n v : Nat)
deriving DecidableEq, Repr

/-- R91: the expansions of the pseudo-instructions. -/
def expandLine : HostLine → List BasicLine
  | .basic l => [l]
  | .setF s c => [.arg c, .command (.freqWr s)]
  | .ldNode i v => [.arg v, .command (.nodeWr i)]
  | .ldRoot r => [.arg r, .command .rootWr]
  | .ldBits s k v => [.arg v, .command (.codeWr s k)]
  | .ldLen s n => [.arg n, .command (.codeLenWr s)]
  | .dec n v => [.arg v, .command (.decWord n)]

/-- R90: the transaction of a basic line; none is an assembler error (an operand that does not fit its field). -/
def assembleBasic : BasicLine → Option Transaction
  | .arg v => if v < 2 ^ 32 then some (.busWrite (slotOffset .arg) 4 (BitVec.ofNat 32 v)) else none
  | .command i => if i.wellFormed then some (.busWrite (slotOffset .cmd) 4 (encode i)) else none
  | .rd n => some (.busRead (slotOffset (slotOfName n)) 4)

/-- R90, R91: the transactions of a line; on an assembler error "the assembler emits nothing for that line". -/
def assembleLine (l : HostLine) : List Transaction := ((expandLine l).mapM assembleBasic).getD []

/-- R90: the transactions of a host program. -/
def assemble (program : List HostLine) : List Transaction := program.flatMap assembleLine

end Sys2Proof.Machine
end

