-- ==== Sys2Proof/Machine/Bridge.lean ====
section
/-! DEFINITION. The platform around the block: the window at HUF_BASE (spec/20_memory.md R64) seen by a byte-addressed
host through a bridge with little-endian lanes (R67). No command and no step uses it. -/

namespace Sys2Proof.Machine

/-- R67: the byte on lane `lane` of a slot's word: lane 0 carries bits 7:0, lane 3 bits 31:24. -/
def laneByte (lane : Fin 4) (w : Word) : Byte := w.extractLsb' (8 * lane.val) 8

/-- R64, R67: the host byte address of a lane of a slot. -/
def bridgeAddress (x : Slot) (lane : Fin 4) : Nat := Config.hufBase + slotOffset x + lane.val

/-- R64, R67: the byte of the window at a host byte address, none outside the window. -/
def bridgeByte (addr : Nat) (s : State) : Option Byte :=
  if Config.hufBase ≤ addr ∧ addr < Config.hufBase + 32 then
    some (laneByte ⟨(addr - Config.hufBase) % 4, Nat.mod_lt _ (by decide)⟩
      (readSlot (slotOfAddr (BitVec.ofNat 3 ((addr - Config.hufBase) / 4))) s))
  else none

end Sys2Proof.Machine
end

