-- ==== Sys2Proof/Machine/Procedures.lean ====
section
/-! DEFINITION. The host's encode and decode procedures (spec/42_encoder.md R156, spec/43_decoder.md R176) with each of
their outcomes, as runs of commands: when the host pops, and how often it retries, is left to the host (log entry 18); and
the tree and code table of one BUILD that R177's guarantees speak of. No command and no step uses them. -/

namespace Sys2Proof.Machine

/-! ## Encode -/

/-- R156: the host issues the commands in order, each until it ends with OK: after OUT_FULL it issues the same command
again. Between any two it may pop a word, or find none (FIFO_EMPTY). `EncodeRun is s ws left t`: of the commands `is`, those
in `left` have not ended with OK yet, and the words popped are `ws`, oldest first. -/
inductive EncodeRun : List Instr → State → List OutEntry → List Instr → State → Prop where
  | done (left : List Instr) (s : State) : EncodeRun left s [] left s
  | issue {i : Instr} {is left : List Instr} {s u t : State} {ws : List OutEntry} :
      exec i s = .next u → u.err = .ok → EncodeRun is u ws left t → EncodeRun (i :: is) s ws left t
  | retry {i : Instr} {is left : List Instr} {s u t : State} {ws : List OutEntry} :
      exec i s = .next u → u.err = .outFull → EncodeRun (i :: is) u ws left t → EncodeRun (i :: is) s ws left t
  | pop {is left : List Instr} {s u t : State} {ws : List OutEntry} :
      exec .outPop s = .next u → u.err = .ok → EncodeRun is u ws left t →
      EncodeRun is s ({ data := u.res0, nbits := u.res1.setWidth 6 } :: ws) left t
  | empty {is left : List Instr} {s u t : State} {ws : List OutEntry} :
      exec .outPop s = .next u → u.err = .fifoEmpty → EncodeRun is u ws left t → EncodeRun is s ws left t

/-- R156: what an encode procedure gives its caller. -/
inductive EncodeOutcome where
  /-- the words read, in order; each holds its NBITS stream bits -/
  | stream (ws : List OutEntry)
  /-- UNKNOWN_SYMBOL: "Surfaced immediately, no partial output returned" -/
  | unknownSymbol
deriving DecidableEq, Repr

/-- R156: the encode procedure over `xs`, the operands of its ENC_SYMs. -/
inductive EncodeProcedure (xs : List Nat) (s : State) : EncodeOutcome → State → Prop where
  /-- ENC_RESET, ENC_SYM for each symbol, ENC_FLUSH, and OUT_POP until FIFO_EMPTY. -/
  | complete {r u t : State} {ws : List OutEntry} :
      exec .encReset s = .next r → EncodeRun (xs.map .encSym ++ [.encFlush]) r ws [] u →
      exec .outPop u = .next t → t.err = .fifoEmpty → EncodeProcedure xs s (.stream ws) t
  /-- An ENC_SYM that reports UNKNOWN_SYMBOL ends the procedure: the block keeps the words queued before it, the host
  discards the words it has read and issues ENC_RESET. -/
  | rejected {x : Nat} {left : List Instr} {r u f t : State} {discarded : List OutEntry} :
      exec .encReset s = .next r → EncodeRun (xs.map .encSym) r discarded (.encSym x :: left) u →
      exec (.encSym x) u = .next f → f.err = .unknownSymbol → exec .encReset f = .next t →
      EncodeProcedure xs s .unknownSymbol t

/-! ## Decode -/

/-- R176: for each word with its count n, `DEC n, word` (R91: ARG, then DEC_WORD) until it ends with OK: after SYM_FULL the
host issues it again. Between any two it may pop a symbol, or find none (FIFO_EMPTY). `DecodeRun ws s out left t`: of the
words `ws`, those in `left` have not ended with OK yet, and the symbols popped are `out`, oldest first. -/
inductive DecodeRun : List OutEntry → State → List Symbol → List OutEntry → State → Prop where
  | done (left : List OutEntry) (s : State) : DecodeRun left s [] left s
  | issue {e : OutEntry} {ws left : List OutEntry} {s u t : State} {out : List Symbol} :
      exec (.decWord e.nbits.toNat) { s with arg := e.data } = .next u → u.err = .ok → DecodeRun ws u out left t →
      DecodeRun (e :: ws) s out left t
  | retry {e : OutEntry} {ws left : List OutEntry} {s u t : State} {out : List Symbol} :
      exec (.decWord e.nbits.toNat) { s with arg := e.data } = .next u → u.err = .symFull →
      DecodeRun (e :: ws) u out left t → DecodeRun (e :: ws) s out left t
  | pop {ws left : List OutEntry} {s u t : State} {out : List Symbol} :
      exec .symPop s = .next u → u.err = .ok → DecodeRun ws u out left t →
      DecodeRun ws s (u.res0.setWidth 7 :: out) left t
  | empty {ws left : List OutEntry} {s u t : State} {out : List Symbol} :
      exec .symPop s = .next u → u.err = .fifoEmpty → DecodeRun ws u out left t → DecodeRun ws s out left t

/-- R176: what a decode procedure gives its caller. -/
inductive DecodeOutcome where
  /-- the symbols read, in order -/
  | symbols (out : List Symbol)
  /-- TRUNCATED_STREAM: the symbols read are the partial output, "clearly marked incomplete" -/
  | truncated (out : List Symbol)
  /-- MALFORMED_TREE: "surfaced immediately", the stream is rejected -/
  | malformed
deriving DecidableEq, Repr

/-- R176: a decode procedure that reaches DEC_END, which ends with `e`; `out` is every symbol popped, oldest first. SYM_POP
is repeated until FIFO_EMPTY "before or after `DEC_END`". -/
inductive DecodesTo : List OutEntry → State → ErrCode → List Symbol → State → Prop where
  /-- R176's own order: after the last word SYM_POP until FIFO_EMPTY, then DEC_END. -/
  | popsBefore {ws : List OutEntry} {s r u v t : State} {e : ErrCode} {out : List Symbol} :
      exec .decReset s = .next r → DecodeRun ws r out [] u → exec .symPop u = .next v → v.err = .fifoEmpty →
      exec .decEnd v = .next t → t.err = e → DecodesTo ws s e out t
  /-- DEC_END, then SYM_POP until FIFO_EMPTY; some symbols may have been popped before it. -/
  | popsAfter {ws : List OutEntry} {s r u d v t : State} {e : ErrCode} {early late : List Symbol} :
      exec .decReset s = .next r → DecodeRun ws r early [] u → exec .decEnd u = .next d → d.err = e →
      DecodeRun [] d late [] v → exec .symPop v = .next t → t.err = .fifoEmpty →
      DecodesTo ws s e (early ++ late) t
  /-- A stream of no words, after none of which the host pops. -/
  | noWords {s r t : State} {e : ErrCode} :
      exec .decReset s = .next r → exec .decEnd r = .next t → t.err = e → DecodesTo [] s e [] t

/-- R176: the decode procedure over words with their counts of valid bits. -/
inductive DecodeProcedure (ws : List OutEntry) (s : State) : DecodeOutcome → State → Prop where
  | complete {out : List Symbol} {t : State} : DecodesTo ws s .ok out t → DecodeProcedure ws s (.symbols out) t
  /-- DEC_END reports TRUNCATED_STREAM. -/
  | truncated {out : List Symbol} {t : State} :
      DecodesTo ws s .truncatedStream out t → DecodeProcedure ws s (.truncated out) t
  /-- A DEC_WORD that reports MALFORMED_TREE ends the procedure. -/
  | rejected {e : OutEntry} {left : List OutEntry} {r u t : State} {discarded : List Symbol} :
      exec .decReset s = .next r → DecodeRun ws r discarded (e :: left) u →
      exec (.decWord e.nbits.toNat) { u with arg := e.data } = .next t → t.err = .malformedTree →
      DecodeProcedure ws s .malformed t

/-! ## The codec a BUILD leaves -/

/-- R177: "a tree and code table from one BUILD": NODE, ROOT and CODE are as a BUILD over `freq` that ended with OK left
them, whatever the rest of the state holds. -/
def CodecOf (freq : Vector Word 128) (s : State) : Prop :=
  ∃ b t, b.freq = freq ∧ exec .build b = .next t ∧ t.err = .ok ∧ s.node = t.node ∧ s.root = t.root ∧ s.code = t.code

/-- R177: the commands that end such a codec: "no later NODE_WR, ROOT_WR, CODE_WR or CODE_LEN_WR", nor another BUILD (R112)
or CLR (R101), which replace the tree and the code table. -/
def replacesCodec : Instr → Bool
  | .nop => false
  | .clr => true
  | .freqWr _ => false
  | .freqRd _ => false
  | .build => true
  | .treeInfo => false
  | .nodeRd _ => false
  | .nodeWr _ => true
  | .rootWr => true
  | .codeRd _ _ => false
  | .codeWr _ _ => true
  | .codeLenWr _ => true
  | .encSym _ => false
  | .encFlush => false
  | .encReset => false
  | .outPop => false
  | .encInfo => false
  | .decWord _ => false
  | .decEnd => false
  | .decReset => false
  | .symPop => false
  | .decInfo => false

end Sys2Proof.Machine
end

