-- ==== Sys2Proof/Safety.lean ====
section
/-! DEFINITION. What the statements speak of: what a failed command leaves, the stream a state holds (spec/42_encoder.md
R150), a walk over a bit string (spec/43_decoder.md R170), paths and keys of a tree (spec/41_builder.md R116 to R118), and
the invariants of a safe run. A run of this block is safe when every reachable state has `State.Inv`; no command stops. -/

namespace Sys2Proof.Machine

/-! ## Ends of commands -/

/-- R203: what a command that raised an error answers: the state before it, with ERR and ERR_INFO written. -/
def failed (e : ErrCode) (info : BitVec 5) (s : State) : Result := .next { s with err := e, errInfo := info }

/-- R82, R84, R86: a word of opcode `op` with a nonzero field that format `f` does not use raises ILLEGAL_CMD and changes
nothing else. -/
def MisfitIsIllegal (op : Byte) (f : Format) : Prop :=
  ∀ (w : Word) (s : State), fieldOp w = op → w &&& f.mask ≠ op.setWidth 32 →
    runCommand w s = failed .illegalCmd 0 s

/-- R200, column "raised by": the codes a command's body can leave in ERR; ILLEGAL_CMD is decode's. -/
def errorsOf : Instr → List ErrCode
  | .nop => [.ok]
  | .clr => [.ok]
  | .freqWr _ => [.ok, .badOperand]
  | .freqRd _ => [.ok, .badOperand]
  | .build => [.ok, .emptyAlphabet]
  | .treeInfo => [.ok]
  | .nodeRd _ => [.ok, .badOperand]
  | .nodeWr _ => [.ok, .badOperand]
  | .rootWr => [.ok]
  | .codeRd _ _ => [.ok, .badOperand]
  | .codeWr _ _ => [.ok, .badOperand]
  | .codeLenWr _ => [.ok, .badOperand]
  | .encSym _ => [.ok, .unknownSymbol, .outFull]
  | .encFlush => [.ok, .outFull]
  | .encReset => [.ok]
  | .outPop => [.ok, .fifoEmpty]
  | .encInfo => [.ok]
  | .decWord _ => [.ok, .badOperand, .malformedTree, .symFull]
  | .decEnd => [.ok, .truncatedStream]
  | .decReset => [.ok]
  | .symPop => [.ok, .fifoEmpty]
  | .decInfo => [.ok]

/-! ## The stream (R45, R150) -/

/-- The first `n` bits of a word, most significant first. -/
def leadingBits (w : Word) (n : Nat) : List Bool := (List.range n).map fun i => w.getLsbD (31 - i)

/-- R45: the stream bits of an OUTQ entry, DATA[31] first. -/
def entryBits (e : OutEntry) : List Bool := leadingBits e.data e.nbits.toNat

/-- R150: the stream bits of the entries of OUTQ, oldest first. -/
def queueBits (q : List OutEntry) : List Bool := q.flatMap entryBits

/-- R150: the stream a state holds: the bits of OUTQ, then those waiting in PACK. -/
def streamBits (s : State) : List Bool := queueBits s.outq ++ leadingBits s.pack s.fill.toNat

/-! ## Walks over a tree -/

/-- R170: DecStep over a bit string, without a bound on the symbols: the cursor reached and the symbols emitted; none where
a step is Malformed. -/
def walkBits (node : Vector Node 255) (root : Byte) : Byte → List Bool → Option (Byte × List Symbol)
  | cur, [] => some (cur, [])
  | cur, b :: rest =>
    match decStep node root cur b with
    | .malformed => none
    | .move c => walkBits node root c rest
    | .emit x c => (walkBits node root c rest).map fun r => (r.1, x :: r.2)

/-- NODE[i] of an arena, the empty entry outside it. -/
def nodeAt (node : Vector Node 255) (i : Nat) : Node := (node[i]?).getD Node.empty

/-- R118: the node a path reaches from node `i`: left child on false, right child on true; none where the path would
leave a leaf. -/
def followPath (node : Vector Node 255) : Nat → List Bool → Option Node
  | i, [] => some (nodeAt node i)
  | i, b :: rest =>
    if (nodeAt node i).kind = .internal then
      followPath node (if b then (nodeAt node i).b.toNat else (nodeAt node i).a.toNat) rest
    else none

/-- R8, R116: key(i) < key(j), key(i) = (NODE[i].WEIGHT, i). -/
def keyBefore (node : Vector Node 255) (i j : Nat) : Prop :=
  (nodeAt node i).weight.toNat < (nodeAt node j).weight.toNat ∨
    ((nodeAt node i).weight = (nodeAt node j).weight ∧ i < j)

/-- R117: node `j` is in the collection P when entry `n` is made of a tree with `l` leaves: it was made before `n`, and no
entry made before `n` has it as a child. -/
def inCollection (node : Vector Node 255) (l n j : Nat) : Prop :=
  j < n ∧ ∀ m, l ≤ m → m < n → (nodeAt node m).a.toNat ≠ j ∧ (nodeAt node m).b.toNat ≠ j

/-- R113: a symbol with a positive count. -/
def positive (freq : Vector Word 128) (x : SymIx) : Prop := freq[x] ≠ 0

/-- R112: L, the number of symbols with a positive count. -/
def leafCount (freq : Vector Word 128) : Nat := (List.finRange 128).countP fun x => decide (freq[x] ≠ 0)

/-- §8 of the source, R127: the sum over symbols of frequency × codeword length. -/
def codingCost (freq : Vector Word 128) (code : SymIx → List Bool) : Nat :=
  ((List.finRange 128).map fun x => freq[x].toNat * (code x).length).sum

/-- R127: no codeword of a positive symbol is a prefix of another's. -/
def prefixFree (freq : Vector Word 128) (code : SymIx → List Bool) : Prop :=
  ∀ x y : SymIx, positive freq x → positive freq y → x ≠ y → ¬ code x <+: code y

/-! ## Invariants -/

/-- R5, R45, R47: the parameters are in range and neither FIFO holds more than its depth. -/
def State.FifoBounds (s : State) : Prop :=
  s.cfg.wellFormed = true ∧ s.outq.length ≤ s.cfg.depthOut ∧ s.symq.length ≤ s.cfg.depthSym

/-- R44, R45: the bits of PACK not yet filled are 0, and each OUTQ entry holds 1 to 32 stream bits with 0 below them. -/
def State.PaddingZero (s : State) : Prop :=
  (∀ i, i < 32 - s.fill.toNat → s.pack.getLsbD i = false) ∧
    ∀ e ∈ s.outq, 1 ≤ e.nbits.toNat ∧ e.nbits.toNat ≤ 32 ∧ ∀ i, i < 32 - e.nbits.toNat → e.data.getLsbD i = false

/-- R42: every LEN is a legal value, 0 to 127. -/
def State.LengthsLegal (s : State) : Prop := ∀ x : SymIx, (s.readCode x).len.toNat ≤ 127

/-- R43: NLEAF is at most 128 and NCOUNT is 2 x NLEAF - 1 (0 before any BUILD). -/
def State.CountsLegal (s : State) : Prop := s.nleaf.toNat ≤ 128 ∧ s.ncount.toNat = 2 * s.nleaf.toNat - 1

/-- R201: ERR_INFO is 0 but for MALFORMED_TREE and SYM_FULL. -/
def State.InfoLegal (s : State) : Prop := s.err = .malformedTree ∨ s.err = .symFull ∨ s.errInfo = 0

/-- The invariant of a safe run. -/
structure State.Inv (s : State) : Prop where
  fifos : s.FifoBounds
  padding : s.PaddingZero
  lengths : s.LengthsLegal
  counts : s.CountsLegal
  info : s.InfoLegal

end Sys2Proof.Machine
end

