-- ==== Sys2Proof/Certificates/Slice0/Obligations.lean ====
section
/-! DEFINITION. The statements for the provers, from the numbered rules of spec/. Each docstring names the rule it
formalises. Results are written out as record updates: a field not named is unchanged, so such an equation is the
command's result, its frame and its completion at once. -/

open Sys2Proof Sys2Proof.Machine

/-! ## Encoding -/

/-- R81, R82, R85: no bit of an encoding is dropped: every command whose operands fit decodes from its own word. -/
def Obligations.DecodeOfEncode : Prop :=
  ∀ i : Instr, i.wellFormed = true → decode (encode i) = .ok i

/-- R82, R84: each legal word has one meaning: it is the encoding of the command it decodes to, whose operands fit. -/
def Obligations.EncodeOfDecode : Prop :=
  ∀ (w : Word) (i : Instr), decode w = .ok i → i.wellFormed = true ∧ encode i = w

/-- R84: a word runs the row it matches under the format's mask, a word matching no row raises ILLEGAL_CMD(0) and changes
nothing else, and no two rows match one word. -/
def Obligations.CmdWordSelectsRow : Prop :=
  (∀ (w : Word) (s : State) (r : Row), r ∈ opcodeMap → w &&& r.format.mask = r.pattern →
      runCommand w s = exec (r.make (w.extractLsb' 8 8).toNat (w.extractLsb' 16 2).toNat) s) ∧
  (∀ (w : Word) (s : State), (∀ r ∈ opcodeMap, w &&& r.format.mask ≠ r.pattern) →
      runCommand w s = failed .illegalCmd 0 s) ∧
  (∀ w : Word, ∀ r ∈ opcodeMap, ∀ r' ∈ opcodeMap, w &&& r.format.mask = r.pattern →
      w &&& r'.format.mask = r'.pattern → r.op = r'.op) ∧
  (opcodeMap.map Row.op).Nodup

/-- R86: every OP outside the map and every nonzero unused or reserved field makes a word illegal: ILLEGAL_CMD, info 0,
nothing else changed; and the only word that is NOP is 0. -/
def Obligations.IllegalWordsRaise : Prop :=
  (∀ (w : Word) (s : State),
      ((0x0C ≤ (fieldOp w).toNat ∧ (fieldOp w).toNat ≤ 0x0F) ∨ (0x15 ≤ (fieldOp w).toNat ∧ (fieldOp w).toNat ≤ 0x1F) ∨
        0x25 ≤ (fieldOp w).toNat ∨ w.extractLsb' 18 14 ≠ 0) →
      runCommand w s = failed .illegalCmd 0 s) ∧
  (∀ op ∈ [0x02#8, 0x03#8, 0x06#8, 0x07#8, 0x0B#8, 0x10#8, 0x20#8], MisfitIsIllegal op .fa) ∧
  (∀ op ∈ [0x09#8, 0x0A#8], MisfitIsIllegal op .fak) ∧
  (∀ op ∈ [0x00#8, 0x01#8, 0x04#8, 0x05#8, 0x08#8, 0x11#8, 0x12#8, 0x13#8, 0x14#8, 0x21#8, 0x22#8, 0x23#8, 0x24#8],
      MisfitIsIllegal op .f0) ∧
  (∀ w : Word, decode w = .ok .nop ↔ w = 0)

/-- R92: the spec's example words, legal and illegal. -/
def Obligations.ExampleWordsDecode : Prop :=
  (encode .nop = 0x00000000#32 ∧ encode .clr = 0x00000001#32 ∧ encode (.freqWr 0x61) = 0x00006102#32 ∧
    encode .build = 0x00000004#32 ∧ encode (.nodeRd 6) = 0x00000606#32 ∧ encode (.codeRd 0x61 1) = 0x00016109#32 ∧
    encode (.encSym 0x64) = 0x00006410#32 ∧ encode (.decWord 10) = 0x00000A20#32 ∧
    encode (.decWord 32) = 0x00002020#32 ∧ encode .symPop = 0x00000023#32) ∧
  (decode 0x00000000#32 = .ok .nop ∧ decode 0x00000001#32 = .ok .clr ∧ decode 0x00006102#32 = .ok (.freqWr 0x61) ∧
    decode 0x00000004#32 = .ok .build ∧ decode 0x00000606#32 = .ok (.nodeRd 6) ∧
    decode 0x00016109#32 = .ok (.codeRd 0x61 1) ∧ decode 0x00006410#32 = .ok (.encSym 0x64) ∧
    decode 0x00000A20#32 = .ok (.decWord 10) ∧ decode 0x00002020#32 = .ok (.decWord 32) ∧
    decode 0x00000023#32 = .ok .symPop) ∧
  (decode 0x000000FF#32 = .error .undefinedOp ∧ decode 0x00000104#32 = .error .nonzeroField ∧
    decode 0x00010002#32 = .error .nonzeroField ∧ decode 0x80000000#32 = .error .nonzeroField)

/-! ## The bus, the step, reset -/

/-- R62, R84, with log entries 2 and 3: a step runs the command decoded from the host's next CMD write; a word that is no
command raises ILLEGAL_CMD; with no transaction waiting the state is kept; `withFetchWord` places such a write. -/
def Obligations.StepRunsTheDecodedCommand : Prop :=
  (∀ (s : State) (w : Word) (rest : List Transaction) (i : Instr),
      s.pending = .busWrite 0x0C 4 w :: rest → decode w = .ok i → step s = exec i { s with pending := rest }) ∧
  (∀ (s : State) (w : Word) (rest : List Transaction) (e : DecodeReject),
      s.pending = .busWrite 0x0C 4 w :: rest → decode w = .error e →
      step s = failed .illegalCmd 0 { s with pending := rest }) ∧
  (∀ s : State, s.pending = [] → step s = .next s) ∧
  (∀ (s : State) (w : Nat) (i : Instr), decode (BitVec.ofNat 32 (w % 2 ^ 32)) = .ok i →
      step (s.withFetchWord 32 w) = exec i s)

/-- R65, R66: what a read of each offset returns, and what a write to each does. -/
def Obligations.RegisterWindowAccesses : Prop :=
  ∀ (s : State) (rest : List Transaction),
    (∀ (off : Nat) (v : Word),
        (off, v) ∈ [(0x00, 0x48554631#32), (0x04, statusWord s), (0x08, s.arg), (0x0C, 0#32), (0x10, s.res0),
          (0x14, s.res1), (0x18, paramWord s.cfg), (0x1C, 0#32)] →
        s.pending = .busRead off 4 :: rest →
        step s = .next { s with pending := rest, reads := s.reads ++ [v] }) ∧
    (∀ v : Word, s.pending = .busWrite 0x08 4 v :: rest → step s = .next { s with pending := rest, arg := v }) ∧
    (∀ v : Word, s.pending = .busWrite 0x0C 4 v :: rest → step s = runCommand v { s with pending := rest }) ∧
    (∀ (off : Nat) (v : Word), off ∈ [0x00, 0x04, 0x10, 0x14, 0x18, 0x1C] →
        s.pending = .busWrite off 4 v :: rest → step s = .next { s with pending := rest })

/-- R68: an access that is not 4 bytes wide, not a multiple of 4 or outside 0x00 to 0x1C is refused, and nothing else ever
is: every other step answers a next state (R205, R232). -/
def Obligations.StepRefusesExactlyBadAccesses : Prop :=
  (∀ (s : State) (rest : List Transaction) (off bytes : Nat) (v : Word),
      (bytes ≠ 4 ∨ off % 4 ≠ 0 ∨ 0x1C < off) →
      (s.pending = .busRead off bytes :: rest ∨ s.pending = .busWrite off bytes v :: rest) →
      step s = .refused .noSuchTransaction) ∧
  (∀ s : State, (∃ t, step s = .next t) ∨
      (step s = .refused .noSuchTransaction ∧ ∃ off bytes v rest, (bytes ≠ 4 ∨ off % 4 ≠ 0 ∨ 0x1C < off) ∧
        (s.pending = .busRead off bytes :: rest ∨ s.pending = .busWrite off bytes v :: rest)))

/-- R23: the fields of the STATUS word. -/
def Obligations.StatusWordFields : Prop :=
  ∀ s : State, s.FifoBounds →
    (statusWord s).extractLsb' 0 4 = errNumber s.err ∧
    ((statusWord s).getLsbD 4 = true ↔ s.root ≠ 0xFF#8) ∧
    ((statusWord s).getLsbD 5 = true ↔ s.decCur ≠ s.root) ∧
    (statusWord s).extractLsb' 6 5 = s.fill ∧
    ((statusWord s).extractLsb' 11 5).toNat = s.outq.length ∧
    ((statusWord s).extractLsb' 16 6).toNat = s.symq.length ∧
    (statusWord s).extractLsb' 22 5 = s.errInfo ∧
    (statusWord s).extractLsb' 27 5 = 0

/-- R27, R50: the PARAM word reports the depths, and no step of any kind changes them. -/
def Obligations.ParamReportsFixedDepths : Prop :=
  (∀ c : Config, c.wellFormed = true →
      ((paramWord c).extractLsb' 0 8).toNat = c.depthOut ∧ ((paramWord c).extractLsb' 8 8).toNat = c.depthSym ∧
      (paramWord c).extractLsb' 16 8 = 0x80#8 ∧ (paramWord c).extractLsb' 24 8 = 0x20#8) ∧
  (∀ s t : State, step s = .next t → t.cfg = s.cfg)

/-- R51, R101, R220: the value of every element after reset and after CLR; STATUS then reads 0. -/
def Obligations.ResetAndClrValues : Prop :=
  ∀ (s : State) (c : State),
    c = { cfg := s.cfg, arg := 0, res0 := 0, res1 := 0, err := .ok, errInfo := 0, freq := Vector.replicate 128 0,
          node := Vector.replicate 255 { valid := false, kind := .leaf, a := 0, b := 0, weight := 0 },
          root := 0xFF#8, nleaf := 0, ncount := 0, code := Vector.replicate 128 { len := 0, bits := 0 },
          pack := 0, fill := 0, encTotal := 0, outq := [], decCur := 0xFF#8, symq := [],
          pending := s.pending, reads := s.reads } →
    exec .clr s = .next c ∧ encode .clr = 0x00000001#32 ∧ MisfitIsIllegal 0x01 .f0 ∧
    (∀ rest, s.pending = .reset :: rest → step s = .next { c with pending := rest }) ∧
    statusWord c = 0 ∧
    (s = State.reset → s = c)

/-! ## Errors -/

/-- R203: a command that ends with an error, TRUNCATED_STREAM apart (R204), leaves every element as it was but for ERR and
ERR_INFO; so does a CMD write of any word. -/
def Obligations.RaisedErrorsUndoTheCommand : Prop :=
  (∀ (i : Instr) (s t : State), exec i s = .next t → t.err ≠ .ok → t.err ≠ .truncatedStream →
      t = { s with err := t.err, errInfo := t.errInfo }) ∧
  (∀ (w : Word) (s t : State), runCommand w s = .next t → t.err ≠ .ok → t.err ≠ .truncatedStream →
      t = { s with err := t.err, errInfo := t.errInfo })

/-- R200: the numbers of the codes, and which command can end with which. -/
def Obligations.ErrorCodesByCommand : Prop :=
  (∀ (i : Instr) (s t : State), exec i s = .next t → t.err ∈ errorsOf i) ∧
  (errNumber .ok = 0 ∧ errNumber .emptyAlphabet = 1 ∧ errNumber .unknownSymbol = 2 ∧
    errNumber .truncatedStream = 3 ∧ errNumber .malformedTree = 4 ∧ errNumber .illegalCmd = 5 ∧
    errNumber .badOperand = 6 ∧ errNumber .outFull = 7 ∧ errNumber .symFull = 8 ∧ errNumber .fifoEmpty = 9)

/-- R201: ERR_INFO after a command is 0 but for MALFORMED_TREE and SYM_FULL, which DEC_WORD alone raises: it is then the
index i of the failing bit ARG[31 - i], the bits before it having been walked: the step at bit i is Malformed, or it emits a
symbol while SYMQ with the symbols of the bits before it is full. -/
def Obligations.InfoIsTheBitIndex : Prop :=
  (∀ (w : Word) (s t : State), runCommand w s = .next t → t.errInfo ≠ 0 →
      t.err = .malformedTree ∨ t.err = .symFull) ∧
  (∀ (i : Instr) (s t : State), exec i s = .next t → (t.err = .malformedTree ∨ t.err = .symFull) →
      ∃ a cur out, i = .decWord a ∧ t.errInfo.toNat < a ∧
        walkBits s.node s.root s.decCur (argBits s.arg t.errInfo.toNat) = some (cur, out) ∧
        (t.err = .malformedTree →
          decStep s.node s.root cur (s.arg.getLsbD (31 - t.errInfo.toNat)) = .malformed) ∧
        (t.err = .symFull → s.symq.length + out.length = s.cfg.depthSym ∧
          ∃ x c, decStep s.node s.root cur (s.arg.getLsbD (31 - t.errInfo.toNat)) = .emit x c))

/-- R205, R232: every command completes, whatever the state and the operands. -/
def Obligations.EveryCommandCompletes : Prop :=
  ∀ (i : Instr) (s : State), ∃ t, exec i s = .next t

/-! ## Who writes what -/

/-- R21, R24: no command but CLR writes ARG; and no command touches the parameters or the host agent (log entries 1, 2). -/
def Obligations.ArgWrittenOnlyByHostAndClr : Prop :=
  ∀ (i : Instr) (s t : State), exec i s = .next t →
    (i ≠ .clr → t.arg = s.arg) ∧ t.cfg = s.cfg ∧ t.pending = s.pending ∧ t.reads = s.reads

/-- R26, R89: the commands without results, and every command that ends in an error, leave RES0 and RES1. -/
def Obligations.ResultRegistersKept : Prop :=
  ∀ (i : Instr) (s t : State), exec i s = .next t →
    (t.err ≠ .ok ∨ i = .nop ∨ (∃ a, i = .freqWr a) ∨ (∃ a, i = .nodeWr a) ∨ i = .rootWr ∨ (∃ a k, i = .codeWr a k) ∨
      (∃ a, i = .codeLenWr a) ∨ i = .encReset ∨ i = .decEnd ∨ i = .decReset) →
    t.res0 = s.res0 ∧ t.res1 = s.res1

/-- R40 to R43: the only commands that write FREQ, NODE, CODE, ROOT, NLEAF and NCOUNT. -/
def Obligations.TablesWrittenOnlyByTheirCommands : Prop :=
  ∀ (i : Instr) (s t : State), exec i s = .next t → i ≠ .clr →
    ((∀ a, i ≠ .freqWr a) → t.freq = s.freq) ∧
    ((∀ a, i ≠ .nodeWr a) → i ≠ .build → t.node = s.node) ∧
    ((∀ a k, i ≠ .codeWr a k) → (∀ a, i ≠ .codeLenWr a) → i ≠ .build → t.code = s.code) ∧
    (i ≠ .rootWr → i ≠ .build → t.root = s.root) ∧
    (i ≠ .build → t.nleaf = s.nleaf ∧ t.ncount = s.ncount)

/-- R44, R45: the only commands that write PACK, FILL, ENC_TOTAL and OUTQ. -/
def Obligations.EncoderStateWrittenOnlyByEncoder : Prop :=
  ∀ (i : Instr) (s t : State), exec i s = .next t → i ≠ .clr → i ≠ .encReset → (∀ a, i ≠ .encSym a) →
    t.encTotal = s.encTotal ∧
    (i ≠ .encFlush → t.pack = s.pack ∧ t.fill = s.fill ∧ (i ≠ .outPop → t.outq = s.outq))

/-- R46, R47: the only commands that write DEC_CUR and SYMQ. -/
def Obligations.DecoderStateWrittenOnlyByItsCommands : Prop :=
  ∀ (i : Instr) (s t : State), exec i s = .next t → i ≠ .clr → i ≠ .decReset → (∀ a, i ≠ .decWord a) →
    (i ≠ .symPop → t.symq = s.symq) ∧
    (i ≠ .decEnd → i ≠ .build → i ≠ .rootWr → t.decCur = s.decCur)

/-! ## Control and table commands -/

/-- R100: NOP. -/
def Obligations.NopOnlyClearsError : Prop :=
  (∀ s : State, exec .nop s = .next { s with err := .ok, errInfo := 0 }) ∧
  encode .nop = 0x00000000#32 ∧ MisfitIsIllegal 0x00 .f0

/-- R110: FREQ_WR. -/
def Obligations.FreqWrStoresTheCount : Prop :=
  (∀ (a : Nat) (h : a < 128) (s : State),
      exec (.freqWr a) s = .next { s with freq := s.freq.set a s.arg h, err := .ok, errInfo := 0 }) ∧
  (∀ (a : Nat) (s : State), 128 ≤ a → exec (.freqWr a) s = failed .badOperand 0 s) ∧
  (∀ a : Nat, a ≤ 255 → encode (.freqWr a) = BitVec.ofNat 32 (a * 256 + 0x02)) ∧ MisfitIsIllegal 0x02 .fa

/-- R111: FREQ_RD. -/
def Obligations.FreqRdReadsTheCount : Prop :=
  (∀ (a : Nat) (h : a < 128) (s : State),
      exec (.freqRd a) s = .next { s with res0 := s.freq[a], res1 := 0, err := .ok, errInfo := 0 }) ∧
  (∀ (a : Nat) (s : State), 128 ≤ a → exec (.freqRd a) s = failed .badOperand 0 s) ∧
  (∀ a : Nat, a ≤ 255 → encode (.freqRd a) = BitVec.ofNat 32 (a * 256 + 0x03)) ∧ MisfitIsIllegal 0x03 .fa

/-- R120, R155, R175: the three commands that only report: TREE_INFO, ENC_INFO, DEC_INFO. -/
def Obligations.InfoCommandsReport : Prop :=
  (∀ s : State, ∃ r : Word,
      exec .treeInfo s = .next { s with res0 := r, res1 := 0, err := .ok, errInfo := 0 } ∧
      r.toNat = s.ncount.toNat * 65536 + s.nleaf.toNat * 256 + s.root.toNat) ∧
  (∀ s : State,
      exec .encInfo s = .next { s with res0 := s.encTotal, res1 := s.pack, err := .ok, errInfo := 0 }) ∧
  (∀ s : State, exec .decInfo s =
      .next { s with res0 := BitVec.ofNat 32 s.decCur.toNat, res1 := BitVec.ofNat 32 s.root.toNat,
                     err := .ok, errInfo := 0 }) ∧
  (encode .treeInfo = 0x00000005#32 ∧ encode .encInfo = 0x00000014#32 ∧ encode .decInfo = 0x00000024#32) ∧
  MisfitIsIllegal 0x05 .f0 ∧ MisfitIsIllegal 0x14 .f0 ∧ MisfitIsIllegal 0x24 .f0

/-- R121, R87: NODE_RD, with the fields of NODEHDR. -/
def Obligations.NodeRdReadsTheEntry : Prop :=
  (∀ (a : Nat) (h : a < 255) (s : State), ∃ r0 r1 : Word,
      exec (.nodeRd a) s = .next { s with res0 := r0, res1 := r1, err := .ok, errInfo := 0 } ∧
      r0 = s.node[a].weight.extractLsb' 0 32 ∧
      r1.getLsbD 31 = s.node[a].valid ∧ (r1.getLsbD 30 = true ↔ s.node[a].kind = .internal) ∧
      r1.extractLsb' 23 7 = 0 ∧ r1.extractLsb' 16 7 = s.node[a].weight.extractLsb' 32 7 ∧
      r1.extractLsb' 8 8 = s.node[a].b ∧ r1.extractLsb' 0 8 = s.node[a].a) ∧
  (∀ (a : Nat) (s : State), 255 ≤ a → exec (.nodeRd a) s = failed .badOperand 0 s) ∧
  (∀ a : Nat, a ≤ 255 → encode (.nodeRd a) = BitVec.ofNat 32 (a * 256 + 0x06)) ∧ MisfitIsIllegal 0x06 .fa

/-- R122, R87: NODE_WR; the weight becomes 0 and ARG[29:16] is ignored. -/
def Obligations.NodeWrStoresTheEntry : Prop :=
  (∀ (a : Nat) (h : a < 255) (s : State),
      exec (.nodeWr a) s = .next { s with
        node := s.node.set a
          { valid := s.arg.getLsbD 31, kind := if s.arg.getLsbD 30 then .internal else .leaf,
            a := s.arg.extractLsb' 0 8, b := s.arg.extractLsb' 8 8, weight := 0 } h,
        err := .ok, errInfo := 0 }) ∧
  (∀ (a : Nat) (s : State), 255 ≤ a → exec (.nodeWr a) s = failed .badOperand 0 s) ∧
  (∀ a : Nat, a ≤ 255 → encode (.nodeWr a) = BitVec.ofNat 32 (a * 256 + 0x07)) ∧ MisfitIsIllegal 0x07 .fa

/-- R123: ROOT_WR. -/
def Obligations.RootWrSetsRootAndCursor : Prop :=
  (∀ s : State, exec .rootWr s =
      .next { s with root := s.arg.extractLsb' 0 8, decCur := s.arg.extractLsb' 0 8, err := .ok, errInfo := 0 }) ∧
  encode .rootWr = 0x00000008#32 ∧ MisfitIsIllegal 0x08 .f0

/-- R124: CODE_RD; for k = 3, bit 31 of RES0 is the hardwired BITS[127] = 0. -/
def Obligations.CodeRdReadsTheWord : Prop :=
  (∀ (a k : Nat) (h : a < 128) (s : State), k ≤ 3 → ∃ r0 : Word,
      exec (.codeRd a k) s =
        .next { s with res0 := r0, res1 := BitVec.ofNat 32 s.code[a].len.toNat, err := .ok, errInfo := 0 } ∧
      (∀ j, j < 32 → 32 * k + j < 127 → r0.getLsbD j = s.code[a].bits.getLsbD (32 * k + j)) ∧
      (k = 3 → r0.getLsbD 31 = false)) ∧
  (∀ (a k : Nat) (s : State), 128 ≤ a → exec (.codeRd a k) s = failed .badOperand 0 s) ∧
  (∀ a k : Nat, a ≤ 255 → k ≤ 3 → encode (.codeRd a k) = BitVec.ofNat 32 (k * 65536 + a * 256 + 0x09)) ∧
  MisfitIsIllegal 0x09 .fak

/-- R125: CODE_WR; the other bits of BITS and LEN are kept, and ARG[31] is ignored for k = 3. -/
def Obligations.CodeWrStoresTheWord : Prop :=
  (∀ (a k : Nat) (h : a < 128) (s : State), k ≤ 3 → ∃ c : Code,
      exec (.codeWr a k) s = .next { s with code := s.code.set a c h, err := .ok, errInfo := 0 } ∧
      c.len = s.code[a].len ∧
      (∀ j, j < 127 → c.bits.getLsbD j =
        if 32 * k ≤ j ∧ j < 32 * k + 32 then s.arg.getLsbD (j - 32 * k) else s.code[a].bits.getLsbD j)) ∧
  (∀ (a k : Nat) (s : State), 128 ≤ a → exec (.codeWr a k) s = failed .badOperand 0 s) ∧
  (∀ a k : Nat, a ≤ 255 → k ≤ 3 → encode (.codeWr a k) = BitVec.ofNat 32 (k * 65536 + a * 256 + 0x0A)) ∧
  MisfitIsIllegal 0x0A .fak

/-- R126: CODE_LEN_WR. -/
def Obligations.CodeLenWrStoresTheLength : Prop :=
  (∀ (a : Nat) (h : a < 128) (s : State), (s.arg.extractLsb' 0 8).toNat ≤ 127 →
      exec (.codeLenWr a) s = .next { s with
        code := s.code.set a { len := s.arg.extractLsb' 0 8, bits := s.code[a].bits } h, err := .ok, errInfo := 0 }) ∧
  (∀ (a : Nat) (s : State), (128 ≤ a ∨ 128 ≤ (s.arg.extractLsb' 0 8).toNat) →
      exec (.codeLenWr a) s = failed .badOperand 0 s) ∧
  (∀ a : Nat, a ≤ 255 → encode (.codeLenWr a) = BitVec.ofNat 32 (a * 256 + 0x0B)) ∧ MisfitIsIllegal 0x0B .fa

/-! ## BUILD -/

/-- R113: with no positive count BUILD raises EMPTY_ALPHABET, and the previous tree and code table are kept. -/
def Obligations.BuildRaisesEmptyAlphabet : Prop :=
  (∀ s : State, (∀ x : SymIx, s.freq[x] = 0) → exec .build s = failed .emptyAlphabet 0 s) ∧
  (∀ s t : State, exec .build s = .next t → t.err = .emptyAlphabet → ∀ x : SymIx, s.freq[x] = 0)

/-- R112, R117: with L positive counts BUILD completes: ROOT = 2L - 2, NLEAF = L, NCOUNT = 2L - 1, the cursor at the root,
TREEINFO in RES0, 0 in RES1, and nothing else changed but the tree and the code table, which depend on FREQ alone
(R127 (e)). -/
def Obligations.BuildCompletes : Prop :=
  (∀ s : State, (∃ x, positive s.freq x) → ∃ t,
      exec .build s = .next t ∧
      t.root.toNat = 2 * leafCount s.freq - 2 ∧ t.nleaf.toNat = leafCount s.freq ∧
      t.ncount.toNat = 2 * leafCount s.freq - 1 ∧
      t.res0.toNat = t.ncount.toNat * 65536 + t.nleaf.toNat * 256 + t.root.toNat ∧
      t = { s with node := t.node, code := t.code, root := t.root, nleaf := t.nleaf, ncount := t.ncount,
                   decCur := t.root, res0 := t.res0, res1 := 0, err := .ok, errInfo := 0 }) ∧
  (∀ s s' t t' : State, s.freq = s'.freq → exec .build s = .next t → exec .build s' = .next t' → t.err = .ok →
      t'.err = .ok ∧ t'.node = t.node ∧ t'.code = t.code ∧ t'.root = t.root ∧ t'.nleaf = t.nleaf ∧
      t'.ncount = t.ncount ∧ t'.res0 = t.res0) ∧
  encode .build = 0x00000004#32 ∧ MisfitIsIllegal 0x04 .f0

/-- R114, R115: the leaves stand at indices 0 to L-1 in increasing symbol order with the counts as weights, entries from
NCOUNT on are empty, and a symbol with count 0 has no codeword. -/
def Obligations.BuildPlacesLeavesInOrder : Prop :=
  ∀ s t : State, exec .build s = .next t → t.err = .ok →
    (∀ (k : Nat) (x : SymIx), ((List.finRange 128).filter fun y => decide (s.freq[y] ≠ 0))[k]? = some x →
      nodeAt t.node k = { valid := true, kind := .leaf, a := BitVec.ofNat 8 x.val, b := 0,
                          weight := BitVec.ofNat 39 s.freq[x].toNat }) ∧
    (∀ (i : Fin 255), t.ncount.toNat ≤ i.val →
      t.node[i] = { valid := false, kind := .leaf, a := 0, b := 0, weight := 0 }) ∧
    (∀ x : SymIx, s.freq[x] = 0 → t.code[x] = { len := 0, bits := 0 })

/-- R116, R117: each entry from L on is internal; its left child has the least key of the collection at that moment and its
right child the least of the rest; its weight is their exact sum (no overflow of 39 bits, R33 (a)). -/
def Obligations.BuildMergesTwoLeastKeys : Prop :=
  ∀ s t : State, exec .build s = .next t → t.err = .ok →
    ∀ n, leafCount s.freq ≤ n → n < t.ncount.toNat →
      (nodeAt t.node n).valid = true ∧ (nodeAt t.node n).kind = .internal ∧
      (∃ x y, x = (nodeAt t.node n).a.toNat ∧ y = (nodeAt t.node n).b.toNat ∧ x ≠ y ∧
        inCollection t.node (leafCount s.freq) n x ∧ inCollection t.node (leafCount s.freq) n y ∧
        (∀ j, inCollection t.node (leafCount s.freq) n j → j ≠ x → keyBefore t.node x j) ∧
        (∀ j, inCollection t.node (leafCount s.freq) n j → j ≠ x → j ≠ y → keyBefore t.node y j) ∧
        (nodeAt t.node n).weight.toNat = (nodeAt t.node x).weight.toNat + (nodeAt t.node y).weight.toNat)

/-- R118: for two symbols or more, a symbol's code is the path from the root to its leaf, its first bit the first edge; it
is 1 to L - 1 bits long, at most 127, and BITS is 0 above it. -/
def Obligations.BuildCodesArePaths : Prop :=
  ∀ s t : State, exec .build s = .next t → t.err = .ok → 2 ≤ leafCount s.freq →
    ∀ x : SymIx, positive s.freq x →
      1 ≤ t.code[x].len.toNat ∧ t.code[x].len.toNat ≤ leafCount s.freq - 1 ∧ leafCount s.freq - 1 ≤ 127 ∧
      t.code[x].bits.toNat < 2 ^ t.code[x].len.toNat ∧
      ∃ n, followPath t.node t.root.toNat
          ((List.range t.code[x].len.toNat).map fun i => t.code[x].bits.getLsbD (t.code[x].len.toNat - 1 - i)) =
          some n ∧
        n.valid = true ∧ n.kind = .leaf ∧ n.a.toNat = x.val

/-- R119: a sole symbol: a one-node tree with ROOT = 0, no other entry, and the code "0". -/
def Obligations.BuildSingleSymbol : Prop :=
  ∀ (s : State) (x : SymIx), positive s.freq x → (∀ y, positive s.freq y → y = x) → ∃ t,
    exec .build s = .next t ∧ t.err = .ok ∧ t.root = 0 ∧ t.nleaf = 1 ∧ t.ncount = 1 ∧
    nodeAt t.node 0 = { valid := true, kind := .leaf, a := BitVec.ofNat 8 x.val, b := 0,
                        weight := BitVec.ofNat 39 s.freq[x].toNat } ∧
    (∀ i, i ≠ 0 → nodeAt t.node i = { valid := false, kind := .leaf, a := 0, b := 0, weight := 0 }) ∧
    t.code[x] = { len := 1, bits := 0 } ∧ t.res0 = 0x00010100#32

/-- R49, R127 (d): after a successful BUILD the entries below NCOUNT are VALID, an internal one has two different valid
children of lower index, and every entry but the root is the child of exactly one entry. -/
def Obligations.BuildTreeIsStrict : Prop :=
  ∀ s t : State, exec .build s = .next t → t.err = .ok →
    t.root.toNat + 1 = t.ncount.toNat ∧
    (∀ i, i < t.ncount.toNat → (nodeAt t.node i).valid = true ∧
      ((nodeAt t.node i).kind = .leaf ↔ i < t.nleaf.toNat) ∧
      ((nodeAt t.node i).kind = .internal →
        (nodeAt t.node i).a.toNat < i ∧ (nodeAt t.node i).b.toNat < i ∧
          (nodeAt t.node i).a ≠ (nodeAt t.node i).b)) ∧
    (∀ i, i < t.ncount.toNat → i ≠ t.root.toNat → ∃! p, p < t.ncount.toNat ∧ (nodeAt t.node p).kind = .internal ∧
      ((nodeAt t.node p).a.toNat = i ∨ (nodeAt t.node p).b.toNat = i))

/-- R127 (a): "no codeword is a prefix of another codeword". -/
def Obligations.BuildCodesArePrefixFree : Prop :=
  ∀ s t : State, exec .build s = .next t → t.err = .ok → prefixFree s.freq fun x => codeword t.code[x]

/-- R127 (b): no prefix-free code with non-empty codewords for the same frequencies costs less. -/
def Obligations.BuildCodesAreOptimal : Prop :=
  ∀ s t : State, exec .build s = .next t → t.err = .ok →
    ∀ other : SymIx → List Bool, (∀ x, positive s.freq x → other x ≠ []) → prefixFree s.freq other →
      codingCost s.freq (fun x => codeword t.code[x]) ≤ codingCost s.freq other

/-! ## Encoder -/

/-- R150, R151: a known symbol with room in OUTQ: its codeword, first bit first, is appended to the stream; full words are
pushed; FILL, ENC_TOTAL, RES0, RES1 are as the rule says; nothing else changes. -/
def Obligations.EncSymAppendsTheCodeword : Prop :=
  ∀ (a : Nat) (h : a < 128) (s : State), s.code[a].len ≠ 0 →
    s.outq.length + (s.fill.toNat + s.code[a].len.toNat) / 32 ≤ s.cfg.depthOut →
    ∃ (t : State) (pushed : List OutEntry),
      exec (.encSym a) s = .next t ∧
      t.outq = s.outq ++ pushed ∧ pushed.length = (s.fill.toNat + s.code[a].len.toNat) / 32 ∧
      (∀ e ∈ pushed, e.nbits = 32) ∧
      streamBits t = streamBits s ++
        ((List.range s.code[a].len.toNat).map fun i => s.code[a].bits.getLsbD (s.code[a].len.toNat - 1 - i)) ∧
      t.fill.toNat = (s.fill.toNat + s.code[a].len.toNat) % 32 ∧
      t.encTotal.toNat = (s.encTotal.toNat + s.code[a].len.toNat) % 2 ^ 32 ∧
      t.res0.toNat = s.code[a].len.toNat ∧ t.res1.toNat = (s.fill.toNat + s.code[a].len.toNat) / 32 ∧
      t = { s with pack := t.pack, fill := t.fill, outq := t.outq, encTotal := t.encTotal, res0 := t.res0,
                   res1 := t.res1, err := .ok, errInfo := 0 }

/-- R151, R202: ENC_SYM's errors, UNKNOWN_SYMBOL before OUT_FULL; its encoding. -/
def Obligations.EncSymErrors : Prop :=
  (∀ (a : Nat) (s : State), 128 ≤ a → exec (.encSym a) s = failed .unknownSymbol 0 s) ∧
  (∀ (a : Nat) (h : a < 128) (s : State), s.code[a].len = 0 → exec (.encSym a) s = failed .unknownSymbol 0 s) ∧
  (∀ (a : Nat) (h : a < 128) (s : State), s.code[a].len ≠ 0 →
      s.cfg.depthOut < s.outq.length + (s.fill.toNat + s.code[a].len.toNat) / 32 →
      exec (.encSym a) s = failed .outFull 0 s) ∧
  (∀ a : Nat, a ≤ 255 → encode (.encSym a) = BitVec.ofNat 32 (a * 256 + 0x10)) ∧ MisfitIsIllegal 0x10 .fa

/-- R152: ENC_FLUSH: with nothing waiting it only writes 0 to RES0 and RES1; with bits waiting and room it pushes them; with
OUTQ full it raises OUT_FULL. The stream it leaves is the stream it found. -/
def Obligations.EncFlushPushesThePartialWord : Prop :=
  (∀ s : State, s.fill = 0 → exec .encFlush s = .next { s with res0 := 0, res1 := 0, err := .ok, errInfo := 0 }) ∧
  (∀ s : State, s.fill ≠ 0 → s.outq.length ≠ s.cfg.depthOut →
      exec .encFlush s = .next { s with
        outq := s.outq ++ [{ data := s.pack, nbits := BitVec.ofNat 6 s.fill.toNat }],
        res0 := BitVec.ofNat 32 s.fill.toNat, res1 := 1, pack := 0, fill := 0, err := .ok, errInfo := 0 }) ∧
  (∀ s : State, s.fill ≠ 0 → s.outq.length = s.cfg.depthOut → exec .encFlush s = failed .outFull 0 s) ∧
  (∀ s t : State, exec .encFlush s = .next t → streamBits t = streamBits s) ∧
  encode .encFlush = 0x00000011#32 ∧ MisfitIsIllegal 0x11 .f0

/-- R153, R173: ENC_RESET and DEC_RESET start a new stream. -/
def Obligations.StreamResets : Prop :=
  (∀ s : State, exec .encReset s =
      .next { s with pack := 0, fill := 0, encTotal := 0, outq := [], err := .ok, errInfo := 0 }) ∧
  (∀ s : State, exec .decReset s = .next { s with decCur := s.root, symq := [], err := .ok, errInfo := 0 }) ∧
  (encode .encReset = 0x00000012#32 ∧ encode .decReset = 0x00000022#32) ∧
  MisfitIsIllegal 0x12 .f0 ∧ MisfitIsIllegal 0x22 .f0

/-- R154: OUT_POP. -/
def Obligations.OutPopRemovesTheOldestWord : Prop :=
  (∀ (s : State) (e : OutEntry) (rest : List OutEntry), s.outq = e :: rest →
      exec .outPop s = .next { s with outq := rest, res0 := e.data, res1 := BitVec.ofNat 32 e.nbits.toNat,
                                      err := .ok, errInfo := 0 }) ∧
  (∀ s : State, s.outq = [] → exec .outPop s = failed .fifoEmpty 0 s) ∧
  encode .outPop = 0x00000013#32 ∧ MisfitIsIllegal 0x13 .f0

/-- R157, over the runs of log entry 18 (the model's choice of what the host may interleave): however the host pops and
retries, the words it pops and the stream the block still holds are together the
stream before and the codewords of the symbols in order; so their bits number the sum of the lengths, and ENC_TOTAL counts
them modulo 2^32 (R151). -/
def Obligations.EncodedStreamIsTheCodewords : Prop :=
  ∀ (xs : List SymIx) (s t : State) (ws : List OutEntry), EncodeRun (xs.map fun x => .encSym x.val) s ws [] t →
    queueBits ws ++ streamBits t = streamBits s ++ xs.flatMap (fun x => codeword s.code[x]) ∧
    (queueBits ws ++ streamBits t).length = (streamBits s).length + (xs.map fun x => s.code[x].len.toNat).sum ∧
    t.encTotal.toNat = (s.encTotal.toNat + (xs.map fun x => s.code[x].len.toNat).sum) % 2 ^ 32 ∧
    t.code = s.code

/-- R6, R228: with the parameters in range, an ENC_SYM of any legal length into an empty OUTQ never raises OUT_FULL, nor
with at most DEPTH_OUT - 4 entries in it, and a DEC_WORD into an empty SYMQ never raises SYM_FULL. -/
def Obligations.EmptyQueuesNeverOverflow : Prop :=
  (∀ (a : Nat) (s t : State), s.cfg.wellFormed = true → s.LengthsLegal → s.outq.length ≤ s.cfg.depthOut - 4 →
      exec (.encSym a) s = .next t → t.err ≠ .outFull) ∧
  (∀ (a : Nat) (s t : State), s.cfg.wellFormed = true → s.symq = [] →
      exec (.decWord a) s = .next t → t.err ≠ .symFull)

/-! ## Decoder -/

/-- R170: DecStep, case by case. -/
def Obligations.DecStepCases : Prop :=
  ∀ (node : Vector Node 255) (root cur : Byte) (bit : Bool),
    (cur = 0xFF#8 → decStep node root cur bit = .malformed) ∧
    (∀ h : cur.toNat < 255,
      (node[cur.toNat].valid = false → decStep node root cur bit = .malformed) ∧
      (node[cur.toNat].valid = true → node[cur.toNat].kind = .leaf → cur = root → bit = false →
        decStep node root cur bit = .emit (node[cur.toNat].a.extractLsb' 0 7) root) ∧
      (node[cur.toNat].valid = true → node[cur.toNat].kind = .leaf → (cur ≠ root ∨ bit = true) →
        decStep node root cur bit = .malformed) ∧
      (node[cur.toNat].valid = true → node[cur.toNat].kind = .internal → ∀ c : Byte,
        c = (if bit then node[cur.toNat].b else node[cur.toNat].a) →
        (c = 0xFF#8 → decStep node root cur bit = .malformed) ∧
        (∀ hc : c.toNat < 255,
          (node[c.toNat].valid = false → decStep node root cur bit = .malformed) ∧
          (node[c.toNat].valid = true → node[c.toNat].kind = .leaf →
            decStep node root cur bit = .emit (node[c.toNat].a.extractLsb' 0 7) root) ∧
          (node[c.toNat].valid = true → node[c.toNat].kind = .internal → decStep node root cur bit = .move c))))

/-- R171: DEC_WORD over the bits ARG[31], ARG[30], ...: it completes where the walk does and the symbols fit; otherwise the
lowest failing bit decides between MALFORMED_TREE(i) and SYM_FULL(i), and the command is undone. -/
def Obligations.DecWordWalksTheBits : Prop :=
  (∀ (a : Nat) (s : State), (a < 1 ∨ 32 < a) → exec (.decWord a) s = failed .badOperand 0 s) ∧
  (∀ (a : Nat) (s : State) (cur : Byte) (out : List Symbol), 1 ≤ a → a ≤ 32 →
      walkBits s.node s.root s.decCur ((List.range a).map fun i => s.arg.getLsbD (31 - i)) = some (cur, out) →
      s.symq.length + out.length ≤ s.cfg.depthSym →
      exec (.decWord a) s = .next { s with decCur := cur, symq := s.symq ++ out, res0 := BitVec.ofNat 32 out.length,
                                           res1 := BitVec.ofNat 32 cur.toNat, err := .ok, errInfo := 0 }) ∧
  (∀ (a i : Nat) (s : State) (cur : Byte) (out : List Symbol), 1 ≤ a → a ≤ 32 → i < a →
      walkBits s.node s.root s.decCur ((List.range i).map fun j => s.arg.getLsbD (31 - j)) = some (cur, out) →
      s.symq.length + out.length ≤ s.cfg.depthSym →
      decStep s.node s.root cur (s.arg.getLsbD (31 - i)) = .malformed →
      exec (.decWord a) s = failed .malformedTree (BitVec.ofNat 5 i) s) ∧
  (∀ (a i : Nat) (s : State) (cur c : Byte) (out : List Symbol) (x : Symbol), 1 ≤ a → a ≤ 32 → i < a →
      walkBits s.node s.root s.decCur ((List.range i).map fun j => s.arg.getLsbD (31 - j)) = some (cur, out) →
      s.symq.length + out.length = s.cfg.depthSym →
      decStep s.node s.root cur (s.arg.getLsbD (31 - i)) = .emit x c →
      exec (.decWord a) s = failed .symFull (BitVec.ofNat 5 i) s) ∧
  (∀ a : Nat, a ≤ 255 → encode (.decWord a) = BitVec.ofNat 32 (a * 256 + 0x20)) ∧ MisfitIsIllegal 0x20 .fa

/-- R171: "A word may end inside a codeword": two DEC_WORDs one after the other, ARG written between them, walk the bits of
the first word and then those of the second, and queue the symbols of that one walk; they both end with OK exactly where
that walk goes through and its symbols fit. -/
def Obligations.WalkContinuesAcrossWords : Prop :=
  (∀ (a b : Nat) (v : Word) (s t u : State), exec (.decWord a) s = .next t → t.err = .ok →
      exec (.decWord b) { t with arg := v } = .next u → u.err = .ok →
      ∃ syms, walkBits s.node s.root s.decCur (argBits s.arg a ++ argBits v b) = some (u.decCur, syms) ∧
        u.symq = s.symq ++ syms) ∧
  (∀ (a b : Nat) (v : Word) (s : State) (cur : Byte) (syms : List Symbol), 1 ≤ a → a ≤ 32 → 1 ≤ b → b ≤ 32 →
      walkBits s.node s.root s.decCur (argBits s.arg a ++ argBits v b) = some (cur, syms) →
      s.symq.length + syms.length ≤ s.cfg.depthSym →
      ∃ t n, exec (.decWord a) s = .next t ∧ t.err = .ok ∧
        exec (.decWord b) { t with arg := v } =
          .next { s with arg := v, decCur := cur, symq := s.symq ++ syms, res0 := n, res1 := BitVec.ofNat 32 cur.toNat,
                         err := .ok, errInfo := 0 })

/-- R172, R204: DEC_END: OK on a codeword boundary; otherwise the cursor returns to the root, the write is kept and
TRUNCATED_STREAM is reported. -/
def Obligations.DecEndReportsTruncation : Prop :=
  (∀ s : State, s.decCur = s.root → exec .decEnd s = .next { s with err := .ok, errInfo := 0 }) ∧
  (∀ s : State, s.decCur ≠ s.root →
      exec .decEnd s = .next { s with decCur := s.root, err := .truncatedStream, errInfo := 0 }) ∧
  encode .decEnd = 0x00000021#32 ∧ MisfitIsIllegal 0x21 .f0

/-- R174: SYM_POP. -/
def Obligations.SymPopRemovesTheOldestSymbol : Prop :=
  (∀ (s : State) (x : Symbol) (rest : List Symbol), s.symq = x :: rest →
      exec .symPop s = .next { s with symq := rest, res0 := BitVec.ofNat 32 x.toNat,
                                      res1 := BitVec.ofNat 32 rest.length, err := .ok, errInfo := 0 }) ∧
  (∀ s : State, s.symq = [] → exec .symPop s = failed .fifoEmpty 0 s) ∧
  encode .symPop = 0x00000023#32 ∧ MisfitIsIllegal 0x23 .f0

/-! ## The codec's laws -/

/-- R177 (a), over the procedures of log entry 18 (the model's choice: relations in which the host pops and retries when it
likes). Where the tree and code table are those of one BUILD, the words an encode procedure reads (R156), given to a decode
procedure (R176), return exactly the symbols encoded, DEC_END ending with OK, whatever came between. Every step but a reset
and the commands R177 excludes keeps that tree and table, and so do both procedures. -/
def Obligations.EncodeThenDecodeRoundTrips : Prop :=
  (∀ (freq : Vector Word 128) (s t : State), CodecOf freq s → step s = .next t → (∀ rest, s.pending ≠ .reset :: rest) →
      (∀ w rest i, s.pending = .busWrite 0x0C 4 w :: rest → decode w = .ok i → replacesCodec i = false) →
      CodecOf freq t) ∧
  (∀ (freq : Vector Word 128) (s t : State), CodecOf freq s →
      ((∃ xs res, EncodeProcedure xs s res t) ∨ ∃ ws res, DecodeProcedure ws s res t) → CodecOf freq t) ∧
  (∀ (freq : Vector Word 128) (s t u v : State) (xs : List SymIx) (ws : List OutEntry) (res : DecodeOutcome),
      CodecOf freq s → EncodeProcedure (xs.map Fin.val) s (.stream ws) t → CodecOf freq u → DecodeProcedure ws u res v →
      res = .symbols (xs.map fun x => BitVec.ofNat 7 x.val))

/-- R156, R157, R176, R6, over the procedures of log entry 18 (the model's choice: relations in which the host pops and
retries when it likes). With the parameters in range and legal lengths both procedures can be carried out to an outcome, a
full FIFO blocks neither, and after a BUILD these are a stream and its symbols. The outcome is the one the rules give: an
encode procedure ends in UNKNOWN_SYMBOL exactly where some symbol has no codeword, its words depend on the code table and
the symbols alone; a decode procedure's outcome is that of the walk over the stream's bits from the root. -/
def Obligations.ProceduresEndInTheOneOutcome : Prop :=
  (∀ (s t : State) (xs : List SymIx), s.cfg.wellFormed = true → exec .build s = .next t → t.err = .ok →
      (∀ x ∈ xs, positive s.freq x) →
      ∃ ws u out v, EncodeProcedure (xs.map Fin.val) t (.stream ws) u ∧ DecodeProcedure ws u (.symbols out) v) ∧
  (∀ (xs : List Nat) (s : State), s.cfg.wellFormed = true → s.LengthsLegal → ∃ res t, EncodeProcedure xs s res t) ∧
  (∀ (xs : List Nat) (s t : State) (res : EncodeOutcome), EncodeProcedure xs s res t →
      (res = .unknownSymbol ↔ ∃ a ∈ xs, ∀ h : a < 128, s.code[a].len = 0)) ∧
  (∀ (xs : List Nat) (s s' t t' : State) (res res' : EncodeOutcome), s.code = s'.code →
      EncodeProcedure xs s res t → EncodeProcedure xs s' res' t' → res = res') ∧
  (∀ (ws : List OutEntry) (s : State), s.cfg.wellFormed = true → (∀ e ∈ ws, 1 ≤ e.nbits.toNat ∧ e.nbits.toNat ≤ 32) →
      ∃ res t, DecodeProcedure ws s res t) ∧
  (∀ (ws : List OutEntry) (s t : State) (res : DecodeOutcome), DecodeProcedure ws s res t →
      (walkBits s.node s.root s.root (queueBits ws) = none → res = .malformed) ∧
      (∀ cur out, walkBits s.node s.root s.root (queueBits ws) = some (cur, out) →
        res = if cur = s.root then .symbols out else .truncated out))

/-- R177 (b): where the tree and code table are those of one BUILD, the first bits of an encoding are walked to the root
exactly when they end between codewords; elsewhere DEC_END reports TRUNCATED_STREAM. So a decode procedure over them (R176,
log entry 18: the model's choice) gives the symbols before the boundary they end on, and is truncated anywhere else. -/
def Obligations.TruncationIsDetected : Prop :=
  ∀ (freq : Vector Word 128) (t : State) (xs : List SymIx) (bits rest : List Bool), CodecOf freq t →
    (∀ x ∈ xs, positive freq x) → bits ++ rest = xs.flatMap (fun x => codeword t.code[x]) →
    ∃ cur out, walkBits t.node t.root t.root bits = some (cur, out) ∧
      (cur = t.root ↔ ∃ k, k ≤ xs.length ∧ bits = (xs.take k).flatMap fun x => codeword t.code[x]) ∧
      (cur ≠ t.root → exec .decEnd { t with decCur := cur } =
        .next { t with decCur := t.root, err := .truncatedStream, errInfo := 0 }) ∧
      ∀ ws res v, queueBits ws = bits → DecodeProcedure ws t res v →
        (∀ k, k ≤ xs.length → bits = ((xs.take k).flatMap fun x => codeword t.code[x]) →
          res = .symbols ((xs.take k).map fun x => BitVec.ofNat 7 x.val)) ∧
        ((∀ k, k ≤ xs.length → bits ≠ (xs.take k).flatMap fun x => codeword t.code[x]) →
          ∃ k, k < xs.length ∧ ((xs.take k).flatMap fun x => codeword t.code[x]) <+: bits ∧
            bits <+: ((xs.take (k + 1)).flatMap fun x => codeword t.code[x]) ∧
            res = .truncated ((xs.take k).map fun x => BitVec.ofNat 7 x.val))

/-- R177 (c): a tree of BUILD is never malformed but for bit 1 at the root of a one-leaf tree; without a tree every bit is.
So a decode procedure (R176, log entry 18: the model's choice) ends in MALFORMED_TREE never with two leaves or more, with
one leaf exactly where its stream has a bit 1, and without a tree on every stream that has a bit. -/
def Obligations.MalformedOnlyAtALeafRootOrWithoutATree : Prop :=
  (∀ (freq : Vector Word 128) (t : State), CodecOf freq t → 2 ≤ leafCount freq →
      (∀ bits, walkBits t.node t.root t.root bits ≠ none) ∧
      ∀ ws res v, DecodeProcedure ws t res v → res ≠ .malformed) ∧
  (∀ (freq : Vector Word 128) (t : State), CodecOf freq t → leafCount freq = 1 →
      (∀ bits, walkBits t.node t.root t.root bits = none ↔ true ∈ bits) ∧
      ∀ ws res v, DecodeProcedure ws t res v → (res = .malformed ↔ true ∈ queueBits ws)) ∧
  (∀ (node : Vector Node 255) (root : Byte) (b : Bool) (bits : List Bool),
      walkBits node root 0xFF#8 (b :: bits) = none) ∧
  (∀ (ws : List OutEntry) (s v : State) (res : DecodeOutcome), s.root = 0xFF#8 → queueBits ws ≠ [] →
      DecodeProcedure ws s res v → res = .malformed)

/-! ## Invariants -/

/-- The invariant of Safety.lean holds after reset. -/
def Obligations.ResetMeetsTheInvariant : Prop := State.reset.Inv

/-- R44, R45, R47, R201: every step keeps the FIFOs within their depths, the padding of packed words 0 and ERR_INFO legal. -/
def Obligations.StepKeepsQueuesAndPadding : Prop :=
  ∀ s t : State, s.FifoBounds → s.PaddingZero → s.InfoLegal → step s = .next t →
    t.FifoBounds ∧ t.PaddingZero ∧ t.InfoLegal

/-- R42 to R45, R47, R201: every step keeps the whole invariant, the code lengths and tree counts of BUILD among it. -/
def Obligations.StepKeepsTheInvariant : Prop :=
  ∀ s t : State, s.Inv → step s = .next t → t.Inv

/-! ## Host notation and bridge -/

/-- R90, R91: the transactions a line of a host program assembles to, for each kind of line, a pseudo-instruction by its
expansion; a line with an operand that does not fit emits nothing, a pseudo-instruction neither of its transactions (log
entry 13, the model's choice). -/
def Obligations.HostLinesAssemble : Prop :=
  (∀ n off, (n, off) ∈ [(ReadName.id, 0x00), (.status, 0x04), (.arg, 0x08), (.res0, 0x10), (.res1, 0x14),
      (.param, 0x18)] → assembleLine (.basic (.rd n)) = [.busRead off 4]) ∧
  (∀ v, v < 2 ^ 32 → assembleLine (.basic (.arg v)) = [.busWrite 0x08 4 (BitVec.ofNat 32 v)]) ∧
  (∀ i : Instr, i.wellFormed = true → assembleLine (.basic (.command i)) = [.busWrite 0x0C 4 (encode i)]) ∧
  (∀ s c, s ≤ 255 → c < 2 ^ 32 → assembleLine (.setF s c) =
      [.busWrite 0x08 4 (BitVec.ofNat 32 c), .busWrite 0x0C 4 (BitVec.ofNat 32 (s * 256 + 0x02))]) ∧
  (∀ i v, i ≤ 255 → v < 2 ^ 32 → assembleLine (.ldNode i v) =
      [.busWrite 0x08 4 (BitVec.ofNat 32 v), .busWrite 0x0C 4 (BitVec.ofNat 32 (i * 256 + 0x07))]) ∧
  (∀ r, r < 2 ^ 32 → assembleLine (.ldRoot r) =
      [.busWrite 0x08 4 (BitVec.ofNat 32 r), .busWrite 0x0C 4 0x00000008#32]) ∧
  (∀ s k v, s ≤ 255 → k ≤ 3 → v < 2 ^ 32 → assembleLine (.ldBits s k v) =
      [.busWrite 0x08 4 (BitVec.ofNat 32 v), .busWrite 0x0C 4 (BitVec.ofNat 32 (k * 65536 + s * 256 + 0x0A))]) ∧
  (∀ s n, s ≤ 255 → n < 2 ^ 32 → assembleLine (.ldLen s n) =
      [.busWrite 0x08 4 (BitVec.ofNat 32 n), .busWrite 0x0C 4 (BitVec.ofNat 32 (s * 256 + 0x0B))]) ∧
  (∀ n v, n ≤ 255 → v < 2 ^ 32 → assembleLine (.dec n v) =
      [.busWrite 0x08 4 (BitVec.ofNat 32 v), .busWrite 0x0C 4 (BitVec.ofNat 32 (n * 256 + 0x20))]) ∧
  (∀ v, 2 ^ 32 ≤ v → assembleLine (.basic (.arg v)) = []) ∧
  (∀ i : Instr, i.wellFormed = false → assembleLine (.basic (.command i)) = []) ∧
  (∀ s c, 255 < s ∨ 2 ^ 32 ≤ c → assembleLine (.setF s c) = []) ∧
  (∀ i v, 255 < i ∨ 2 ^ 32 ≤ v → assembleLine (.ldNode i v) = []) ∧
  (∀ r, 2 ^ 32 ≤ r → assembleLine (.ldRoot r) = []) ∧
  (∀ s k v, 255 < s ∨ 3 < k ∨ 2 ^ 32 ≤ v → assembleLine (.ldBits s k v) = []) ∧
  (∀ s n, 255 < s ∨ 2 ^ 32 ≤ n → assembleLine (.ldLen s n) = []) ∧
  (∀ n v, 255 < n ∨ 2 ^ 32 ≤ v → assembleLine (.dec n v) = [])

/-- R64, R67: through a bridge, the host byte at HUF_BASE + offset + lane is bits 8*lane + 7 : 8*lane of the slot's word
(little-endian lanes), whatever HUF_BASE is. -/
def Obligations.BridgeLanesAreLittleEndian : Prop :=
  ∀ (x : Slot) (lane : Fin 4) (s : State),
    bridgeByte (Config.hufBase + slotOffset x + lane.val) s = some ((readSlot x s).extractLsb' (8 * lane.val) 8)
end

