-- ==== Sys2Proof/Laws/State.lean ====
section
/-! SUPPORT. One lemma per field per named update of State, so that no later proof unfolds a record update. -/

namespace Sys2Proof.Machine.State

@[simp] theorem withStatus_cfg (e : ErrCode) (i : BitVec 5) (s : State) : (s.withStatus e i).cfg = s.cfg := rfl
@[simp] theorem withStatus_arg (e : ErrCode) (i : BitVec 5) (s : State) : (s.withStatus e i).arg = s.arg := rfl
@[simp] theorem withStatus_res0 (e : ErrCode) (i : BitVec 5) (s : State) : (s.withStatus e i).res0 = s.res0 := rfl
@[simp] theorem withStatus_res1 (e : ErrCode) (i : BitVec 5) (s : State) : (s.withStatus e i).res1 = s.res1 := rfl
@[simp] theorem withStatus_err (e : ErrCode) (i : BitVec 5) (s : State) : (s.withStatus e i).err = e := rfl
@[simp] theorem withStatus_errInfo (e : ErrCode) (i : BitVec 5) (s : State) : (s.withStatus e i).errInfo = i := rfl
@[simp] theorem withStatus_freq (e : ErrCode) (i : BitVec 5) (s : State) : (s.withStatus e i).freq = s.freq := rfl
@[simp] theorem withStatus_node (e : ErrCode) (i : BitVec 5) (s : State) : (s.withStatus e i).node = s.node := rfl
@[simp] theorem withStatus_root (e : ErrCode) (i : BitVec 5) (s : State) : (s.withStatus e i).root = s.root := rfl
@[simp] theorem withStatus_nleaf (e : ErrCode) (i : BitVec 5) (s : State) : (s.withStatus e i).nleaf = s.nleaf := rfl
@[simp] theorem withStatus_ncount (e : ErrCode) (i : BitVec 5) (s : State) : (s.withStatus e i).ncount = s.ncount := rfl
@[simp] theorem withStatus_code (e : ErrCode) (i : BitVec 5) (s : State) : (s.withStatus e i).code = s.code := rfl
@[simp] theorem withStatus_pack (e : ErrCode) (i : BitVec 5) (s : State) : (s.withStatus e i).pack = s.pack := rfl
@[simp] theorem withStatus_fill (e : ErrCode) (i : BitVec 5) (s : State) : (s.withStatus e i).fill = s.fill := rfl
@[simp] theorem withStatus_encTotal (e : ErrCode) (i : BitVec 5) (s : State) : (s.withStatus e i).encTotal = s.encTotal := rfl
@[simp] theorem withStatus_outq (e : ErrCode) (i : BitVec 5) (s : State) : (s.withStatus e i).outq = s.outq := rfl
@[simp] theorem withStatus_decCur (e : ErrCode) (i : BitVec 5) (s : State) : (s.withStatus e i).decCur = s.decCur := rfl
@[simp] theorem withStatus_symq (e : ErrCode) (i : BitVec 5) (s : State) : (s.withStatus e i).symq = s.symq := rfl
@[simp] theorem withStatus_pending (e : ErrCode) (i : BitVec 5) (s : State) : (s.withStatus e i).pending = s.pending := rfl
@[simp] theorem withStatus_reads (e : ErrCode) (i : BitVec 5) (s : State) : (s.withStatus e i).reads = s.reads := rfl

@[simp] theorem withResults_cfg (r0 r1 : Word) (s : State) : (s.withResults r0 r1).cfg = s.cfg := rfl
@[simp] theorem withResults_arg (r0 r1 : Word) (s : State) : (s.withResults r0 r1).arg = s.arg := rfl
@[simp] theorem withResults_res0 (r0 r1 : Word) (s : State) : (s.withResults r0 r1).res0 = r0 := rfl
@[simp] theorem withResults_res1 (r0 r1 : Word) (s : State) : (s.withResults r0 r1).res1 = r1 := rfl
@[simp] theorem withResults_err (r0 r1 : Word) (s : State) : (s.withResults r0 r1).err = s.err := rfl
@[simp] theorem withResults_errInfo (r0 r1 : Word) (s : State) : (s.withResults r0 r1).errInfo = s.errInfo := rfl
@[simp] theorem withResults_freq (r0 r1 : Word) (s : State) : (s.withResults r0 r1).freq = s.freq := rfl
@[simp] theorem withResults_node (r0 r1 : Word) (s : State) : (s.withResults r0 r1).node = s.node := rfl
@[simp] theorem withResults_root (r0 r1 : Word) (s : State) : (s.withResults r0 r1).root = s.root := rfl
@[simp] theorem withResults_nleaf (r0 r1 : Word) (s : State) : (s.withResults r0 r1).nleaf = s.nleaf := rfl
@[simp] theorem withResults_ncount (r0 r1 : Word) (s : State) : (s.withResults r0 r1).ncount = s.ncount := rfl
@[simp] theorem withResults_code (r0 r1 : Word) (s : State) : (s.withResults r0 r1).code = s.code := rfl
@[simp] theorem withResults_pack (r0 r1 : Word) (s : State) : (s.withResults r0 r1).pack = s.pack := rfl
@[simp] theorem withResults_fill (r0 r1 : Word) (s : State) : (s.withResults r0 r1).fill = s.fill := rfl
@[simp] theorem withResults_encTotal (r0 r1 : Word) (s : State) : (s.withResults r0 r1).encTotal = s.encTotal := rfl
@[simp] theorem withResults_outq (r0 r1 : Word) (s : State) : (s.withResults r0 r1).outq = s.outq := rfl
@[simp] theorem withResults_decCur (r0 r1 : Word) (s : State) : (s.withResults r0 r1).decCur = s.decCur := rfl
@[simp] theorem withResults_symq (r0 r1 : Word) (s : State) : (s.withResults r0 r1).symq = s.symq := rfl
@[simp] theorem withResults_pending (r0 r1 : Word) (s : State) : (s.withResults r0 r1).pending = s.pending := rfl
@[simp] theorem withResults_reads (r0 r1 : Word) (s : State) : (s.withResults r0 r1).reads = s.reads := rfl

@[simp] theorem cleared_cfg (s : State) : s.cleared.cfg = s.cfg := rfl
@[simp] theorem cleared_arg (s : State) : s.cleared.arg = reset.arg := rfl
@[simp] theorem cleared_res0 (s : State) : s.cleared.res0 = reset.res0 := rfl
@[simp] theorem cleared_res1 (s : State) : s.cleared.res1 = reset.res1 := rfl
@[simp] theorem cleared_err (s : State) : s.cleared.err = reset.err := rfl
@[simp] theorem cleared_errInfo (s : State) : s.cleared.errInfo = reset.errInfo := rfl
@[simp] theorem cleared_freq (s : State) : s.cleared.freq = reset.freq := rfl
@[simp] theorem cleared_node (s : State) : s.cleared.node = reset.node := rfl
@[simp] theorem cleared_root (s : State) : s.cleared.root = reset.root := rfl
@[simp] theorem cleared_nleaf (s : State) : s.cleared.nleaf = reset.nleaf := rfl
@[simp] theorem cleared_ncount (s : State) : s.cleared.ncount = reset.ncount := rfl
@[simp] theorem cleared_code (s : State) : s.cleared.code = reset.code := rfl
@[simp] theorem cleared_pack (s : State) : s.cleared.pack = reset.pack := rfl
@[simp] theorem cleared_fill (s : State) : s.cleared.fill = reset.fill := rfl
@[simp] theorem cleared_encTotal (s : State) : s.cleared.encTotal = reset.encTotal := rfl
@[simp] theorem cleared_outq (s : State) : s.cleared.outq = reset.outq := rfl
@[simp] theorem cleared_decCur (s : State) : s.cleared.decCur = reset.decCur := rfl
@[simp] theorem cleared_symq (s : State) : s.cleared.symq = reset.symq := rfl
@[simp] theorem cleared_pending (s : State) : s.cleared.pending = s.pending := rfl
@[simp] theorem cleared_reads (s : State) : s.cleared.reads = s.reads := rfl

@[simp] theorem writeFreq_cfg (x : SymIx) (v : Word) (s : State) : (s.writeFreq x v).cfg = s.cfg := rfl
@[simp] theorem writeFreq_arg (x : SymIx) (v : Word) (s : State) : (s.writeFreq x v).arg = s.arg := rfl
@[simp] theorem writeFreq_res0 (x : SymIx) (v : Word) (s : State) : (s.writeFreq x v).res0 = s.res0 := rfl
@[simp] theorem writeFreq_res1 (x : SymIx) (v : Word) (s : State) : (s.writeFreq x v).res1 = s.res1 := rfl
@[simp] theorem writeFreq_err (x : SymIx) (v : Word) (s : State) : (s.writeFreq x v).err = s.err := rfl
@[simp] theorem writeFreq_errInfo (x : SymIx) (v : Word) (s : State) : (s.writeFreq x v).errInfo = s.errInfo := rfl
@[simp] theorem writeFreq_freq (x : SymIx) (v : Word) (s : State) : (s.writeFreq x v).freq = s.freq.set x v := rfl
@[simp] theorem writeFreq_node (x : SymIx) (v : Word) (s : State) : (s.writeFreq x v).node = s.node := rfl
@[simp] theorem writeFreq_root (x : SymIx) (v : Word) (s : State) : (s.writeFreq x v).root = s.root := rfl
@[simp] theorem writeFreq_nleaf (x : SymIx) (v : Word) (s : State) : (s.writeFreq x v).nleaf = s.nleaf := rfl
@[simp] theorem writeFreq_ncount (x : SymIx) (v : Word) (s : State) : (s.writeFreq x v).ncount = s.ncount := rfl
@[simp] theorem writeFreq_code (x : SymIx) (v : Word) (s : State) : (s.writeFreq x v).code = s.code := rfl
@[simp] theorem writeFreq_pack (x : SymIx) (v : Word) (s : State) : (s.writeFreq x v).pack = s.pack := rfl
@[simp] theorem writeFreq_fill (x : SymIx) (v : Word) (s : State) : (s.writeFreq x v).fill = s.fill := rfl
@[simp] theorem writeFreq_encTotal (x : SymIx) (v : Word) (s : State) : (s.writeFreq x v).encTotal = s.encTotal := rfl
@[simp] theorem writeFreq_outq (x : SymIx) (v : Word) (s : State) : (s.writeFreq x v).outq = s.outq := rfl
@[simp] theorem writeFreq_decCur (x : SymIx) (v : Word) (s : State) : (s.writeFreq x v).decCur = s.decCur := rfl
@[simp] theorem writeFreq_symq (x : SymIx) (v : Word) (s : State) : (s.writeFreq x v).symq = s.symq := rfl
@[simp] theorem writeFreq_pending (x : SymIx) (v : Word) (s : State) : (s.writeFreq x v).pending = s.pending := rfl
@[simp] theorem writeFreq_reads (x : SymIx) (v : Word) (s : State) : (s.writeFreq x v).reads = s.reads := rfl

@[simp] theorem writeNode_cfg (i : Fin 255) (n : Node) (s : State) : (s.writeNode i n).cfg = s.cfg := rfl
@[simp] theorem writeNode_arg (i : Fin 255) (n : Node) (s : State) : (s.writeNode i n).arg = s.arg := rfl
@[simp] theorem writeNode_res0 (i : Fin 255) (n : Node) (s : State) : (s.writeNode i n).res0 = s.res0 := rfl
@[simp] theorem writeNode_res1 (i : Fin 255) (n : Node) (s : State) : (s.writeNode i n).res1 = s.res1 := rfl
@[simp] theorem writeNode_err (i : Fin 255) (n : Node) (s : State) : (s.writeNode i n).err = s.err := rfl
@[simp] theorem writeNode_errInfo (i : Fin 255) (n : Node) (s : State) : (s.writeNode i n).errInfo = s.errInfo := rfl
@[simp] theorem writeNode_freq (i : Fin 255) (n : Node) (s : State) : (s.writeNode i n).freq = s.freq := rfl
@[simp] theorem writeNode_node (i : Fin 255) (n : Node) (s : State) : (s.writeNode i n).node = s.node.set i n := rfl
@[simp] theorem writeNode_root (i : Fin 255) (n : Node) (s : State) : (s.writeNode i n).root = s.root := rfl
@[simp] theorem writeNode_nleaf (i : Fin 255) (n : Node) (s : State) : (s.writeNode i n).nleaf = s.nleaf := rfl
@[simp] theorem writeNode_ncount (i : Fin 255) (n : Node) (s : State) : (s.writeNode i n).ncount = s.ncount := rfl
@[simp] theorem writeNode_code (i : Fin 255) (n : Node) (s : State) : (s.writeNode i n).code = s.code := rfl
@[simp] theorem writeNode_pack (i : Fin 255) (n : Node) (s : State) : (s.writeNode i n).pack = s.pack := rfl
@[simp] theorem writeNode_fill (i : Fin 255) (n : Node) (s : State) : (s.writeNode i n).fill = s.fill := rfl
@[simp] theorem writeNode_encTotal (i : Fin 255) (n : Node) (s : State) : (s.writeNode i n).encTotal = s.encTotal := rfl
@[simp] theorem writeNode_outq (i : Fin 255) (n : Node) (s : State) : (s.writeNode i n).outq = s.outq := rfl
@[simp] theorem writeNode_decCur (i : Fin 255) (n : Node) (s : State) : (s.writeNode i n).decCur = s.decCur := rfl
@[simp] theorem writeNode_symq (i : Fin 255) (n : Node) (s : State) : (s.writeNode i n).symq = s.symq := rfl
@[simp] theorem writeNode_pending (i : Fin 255) (n : Node) (s : State) : (s.writeNode i n).pending = s.pending := rfl
@[simp] theorem writeNode_reads (i : Fin 255) (n : Node) (s : State) : (s.writeNode i n).reads = s.reads := rfl

@[simp] theorem writeCode_cfg (x : SymIx) (c : Code) (s : State) : (s.writeCode x c).cfg = s.cfg := rfl
@[simp] theorem writeCode_arg (x : SymIx) (c : Code) (s : State) : (s.writeCode x c).arg = s.arg := rfl
@[simp] theorem writeCode_res0 (x : SymIx) (c : Code) (s : State) : (s.writeCode x c).res0 = s.res0 := rfl
@[simp] theorem writeCode_res1 (x : SymIx) (c : Code) (s : State) : (s.writeCode x c).res1 = s.res1 := rfl
@[simp] theorem writeCode_err (x : SymIx) (c : Code) (s : State) : (s.writeCode x c).err = s.err := rfl
@[simp] theorem writeCode_errInfo (x : SymIx) (c : Code) (s : State) : (s.writeCode x c).errInfo = s.errInfo := rfl
@[simp] theorem writeCode_freq (x : SymIx) (c : Code) (s : State) : (s.writeCode x c).freq = s.freq := rfl
@[simp] theorem writeCode_node (x : SymIx) (c : Code) (s : State) : (s.writeCode x c).node = s.node := rfl
@[simp] theorem writeCode_root (x : SymIx) (c : Code) (s : State) : (s.writeCode x c).root = s.root := rfl
@[simp] theorem writeCode_nleaf (x : SymIx) (c : Code) (s : State) : (s.writeCode x c).nleaf = s.nleaf := rfl
@[simp] theorem writeCode_ncount (x : SymIx) (c : Code) (s : State) : (s.writeCode x c).ncount = s.ncount := rfl
@[simp] theorem writeCode_code (x : SymIx) (c : Code) (s : State) : (s.writeCode x c).code = s.code.set x c := rfl
@[simp] theorem writeCode_pack (x : SymIx) (c : Code) (s : State) : (s.writeCode x c).pack = s.pack := rfl
@[simp] theorem writeCode_fill (x : SymIx) (c : Code) (s : State) : (s.writeCode x c).fill = s.fill := rfl
@[simp] theorem writeCode_encTotal (x : SymIx) (c : Code) (s : State) : (s.writeCode x c).encTotal = s.encTotal := rfl
@[simp] theorem writeCode_outq (x : SymIx) (c : Code) (s : State) : (s.writeCode x c).outq = s.outq := rfl
@[simp] theorem writeCode_decCur (x : SymIx) (c : Code) (s : State) : (s.writeCode x c).decCur = s.decCur := rfl
@[simp] theorem writeCode_symq (x : SymIx) (c : Code) (s : State) : (s.writeCode x c).symq = s.symq := rfl
@[simp] theorem writeCode_pending (x : SymIx) (c : Code) (s : State) : (s.writeCode x c).pending = s.pending := rfl
@[simp] theorem writeCode_reads (x : SymIx) (c : Code) (s : State) : (s.writeCode x c).reads = s.reads := rfl

/-! The rows read back what was written, and every other row is as before. -/

@[simp] theorem readFreq_writeFreq (x y : SymIx) (v : Word) (s : State) :
    (s.writeFreq x v).readFreq y = if x = y then v else s.readFreq y := by
  simp [readFreq, writeFreq, Vector.getElem_set, Fin.ext_iff]

@[simp] theorem readNode_writeNode (i j : Fin 255) (n : Node) (s : State) :
    (s.writeNode i n).readNode j = if i = j then n else s.readNode j := by
  simp [readNode, writeNode, Vector.getElem_set, Fin.ext_iff]

@[simp] theorem readCode_writeCode (x y : SymIx) (c : Code) (s : State) :
    (s.writeCode x c).readCode y = if x = y then c else s.readCode y := by
  simp [readCode, writeCode, Vector.getElem_set, Fin.ext_iff]

end Sys2Proof.Machine.State
end

