-- ==== Sys2Proof/Laws/Decoder.lean ====
section
/-! SUPPORT. The bits of one DEC_WORD (spec/43_decoder.md R171) in terms of the walk that knows no queue (R170). -/

namespace Sys2Proof.Machine

/-- Where the walk succeeds and its symbols fit, the loop ends with them queued. -/
theorem decBits_ok_of_walk {node : Vector Node 255} {root : Byte} {depth : Nat} (bits : List Bool) :
    ∀ (i m : Nat) (cur c : Byte) (q out : List Symbol), walkBits node root cur bits = some (c, out) →
      q.length + out.length ≤ depth →
      decBits node root depth bits i cur q m = .ok c (q ++ out) (m + out.length) := by
  induction bits with
  | nil =>
    intro i m cur c q out h _
    simp only [walkBits, Option.some.injEq, Prod.mk.injEq] at h
    obtain ⟨rfl, rfl⟩ := h
    simp [decBits]
  | cons b rest ih =>
    intro i m cur c q out h hlen
    simp only [walkBits] at h
    simp only [decBits]
    cases e : decStep node root cur b with
    | malformed => simp only [e] at h; cases h
    | move c' => simp only [e] at h ⊢; exact ih _ _ _ _ _ _ h hlen
    | emit x c' =>
      simp only [e] at h ⊢
      rw [Option.map_eq_some_iff] at h
      obtain ⟨⟨c'', out'⟩, hw, hr⟩ := h
      simp only [Prod.mk.injEq] at hr
      obtain ⟨rfl, rfl⟩ := hr
      rw [List.length_cons] at hlen
      have hq : q.length ≠ depth := by omega
      simp only [hq, if_false]
      rw [ih (i + 1) (m + 1) c' c'' (q ++ [x]) out' hw (by rw [List.length_append]; simp; omega)]
      simp only [List.append_assoc, List.singleton_append, List.length_cons]
      rw [Nat.add_right_comm, Nat.add_assoc]

/-- The loop passes over the bits of a walk that succeeds, then goes on from there. -/
theorem decBits_append_of_walk {node : Vector Node 255} {root : Byte} {depth : Nat} (bits rest : List Bool) :
    ∀ (i m : Nat) (cur c : Byte) (q out : List Symbol), walkBits node root cur bits = some (c, out) →
      q.length + out.length ≤ depth →
      decBits node root depth (bits ++ rest) i cur q m =
        decBits node root depth rest (i + bits.length) c (q ++ out) (m + out.length) := by
  induction bits with
  | nil =>
    intro i m cur c q out h _
    simp only [walkBits, Option.some.injEq, Prod.mk.injEq] at h
    obtain ⟨rfl, rfl⟩ := h
    simp
  | cons b bits ih =>
    intro i m cur c q out h hlen
    simp only [walkBits] at h
    simp only [List.cons_append, decBits]
    cases e : decStep node root cur b with
    | malformed => simp only [e] at h; cases h
    | move c' =>
      simp only [e] at h ⊢
      rw [List.length_cons, Nat.add_comm bits.length, ← Nat.add_assoc]
      exact ih _ _ _ _ _ _ h hlen
    | emit x c' =>
      simp only [e] at h ⊢
      rw [Option.map_eq_some_iff] at h
      obtain ⟨⟨c'', out'⟩, hw, hr⟩ := h
      simp only [Prod.mk.injEq] at hr
      obtain ⟨rfl, rfl⟩ := hr
      rw [List.length_cons] at hlen
      have hq : q.length ≠ depth := by omega
      simp only [hq, if_false]
      rw [ih (i + 1) (m + 1) c' c'' (q ++ [x]) out' hw (by rw [List.length_append]; simp; omega)]
      simp only [List.append_assoc, List.singleton_append, List.length_cons]
      congr 1 <;> omega

/-- A walk over two strings is the walk over the first and then, from the cursor that leaves, over the second. -/
theorem walkBits_append (node : Vector Node 255) (root : Byte) (xs ys : List Bool) (cur : Byte) :
    walkBits node root cur (xs ++ ys) =
      (walkBits node root cur xs).bind fun r => (walkBits node root r.1 ys).map fun q => (q.1, r.2 ++ q.2) := by
  induction xs generalizing cur with
  | nil => simp [walkBits]
  | cons b xs ih =>
    simp only [List.cons_append, walkBits]
    cases decStep node root cur b with
    | malformed => rfl
    | move c => exact ih c
    | emit x c =>
      simp only [ih c]
      cases walkBits node root c xs with
      | none => rfl
      | some r => simp [Option.map_map, Function.comp_def]

/-- Where the loop ends with OK, the walk goes through, and its symbols are those queued. -/
theorem walkBits_of_decBits {node : Vector Node 255} {root : Byte} {depth : Nat} (bits : List Bool) :
    ∀ (i m : Nat) (cur c : Byte) (q q' : List Symbol) (m' : Nat),
      decBits node root depth bits i cur q m = .ok c q' m' →
      ∃ out, walkBits node root cur bits = some (c, out) ∧ q' = q ++ out := by
  induction bits with
  | nil =>
    intro i m cur c q q' m' h
    simp only [decBits, WalkEnd.ok.injEq] at h
    exact ⟨[], by rw [walkBits, h.1], by simp [h.2.1]⟩
  | cons b bits ih =>
    intro i m cur c q q' m' h
    simp only [decBits] at h
    simp only [walkBits]
    cases e : decStep node root cur b with
    | malformed => simp only [e] at h; cases h
    | move c' => simp only [e] at h ⊢; exact ih _ _ _ _ _ _ _ h
    | emit x c' =>
      simp only [e] at h ⊢
      split at h
      · cases h
      · obtain ⟨out, ho, hq⟩ := ih _ _ _ _ _ _ _ h
        exact ⟨x :: out, by simp [ho], by simp [hq]⟩

/-- Where the loop stops, the walk reaches the failing bit and stops there: Malformed, or a symbol for a full SYMQ. -/
theorem walkBits_of_decBits_stop {node : Vector Node 255} {root : Byte} {depth : Nat} (bits : List Bool) :
    ∀ (i m j : Nat) (cur : Byte) (q : List Symbol),
      (decBits node root depth bits i cur q m = .malformed (i + j) →
        ∃ c out b, walkBits node root cur (bits.take j) = some (c, out) ∧ bits[j]? = some b ∧
          decStep node root c b = .malformed) ∧
      (decBits node root depth bits i cur q m = .full (i + j) →
        ∃ c out b x c', walkBits node root cur (bits.take j) = some (c, out) ∧ bits[j]? = some b ∧
          q.length + out.length = depth ∧ decStep node root c b = .emit x c') := by
  have le : ∀ (bits : List Bool) (i m : Nat) (cur : Byte) (q : List Symbol) (k : Nat),
      (decBits node root depth bits i cur q m = .malformed k → i ≤ k) ∧
      (decBits node root depth bits i cur q m = .full k → i ≤ k) := by
    intro bits
    induction bits with
    | nil => intro i m cur q k; simp [decBits]
    | cons b bits ih =>
      intro i m cur q k
      simp only [decBits]
      cases decStep node root cur b with
      | malformed => simp only [WalkEnd.malformed.injEq, reduceCtorEq, false_implies, and_true]; omega
      | move c =>
        obtain ⟨h1, h2⟩ := ih (i + 1) m c q k
        exact ⟨fun h => Nat.le_of_succ_le (h1 h), fun h => Nat.le_of_succ_le (h2 h)⟩
      | emit x c =>
        dsimp only
        split
        · simp only [WalkEnd.full.injEq, reduceCtorEq, false_implies, true_and]; omega
        · obtain ⟨h1, h2⟩ := ih (i + 1) (m + 1) c (q ++ [x]) k
          exact ⟨fun h => Nat.le_of_succ_le (h1 h), fun h => Nat.le_of_succ_le (h2 h)⟩
  induction bits with
  | nil => intro i m j cur q; simp [decBits]
  | cons b bits ih =>
    intro i m j cur q
    simp only [decBits]
    cases e : decStep node root cur b with
    | malformed =>
      simp only [WalkEnd.malformed.injEq, reduceCtorEq, false_implies, and_true]
      intro h
      obtain rfl : j = 0 := by omega
      exact ⟨cur, [], b, rfl, rfl, e⟩
    | move c =>
      simp only
      cases j with
      | zero =>
        have := le bits (i + 1) m c q (i + 0)
        exact ⟨fun h => absurd (this.1 h) (by omega), fun h => absurd (this.2 h) (by omega)⟩
      | succ j =>
        rw [← Nat.add_assoc, Nat.add_right_comm]
        simpa [walkBits, e] using ih (i + 1) m j c q
    | emit x c =>
      simp only
      split
      · next hq =>
        simp only [WalkEnd.full.injEq, reduceCtorEq, false_implies, true_and]
        intro h
        obtain rfl : j = 0 := by omega
        exact ⟨cur, [], b, x, c, rfl, rfl, hq, e⟩
      · cases j with
        | zero =>
          have := le bits (i + 1) (m + 1) c (q ++ [x]) (i + 0)
          exact ⟨fun h => absurd (this.1 h) (by omega), fun h => absurd (this.2 h) (by omega)⟩
        | succ j =>
          rw [← Nat.add_assoc, Nat.add_right_comm]
          obtain ⟨h1, h2⟩ := ih (i + 1) (m + 1) j c (q ++ [x])
          refine ⟨fun h => ?_, fun h => ?_⟩
          · obtain ⟨c', out, b', hw, hb, hd⟩ := h1 h
            exact ⟨c', x :: out, b', by simp [walkBits, e, hw], hb, hd⟩
          · obtain ⟨c', out, b', y, c'', hw, hb, hl, hd⟩ := h2 h
            refine ⟨c', x :: out, b', y, c'', by simp [walkBits, e, hw], hb, ?_, hd⟩
            rw [List.length_append] at hl; simp only [List.length_cons, List.length_nil] at hl ⊢; omega

/-- The loop never queues beyond the depth, counts what it queues, and names a failing bit inside the word. -/
theorem decBits_bounds {node : Vector Node 255} {root : Byte} {depth : Nat} (bits : List Bool) :
    ∀ (i m : Nat) (cur : Byte) (q : List Symbol), q.length ≤ depth →
      match decBits node root depth bits i cur q m with
      | .ok _ q' m' => q'.length ≤ depth ∧ ∃ out, q' = q ++ out ∧ m' = m + out.length ∧ out.length ≤ bits.length
      | .malformed j => i ≤ j ∧ j < i + bits.length
      | .full j => i ≤ j ∧ j < i + bits.length ∧ depth ≤ q.length + (j - i) := by
  induction bits with
  | nil => intro i m cur q hq; exact ⟨hq, [], by simp, by simp, by simp⟩
  | cons b rest ih =>
    intro i m cur q hq
    simp only [decBits]
    cases decStep node root cur b with
    | malformed => simp
    | move c =>
      have := ih (i + 1) m c q hq
      revert this
      simp only
      split
      · rintro ⟨h1, out, h2, h3, h4⟩; exact ⟨h1, out, h2, h3, by rw [List.length_cons]; omega⟩
      · rintro ⟨h1, h2⟩; rw [List.length_cons]; omega
      · rintro ⟨h1, h2, h3⟩; rw [List.length_cons]; omega
    | emit x c =>
      simp only
      by_cases hf : q.length = depth
      · simp [hf]
      · simp only [hf, if_false]
        have hl : (q ++ [x]).length = q.length + 1 := by simp
        have := ih (i + 1) (m + 1) c (q ++ [x]) (by omega)
        revert this
        split
        · rintro ⟨h1, out, rfl, h3, h4⟩
          refine ⟨h1, x :: out, by simp, ?_, ?_⟩ <;> simp only [List.length_cons] <;> omega
        · rintro ⟨h1, h2⟩; rw [List.length_cons]; omega
        · rintro ⟨h1, h2, h3⟩; rw [List.length_cons]; omega

@[simp] theorem length_argBits (arg : Word) (n : Nat) : (argBits arg n).length = n := by simp [argBits]

/-- The first `i` bits of a word, then bit `i`, then the rest. -/
theorem argBits_split (arg : Word) {i n : Nat} (h : i < n) :
    argBits arg n = argBits arg i ++ arg.getLsbD (31 - i) :: (argBits arg n).drop (i + 1) := by
  have ht : (argBits arg n).take i = argBits arg i := by
    unfold argBits; rw [← List.map_take, List.take_range, Nat.min_eq_left (Nat.le_of_lt h)]
  have hg : (argBits arg n)[i]'(by simpa using h) = arg.getLsbD (31 - i) := by simp [argBits]
  rw [← ht, ← hg, List.cons_getElem_drop_succ]
  exact (List.take_append_drop i _).symm

end Sys2Proof.Machine
end

