-- ==== Sys2Proof/Laws/Encoder.lean ====
section
/-! SUPPORT. What appending bits does to the stream, to FILL and OUTQ, and to the padding (spec/42_encoder.md R150, R151). -/

namespace Sys2Proof.Machine

theorem getLsbD_setBit (w : Word) (i j : Nat) (b : Bool) (hi : i < 32) :
    (setBit w i b).getLsbD j = if j = i then b else w.getLsbD j := by
  unfold setBit
  by_cases hj : j = i
  · subst hj; cases b <;> simp [hi]
  · rcases Nat.lt_or_gt_of_ne hj with h | h
    · cases b <;> simp [hj, h]
      intro h'; exact BitVec.lt_of_getLsbD h'
    · have : j - i ≠ 0 := by omega
      cases b <;> simp [hj, Nat.not_lt_of_gt h, this]
      intro h'; exact BitVec.lt_of_getLsbD h'

@[simp] theorem leadingBits_zero (w : Word) : leadingBits w 0 = [] := rfl

@[simp] theorem length_leadingBits (w : Word) (n : Nat) : (leadingBits w n).length = n := by simp [leadingBits]

theorem leadingBits_setBit (w : Word) (n : Nat) (b : Bool) (hn : n < 32) :
    leadingBits (setBit w (31 - n) b) (n + 1) = leadingBits w n ++ [b] := by
  unfold leadingBits
  rw [List.range_succ, List.map_append]
  congr 1
  · apply List.map_congr_left
    intro i hi
    rw [List.mem_range] at hi
    rw [getLsbD_setBit _ _ _ _ (by omega), if_neg (by omega)]
  · rw [List.map_singleton, getLsbD_setBit _ _ _ _ (by omega), if_pos rfl]

/-- R150: the stream the packing registers hold. -/
def Packer.stream (p : Packer) : List Bool := queueBits p.outq ++ leadingBits p.pack p.fill

/-- R44, R45: the bits of PACK below the filled ones, and of each entry below its stream bits, are 0. -/
def Packer.Padded (p : Packer) : Prop :=
  (∀ i, i < 32 - p.fill → p.pack.getLsbD i = false) ∧
    ∀ e ∈ p.outq, 1 ≤ e.nbits.toNat ∧ e.nbits.toNat ≤ 32 ∧ ∀ i, i < 32 - e.nbits.toNat → e.data.getLsbD i = false

theorem stream_packerOf (s : State) : (packerOf s).stream = streamBits s := rfl

theorem padded_packerOf (s : State) : (packerOf s).Padded ↔ s.PaddingZero := Iff.rfl

theorem queueBits_append (q r : List OutEntry) : queueBits (q ++ r) = queueBits q ++ queueBits r := by
  simp [queueBits]

/-- One bit: appended to the stream; FILL counts it modulo 32; a word is pushed exactly when it is full. -/
theorem packBit_spec (p : Packer) (b : Bool) (h : p.fill < 32) :
    (packBit p b).stream = p.stream ++ [b] ∧ (packBit p b).fill = (p.fill + 1) % 32 ∧
    (p.Padded → (packBit p b).Padded) ∧
    ∃ pushed, (packBit p b).outq = p.outq ++ pushed ∧ pushed.length = (p.fill + 1) / 32 ∧
      ∀ e ∈ pushed, e.nbits = 32 := by
  unfold packBit
  split
  · next hf =>
    have h31 : p.fill = 31 := by omega
    refine ⟨?_, by simp [h31], ?_, _, rfl, by simp [h31], by simp⟩
    · have hs : p.stream = queueBits p.outq ++ leadingBits p.pack 31 := by simp [Packer.stream, h31]
      have hb := leadingBits_setBit p.pack 31 b (by omega)
      rw [hs, List.append_assoc, ← hb]
      simp [Packer.stream, queueBits, entryBits, h31]
    · rintro ⟨_, hq⟩
      refine ⟨by simp, ?_⟩
      intro e he
      rw [List.mem_append, List.mem_singleton] at he
      rcases he with he | rfl
      · exact hq e he
      · simp
  · refine ⟨?_, by simp; omega, ?_, [], by simp, by simp; omega, by simp⟩
    · simp [Packer.stream, leadingBits_setBit _ _ _ h]
    · rintro ⟨hp, hq⟩
      refine ⟨fun i hi => ?_, hq⟩
      simp only at hi ⊢
      rw [getLsbD_setBit _ _ _ _ (by omega), if_neg (by omega)]
      exact hp i (by omega)

/-- Any number of bits, by induction over them. -/
theorem packBits_spec (bits : List Bool) (p : Packer) (h : p.fill < 32) :
    (packBits p bits).stream = p.stream ++ bits ∧ (packBits p bits).fill = (p.fill + bits.length) % 32 ∧
    (p.Padded → (packBits p bits).Padded) ∧
    ∃ pushed, (packBits p bits).outq = p.outq ++ pushed ∧ pushed.length = (p.fill + bits.length) / 32 ∧
      ∀ e ∈ pushed, e.nbits = 32 := by
  induction bits generalizing p with
  | nil =>
    refine ⟨by simp [packBits], ?_, fun hp => hp, [], by simp [packBits], ?_, by simp⟩
    · simp [packBits, Nat.mod_eq_of_lt h]
    · simp; omega
  | cons b rest ih =>
    obtain ⟨hs, hf, hp, q, hq, hl, hn⟩ := packBit_spec p b h
    obtain ⟨hs', hf', hp', q', hq', hl', hn'⟩ := ih (packBit p b) (by omega)
    have e : packBits p (b :: rest) = packBits (packBit p b) rest := rfl
    rw [e]
    refine ⟨by rw [hs', hs, List.append_assoc]; rfl, by rw [hf', hf, List.length_cons]; omega,
      fun h0 => hp' (hp h0), q ++ q', by rw [hq', hq, List.append_assoc], ?_, ?_⟩
    · rw [List.length_append, hl, hl', hf, List.length_cons]; omega
    · intro e he
      rcases List.mem_append.1 he with he | he
      · exact hn e he
      · exact hn' e he

@[simp] theorem length_codeword (c : Code) : (codeword c).length = c.len.toNat := by simp [codeword]

/-- R151: what appending a codeword does. -/
theorem appendCode_spec (c : Code) (s : State) :
    streamBits (appendCode c s) = streamBits s ++ codeword c ∧
    (appendCode c s).fill.toNat = (s.fill.toNat + c.len.toNat) % 32 ∧
    (s.PaddingZero → (appendCode c s).PaddingZero) ∧
    ∃ pushed, (appendCode c s).outq = s.outq ++ pushed ∧ pushed.length = wordsCompleted s c.len.toNat ∧
      ∀ e ∈ pushed, e.nbits = 32 := by
  obtain ⟨hs, hf, hp, q, hq, hl, hn⟩ := packBits_spec (codeword c) (packerOf s) s.fill.isLt
  rw [length_codeword] at hf hl
  have hfill : (appendCode c s).fill.toNat = (packBits (packerOf s) (codeword c)).fill := by
    show (BitVec.ofNat 5 _).toNat = _
    rw [BitVec.toNat_ofNat, hf]; omega
  have hst : streamBits (appendCode c s) = (packBits (packerOf s) (codeword c)).stream := by
    rw [Packer.stream, ← hfill]; rfl
  refine ⟨by rw [hst, hs, stream_packerOf], by rw [hfill, hf]; rfl, fun h0 => ?_, q, hq, hl, hn⟩
  have := hp h0
  rw [Packer.Padded, ← hfill] at this
  exact this

end Sys2Proof.Machine
end

