-- ==== Sys2Proof/Laws/Encoding.lean ====
section
/-! SUPPORT. The command word as its four fields (spec/30_encoding.md R81), what a format's mask keeps of it (R82), and
the rows of the opcode map (R84, R85). -/

namespace Sys2Proof

/-- R81: RSV, bits 31:18. -/
abbrev fieldRsv (w : Word) : BitVec 14 := w.extractLsb' 18 14

/-- R81: K, bits 17:16, as bits. -/
abbrev bitsK (w : Word) : BitVec 2 := w.extractLsb' 16 2

/-- R81: A, bits 15:8, as bits. -/
abbrev bitsA (w : Word) : Byte := w.extractLsb' 8 8

/-- The word of four fields. -/
abbrev wordOf (r : BitVec 14) (k : BitVec 2) (a op : Byte) : Word := r ++ k ++ a ++ op

theorem word_eq_fields (w : Word) : w = wordOf (fieldRsv w) (bitsK w) (bitsA w) (fieldOp w) := by
  unfold wordOf fieldOp
  rw [BitVec.extractLsb'_append_extractLsb'_eq_extractLsb' (by rfl),
    BitVec.extractLsb'_append_extractLsb'_eq_extractLsb' (by rfl),
    BitVec.extractLsb'_append_extractLsb'_eq_extractLsb' (by rfl)]
  simp

@[simp] theorem fieldOp_wordOf (r : BitVec 14) (k : BitVec 2) (a op : Byte) : fieldOp (wordOf r k a op) = op :=
  BitVec.extractLsb'_append_eq_right

@[simp] theorem bitsA_wordOf (r : BitVec 14) (k : BitVec 2) (a op : Byte) : bitsA (wordOf r k a op) = a := by
  show BitVec.extractLsb' 8 8 (r ++ k ++ a ++ op) = a
  rw [BitVec.extractLsb'_append_eq_of_le (by decide)]
  exact BitVec.extractLsb'_append_eq_right

@[simp] theorem bitsK_wordOf (r : BitVec 14) (k : BitVec 2) (a op : Byte) : bitsK (wordOf r k a op) = k := by
  show BitVec.extractLsb' 16 2 (r ++ k ++ a ++ op) = k
  rw [BitVec.extractLsb'_append_eq_of_le (by decide), BitVec.extractLsb'_append_eq_of_le (by decide)]
  exact BitVec.extractLsb'_append_eq_right

@[simp] theorem fieldRsv_wordOf (r : BitVec 14) (k : BitVec 2) (a op : Byte) : fieldRsv (wordOf r k a op) = r := by
  show BitVec.extractLsb' 18 14 (r ++ k ++ a ++ op) = r
  rw [BitVec.extractLsb'_append_eq_of_le (by decide), BitVec.extractLsb'_append_eq_of_le (by decide)]
  exact BitVec.extractLsb'_append_eq_left

@[simp] theorem fieldA_wordOf (r : BitVec 14) (k : BitVec 2) (a op : Byte) : fieldA (wordOf r k a op) = a.toNat :=
  congrArg BitVec.toNat (bitsA_wordOf r k a op)

@[simp] theorem fieldK_wordOf (r : BitVec 14) (k : BitVec 2) (a op : Byte) : fieldK (wordOf r k a op) = k.toNat :=
  congrArg BitVec.toNat (bitsK_wordOf r k a op)

theorem wordOf_inj {r r' : BitVec 14} {k k' : BitVec 2} {a a' op op' : Byte} :
    wordOf r k a op = wordOf r' k' a' op' ↔ r = r' ∧ k = k' ∧ a = a' ∧ op = op' := by
  constructor
  · intro h
    refine ⟨?_, ?_, ?_, ?_⟩
    · simpa using congrArg fieldRsv h
    · simpa using congrArg bitsK h
    · simpa using congrArg bitsA h
    · simpa using congrArg fieldOp h
  · rintro ⟨rfl, rfl, rfl, rfl⟩; rfl

theorem toNat_wordOf (r : BitVec 14) (k : BitVec 2) (a op : Byte) :
    (wordOf r k a op).toNat = r.toNat * 2 ^ 18 + k.toNat * 2 ^ 16 + a.toNat * 2 ^ 8 + op.toNat := by
  simp only [wordOf, BitVec.toNat_append]
  rw [← Nat.shiftLeft_add_eq_or_of_lt op.isLt, ← Nat.shiftLeft_add_eq_or_of_lt a.isLt,
    ← Nat.shiftLeft_add_eq_or_of_lt k.isLt]
  simp only [Nat.shiftLeft_eq]
  ring

theorem and_wordOf (r r' : BitVec 14) (k k' : BitVec 2) (a a' op op' : Byte) :
    wordOf r k a op &&& wordOf r' k' a' op' = wordOf (r &&& r') (k &&& k') (a &&& a') (op &&& op') := by
  have h : (r ++ k ++ a ++ op) &&& (r' ++ k' ++ a' ++ op') =
      (r &&& r') ++ (k &&& k') ++ (a &&& a') ++ (op &&& op') := by simp only [BitVec.and_append]
  exact h

theorem pattern_eq_wordOf (op : Byte) : op.setWidth 32 = wordOf 0 0 0 op := by
  apply BitVec.eq_of_toNat_eq
  rw [toNat_wordOf, BitVec.toNat_setWidth, Nat.mod_eq_of_lt (by have := op.isLt; omega)]
  simp

/-- R82: which fields of a word a format's mask requires to be 0. -/
def Format.unusedZero (f : Format) (w : Word) : Prop :=
  match f with
  | .f0 => fieldRsv w = 0 ∧ bitsK w = 0 ∧ bitsA w = 0
  | .fa => fieldRsv w = 0 ∧ bitsK w = 0
  | .fak => fieldRsv w = 0

/-- R82, R84: a word matches its opcode under a format's mask exactly when the fields the format does not use are 0. -/
theorem and_mask_eq_pattern_iff (f : Format) (w : Word) (op : Byte) :
    w &&& f.mask = op.setWidth 32 ↔ fieldOp w = op ∧ f.unusedZero w := by
  obtain ⟨r, k, a, o, rfl⟩ : ∃ r k a o, w = wordOf r k a o := ⟨_, _, _, _, word_eq_fields w⟩
  have h (m : Word) (r' : BitVec 14) (k' : BitVec 2) (a' : Byte) (hm : m = wordOf r' k' a' 0xFF#8) :
      wordOf r k a o &&& m = wordOf (r &&& r') (k &&& k') (a &&& a') o := by
    rw [hm, and_wordOf, show o &&& 0xFF#8 = o from BitVec.and_allOnes]
  have hr : r &&& 0x3FFF#14 = r := BitVec.and_allOnes
  have hk : k &&& 0x3#2 = k := BitVec.and_allOnes
  have ha : a &&& 0xFF#8 = a := BitVec.and_allOnes
  rw [pattern_eq_wordOf]
  cases f
  · rw [h _ 0x3FFF#14 0x3#2 0xFF#8 (by decide), hr, hk, ha, wordOf_inj]
    simp [Format.unusedZero]; tauto
  · rw [h _ 0x3FFF#14 0x3#2 0#8 (by decide), hr, hk, wordOf_inj]
    simp [Format.unusedZero]; tauto
  · rw [h _ 0x3FFF#14 0#2 0#8 (by decide), hr, wordOf_inj]
    simp [Format.unusedZero]; tauto

/-- R84: a row is found under its own OP, and under no other. -/
theorem rowOf_op_of_mem {r : Row} (h : r ∈ opcodeMap) : rowOf r.op = some r := by
  simp only [opcodeMap, List.cons_append, List.nil_append, List.mem_cons, List.not_mem_nil, or_false] at h
  rcases h with rfl | rfl | rfl | rfl | rfl | rfl | rfl | rfl | rfl | rfl | rfl | rfl | rfl | rfl | rfl | rfl | rfl |
    rfl | rfl | rfl | rfl | rfl <;> rfl

theorem rowOf_eq_some {op : Byte} {r : Row} (h : rowOf op = some r) : r ∈ opcodeMap ∧ r.op = op :=
  ⟨List.mem_of_find?_eq_some h, by simpa using List.find?_some h⟩

/-- R84: what the decoder answers, by the row of the word's OP and the fields its format does not use. -/
theorem decode_eq_ok_iff (w : Word) (i : Instr) :
    decode w = .ok i ↔ ∃ r ∈ opcodeMap, r.op = fieldOp w ∧ r.format.unusedZero w ∧ r.make (fieldA w) (fieldK w) = i := by
  unfold decode Row.pattern
  constructor
  · intro h
    split at h
    · cases h
    · next r hr =>
      obtain ⟨hmem, hop⟩ := rowOf_eq_some hr
      split at h
      · next hm =>
        rw [and_mask_eq_pattern_iff] at hm
        exact ⟨r, hmem, hop, hm.2, by simpa using h⟩
      · cases h
  · rintro ⟨r, hmem, hop, hz, rfl⟩
    rw [← hop, rowOf_op_of_mem hmem]
    simp [and_mask_eq_pattern_iff, hop, hz]

/-- R84: the words the decoder rejects. -/
theorem decode_error_of_forall {w : Word} (h : ∀ r ∈ opcodeMap, ¬ (r.op = fieldOp w ∧ r.format.unusedZero w)) :
    ∃ e, decode w = .error e := by
  cases hd : decode w with
  | error e => exact ⟨e, rfl⟩
  | ok i =>
    obtain ⟨r, hr, ho, hz, -⟩ := (decode_eq_ok_iff w i).1 hd
    exact absurd ⟨ho, hz⟩ (h r hr)

/-- R81: an encoded command is the word of its fields. -/
theorem encode_eq_wordOf (i : Instr) :
    encode i = wordOf 0 (BitVec.ofNat 2 i.operandK) (BitVec.ofNat 8 i.operandA) i.op := rfl

/-- The operands of a well-formed command fit (R90), whichever command it is. -/
theorem Instr.wellFormed_bounds {i : Instr} (h : i.wellFormed = true) : i.operandA ≤ 255 ∧ i.operandK ≤ 3 := by
  cases i <;> simp_all [Instr.wellFormed, Instr.operandA, Instr.operandK, fitsA, fitsK]

/-- R90: `OP | a << 8 | k << 16`, as a number. -/
theorem encode_eq_ofNat {i : Instr} (h : i.wellFormed = true) :
    encode i = BitVec.ofNat 32 (i.operandK * 65536 + i.operandA * 256 + i.op.toNat) := by
  obtain ⟨ha, hk⟩ := Instr.wellFormed_bounds h
  have ho := i.op.isLt
  apply BitVec.eq_of_toNat_eq
  rw [encode_eq_wordOf, toNat_wordOf, BitVec.toNat_ofNat, BitVec.toNat_ofNat, BitVec.toNat_ofNat]
  rw [show (0 : BitVec 14).toNat = 0 from rfl]
  omega

end Sys2Proof
end

