-- ==== Sys2Proof/Laws/Meanings.lean ====
section
/-! SUPPORT. Once for every meaning: everything it can do. A command answers `done` of one state or raises one of its
errors; the later lemmas cite these instead of unfolding a meaning. -/

namespace Sys2Proof.Machine

@[simp] theorem done_eq_next_iff (s t : State) : done s = .next t ↔ t = s.withStatus .ok 0 := by
  simp [done, eq_comm]

@[simp] theorem raise_eq_next_iff (e : ErrCode) (n : BitVec 5) (s t : State) :
    raise e n s = .next t ↔ t = s.withStatus e n := by simp [raise, eq_comm]

@[simp] theorem report_eq_next_iff (e : ErrCode) (n : BitVec 5) (s t : State) :
    report e n s = .next t ↔ t = s.withStatus e n := by simp [report, eq_comm]

theorem symbolOperand_of_lt {a : Nat} (h : a < 128) : symbolOperand a = some ⟨a, h⟩ := by simp [symbolOperand, h]

theorem symbolOperand_of_ge {a : Nat} (h : 128 ≤ a) : symbolOperand a = none := by simp [symbolOperand, h]

theorem nodeOperand_of_lt {a : Nat} (h : a < 255) : nodeOperand a = some ⟨a, h⟩ := by simp [nodeOperand, h]

theorem nodeOperand_of_ge {a : Nat} (h : 255 ≤ a) : nodeOperand a = none := by simp [nodeOperand, h]

theorem execFreqWr_cases (a : Nat) (s : State) :
    (∃ x, execFreqWr a s = done (s.writeFreq x s.arg)) ∨ execFreqWr a s = raise .badOperand 0 s := by
  unfold execFreqWr
  split
  · exact .inr rfl
  · exact .inl ⟨_, rfl⟩

theorem execFreqRd_cases (a : Nat) (s : State) :
    (∃ r, execFreqRd a s = done (s.withResults r 0)) ∨ execFreqRd a s = raise .badOperand 0 s := by
  unfold execFreqRd
  split
  · exact .inr rfl
  · exact .inl ⟨_, rfl⟩

theorem execBuild_cases (s : State) :
    (∃ r, buildTree s.freq = some r ∧
      execBuild s = done (State.withResults (treeInfoWord r.root r.nleaf r.ncount) 0
        { s with node := r.node, code := r.code, root := r.root, nleaf := r.nleaf, ncount := r.ncount,
                 decCur := r.root })) ∨
    (buildTree s.freq = none ∧ execBuild s = raise .emptyAlphabet 0 s) := by
  unfold execBuild
  split
  · exact .inr ⟨by assumption, rfl⟩
  · exact .inl ⟨_, by assumption, rfl⟩

theorem execNodeRd_cases (a : Nat) (s : State) :
    (∃ r0 r1, execNodeRd a s = done (s.withResults r0 r1)) ∨ execNodeRd a s = raise .badOperand 0 s := by
  unfold execNodeRd
  split
  · exact .inr rfl
  · exact .inl ⟨_, _, rfl⟩

theorem execNodeWr_cases (a : Nat) (s : State) :
    (∃ i, execNodeWr a s = done (s.writeNode i (nodeOfHeader s.arg))) ∨
    execNodeWr a s = raise .badOperand 0 s := by
  unfold execNodeWr
  split
  · exact .inr rfl
  · exact .inl ⟨_, rfl⟩

theorem execCodeRd_cases (a k : Nat) (s : State) :
    (∃ r0 r1, execCodeRd a k s = done (s.withResults r0 r1)) ∨ execCodeRd a k s = raise .badOperand 0 s := by
  unfold execCodeRd
  split
  · exact .inr rfl
  · exact .inl ⟨_, _, rfl⟩

theorem execCodeWr_cases (a k : Nat) (s : State) :
    (∃ x, execCodeWr a k s = done (s.writeCode x (codeWithWord (s.readCode x) k s.arg))) ∨
    execCodeWr a k s = raise .badOperand 0 s := by
  unfold execCodeWr
  split
  · exact .inr rfl
  · exact .inl ⟨_, rfl⟩

theorem execCodeLenWr_cases (a : Nat) (s : State) :
    (∃ x n, lengthOperand s.arg = some n ∧ execCodeLenWr a s = done (s.writeCode x { s.readCode x with len := n })) ∨
    execCodeLenWr a s = raise .badOperand 0 s := by
  unfold execCodeLenWr
  split
  · exact .inr rfl
  · split
    · exact .inr rfl
    · exact .inl ⟨_, _, by assumption, rfl⟩

theorem execEncSym_cases (a : Nat) (s : State) :
    (∃ (h : a < 128), (s.readCode ⟨a, h⟩).len ≠ 0 ∧
      s.outq.length + wordsCompleted s (s.readCode ⟨a, h⟩).len.toNat ≤ s.cfg.depthOut ∧
      execEncSym a s = done ((appendCode (s.readCode ⟨a, h⟩) s).withResults ((s.readCode ⟨a, h⟩).len.setWidth 32)
        (BitVec.ofNat 32 (wordsCompleted s (s.readCode ⟨a, h⟩).len.toNat)))) ∨
    execEncSym a s = raise .unknownSymbol 0 s ∨
    (∃ (h : a < 128), s.cfg.depthOut < s.outq.length + wordsCompleted s (s.readCode ⟨a, h⟩).len.toNat ∧
      execEncSym a s = raise .outFull 0 s) := by
  by_cases h : a < 128
  · simp only [execEncSym, symbolOperand_of_lt h]
    split
    · exact .inr (.inl rfl)
    · split
      · exact .inr (.inr ⟨h, by assumption, rfl⟩)
      · exact .inl ⟨h, by assumption, by omega, rfl⟩
  · simp [execEncSym, symbolOperand_of_ge (Nat.le_of_not_lt h)]

theorem execEncFlush_cases (s : State) :
    (s.fill = 0 ∧ execEncFlush s = done (s.withResults 0 0)) ∨
    (s.fill ≠ 0 ∧ s.outq.length ≠ s.cfg.depthOut ∧ execEncFlush s = done (State.withResults (s.fill.setWidth 32) 1
      { s with pack := 0, fill := 0, outq := s.outq ++ [{ data := s.pack, nbits := s.fill.setWidth 6 }] })) ∨
    execEncFlush s = raise .outFull 0 s := by
  unfold execEncFlush
  split
  · exact .inl ⟨by assumption, rfl⟩
  · split
    · exact .inr (.inr rfl)
    · exact .inr (.inl ⟨by assumption, by assumption, rfl⟩)

theorem execOutPop_cases (s : State) :
    (∃ e rest, s.outq = e :: rest ∧
      execOutPop s = done (State.withResults e.data (e.nbits.setWidth 32) { s with outq := rest })) ∨
    (s.outq = [] ∧ execOutPop s = raise .fifoEmpty 0 s) := by
  unfold execOutPop
  split
  · exact .inr ⟨by assumption, rfl⟩
  · exact .inl ⟨_, _, by assumption, rfl⟩

theorem execDecWord_cases (a : Nat) (s : State) :
    (1 ≤ a ∧ a ≤ 32 ∧
      ((∃ cur q m, decBits s.node s.root s.cfg.depthSym (argBits s.arg a) 0 s.decCur s.symq 0 = .ok cur q m ∧
        execDecWord a s =
          done (State.withResults (BitVec.ofNat 32 m) (cur.setWidth 32) { s with decCur := cur, symq := q })) ∨
      (∃ i, decBits s.node s.root s.cfg.depthSym (argBits s.arg a) 0 s.decCur s.symq 0 = .malformed i ∧
        execDecWord a s = raise .malformedTree (BitVec.ofNat 5 i) s) ∨
      (∃ i, decBits s.node s.root s.cfg.depthSym (argBits s.arg a) 0 s.decCur s.symq 0 = .full i ∧
        execDecWord a s = raise .symFull (BitVec.ofNat 5 i) s))) ∨
    ((a < 1 ∨ 32 < a) ∧ execDecWord a s = raise .badOperand 0 s) := by
  by_cases h : 1 ≤ a ∧ a ≤ 32
  · refine .inl ⟨h.1, h.2, ?_⟩
    simp only [execDecWord, bitCountOperand, h, and_self, if_true]
    split
    · exact .inr (.inl ⟨_, by assumption, rfl⟩)
    · exact .inr (.inr ⟨_, by assumption, rfl⟩)
    · exact .inl ⟨_, _, _, by assumption, rfl⟩
  · exact .inr ⟨by omega, by simp [execDecWord, bitCountOperand, h]⟩

theorem execDecEnd_cases (s : State) :
    (s.decCur = s.root ∧ execDecEnd s = done s) ∨
    (s.decCur ≠ s.root ∧ execDecEnd s = report .truncatedStream 0 { s with decCur := s.root }) := by
  unfold execDecEnd; split <;> simp_all

theorem execSymPop_cases (s : State) :
    (∃ x rest, s.symq = x :: rest ∧ execSymPop s =
      done (State.withResults (x.setWidth 32) (BitVec.ofNat 32 rest.length) { s with symq := rest })) ∨
    (s.symq = [] ∧ execSymPop s = raise .fifoEmpty 0 s) := by
  unfold execSymPop
  split
  · exact .inr ⟨by assumption, rfl⟩
  · exact .inl ⟨_, _, by assumption, rfl⟩

end Sys2Proof.Machine
end

