-- ==== Sys2Proof/Laws/Exec.lean ====
section
/-! SUPPORT. Once for `exec`: a command either raises one of its errors and leaves the rest of the state, or is DEC_END
reporting a truncation, or ends with OK in the state its effect gives. -/

namespace Sys2Proof.Machine

/-- The state a command that ends with OK makes of `s`, before ERR and ERR_INFO are cleared. -/
def Effect (i : Instr) (s u : State) : Prop :=
  match i with
  | .nop => u = s
  | .clr => u = s.cleared
  | .freqWr _ => ∃ x, u = s.writeFreq x s.arg
  | .freqRd _ => ∃ r, u = s.withResults r 0
  | .build => ∃ r, buildTree s.freq = some r ∧
      u = State.withResults (treeInfoWord r.root r.nleaf r.ncount) 0
        { s with node := r.node, code := r.code, root := r.root, nleaf := r.nleaf, ncount := r.ncount,
                 decCur := r.root }
  | .treeInfo => ∃ r, u = s.withResults r 0
  | .nodeRd _ => ∃ r0 r1, u = s.withResults r0 r1
  | .nodeWr _ => ∃ i n, u = s.writeNode i n
  | .rootWr => ∃ r, u = { s with root := r, decCur := r }
  | .codeRd _ _ => ∃ r0 r1, u = s.withResults r0 r1
  | .codeWr _ _ => ∃ x b, u = s.writeCode x { s.readCode x with bits := b }
  | .codeLenWr _ => ∃ x n, n.toNat ≤ 127 ∧ u = s.writeCode x { s.readCode x with len := n }
  | .encSym a => ∃ (h : a < 128) (r0 r1 : Word), (s.readCode ⟨a, h⟩).len ≠ 0 ∧
      s.outq.length + wordsCompleted s (s.readCode ⟨a, h⟩).len.toNat ≤ s.cfg.depthOut ∧
      u = (appendCode (s.readCode ⟨a, h⟩) s).withResults r0 r1
  | .encFlush => (s.fill = 0 ∧ u = s.withResults 0 0) ∨
      (s.fill ≠ 0 ∧ s.outq.length ≠ s.cfg.depthOut ∧
        u = State.withResults (s.fill.setWidth 32) 1
          { s with pack := 0, fill := 0, outq := s.outq ++ [{ data := s.pack, nbits := s.fill.setWidth 6 }] })
  | .encReset => u = { s with pack := 0, fill := 0, encTotal := 0, outq := [] }
  | .outPop => ∃ e rest r0 r1, s.outq = e :: rest ∧ u = State.withResults r0 r1 { s with outq := rest }
  | .encInfo => ∃ r0 r1, u = s.withResults r0 r1
  | .decWord a => ∃ cur q m,
      decBits s.node s.root s.cfg.depthSym (argBits s.arg a) 0 s.decCur s.symq 0 = .ok cur q m ∧
      u = State.withResults (BitVec.ofNat 32 m) (cur.setWidth 32) { s with decCur := cur, symq := q }
  | .decEnd => s.decCur = s.root ∧ u = s
  | .decReset => u = { s with decCur := s.root, symq := [] }
  | .symPop => ∃ x rest r0 r1, s.symq = x :: rest ∧ u = State.withResults r0 r1 { s with symq := rest }
  | .decInfo => ∃ r0 r1, u = s.withResults r0 r1

theorem lengthOperand_le {arg : Word} {n : Byte} (h : lengthOperand arg = some n) : n.toNat ≤ 127 := by
  unfold lengthOperand at h
  split at h
  · cases h; assumption
  · cases h

theorem exec_inversion {i : Instr} {s t : State} (h : exec i s = .next t) :
    (∃ e n, e ∈ errorsOf i ∧ e ≠ .ok ∧ e ≠ .truncatedStream ∧ t = s.withStatus e n ∧
      (n ≠ 0 → ∃ a, i = .decWord a ∧ (e = .malformedTree ∨ e = .symFull))) ∨
    (i = .decEnd ∧ s.decCur ≠ s.root ∧ t = { s with decCur := s.root, err := .truncatedStream, errInfo := 0 }) ∨
    (∃ u : State, t = u.withStatus .ok 0 ∧ Effect i s u) := by
  cases i <;> simp only [exec] at h
  case nop => simp only [execNop, done_eq_next_iff] at h; exact .inr (.inr ⟨_, h, rfl⟩)
  case clr => simp only [execClr, done_eq_next_iff] at h; exact .inr (.inr ⟨_, h, rfl⟩)
  case freqWr a =>
    rcases execFreqWr_cases a s with ⟨x, e⟩ | e
    · rw [e, done_eq_next_iff] at h; exact .inr (.inr ⟨_, h, _, rfl⟩)
    · rw [e, raise_eq_next_iff] at h; exact .inl ⟨_, _, by simp [errorsOf], by simp, by simp, h, by simp⟩
  case freqRd a =>
    rcases execFreqRd_cases a s with ⟨x, e⟩ | e
    · rw [e, done_eq_next_iff] at h; exact .inr (.inr ⟨_, h, _, rfl⟩)
    · rw [e, raise_eq_next_iff] at h; exact .inl ⟨_, _, by simp [errorsOf], by simp, by simp, h, by simp⟩
  case build =>
    rcases execBuild_cases s with ⟨x, hx, e⟩ | ⟨_, e⟩
    · rw [e, done_eq_next_iff] at h; exact .inr (.inr ⟨_, h, _, hx, rfl⟩)
    · rw [e, raise_eq_next_iff] at h; exact .inl ⟨_, _, by simp [errorsOf], by simp, by simp, h, by simp⟩
  case treeInfo => simp only [execTreeInfo, done_eq_next_iff] at h; exact .inr (.inr ⟨_, h, _, rfl⟩)
  case nodeRd a =>
    rcases execNodeRd_cases a s with ⟨x, y, e⟩ | e
    · rw [e, done_eq_next_iff] at h; exact .inr (.inr ⟨_, h, _, _, rfl⟩)
    · rw [e, raise_eq_next_iff] at h; exact .inl ⟨_, _, by simp [errorsOf], by simp, by simp, h, by simp⟩
  case nodeWr a =>
    rcases execNodeWr_cases a s with ⟨x, e⟩ | e
    · rw [e, done_eq_next_iff] at h; exact .inr (.inr ⟨_, h, _, _, rfl⟩)
    · rw [e, raise_eq_next_iff] at h; exact .inl ⟨_, _, by simp [errorsOf], by simp, by simp, h, by simp⟩
  case rootWr => simp only [execRootWr, done_eq_next_iff] at h; exact .inr (.inr ⟨_, h, _, rfl⟩)
  case codeRd a k =>
    rcases execCodeRd_cases a k s with ⟨x, y, e⟩ | e
    · rw [e, done_eq_next_iff] at h; exact .inr (.inr ⟨_, h, _, _, rfl⟩)
    · rw [e, raise_eq_next_iff] at h; exact .inl ⟨_, _, by simp [errorsOf], by simp, by simp, h, by simp⟩
  case codeWr a k =>
    rcases execCodeWr_cases a k s with ⟨x, e⟩ | e
    · rw [e, done_eq_next_iff] at h; exact .inr (.inr ⟨_, h, _, _, rfl⟩)
    · rw [e, raise_eq_next_iff] at h; exact .inl ⟨_, _, by simp [errorsOf], by simp, by simp, h, by simp⟩
  case codeLenWr a =>
    rcases execCodeLenWr_cases a s with ⟨x, n, hn, e⟩ | e
    · rw [e, done_eq_next_iff] at h; exact .inr (.inr ⟨_, h, _, _, lengthOperand_le hn, rfl⟩)
    · rw [e, raise_eq_next_iff] at h; exact .inl ⟨_, _, by simp [errorsOf], by simp, by simp, h, by simp⟩
  case encSym a =>
    rcases execEncSym_cases a s with ⟨ha, hl, hr, e⟩ | e | ⟨_, _, e⟩
    · rw [e, done_eq_next_iff] at h; exact .inr (.inr ⟨_, h, ha, _, _, hl, hr, rfl⟩)
    · rw [e, raise_eq_next_iff] at h; exact .inl ⟨_, _, by simp [errorsOf], by simp, by simp, h, by simp⟩
    · rw [e, raise_eq_next_iff] at h; exact .inl ⟨_, _, by simp [errorsOf], by simp, by simp, h, by simp⟩
  case encFlush =>
    rcases execEncFlush_cases s with ⟨h0, e⟩ | ⟨h0, h1, e⟩ | e
    · rw [e, done_eq_next_iff] at h; exact .inr (.inr ⟨_, h, .inl ⟨h0, rfl⟩⟩)
    · rw [e, done_eq_next_iff] at h; exact .inr (.inr ⟨_, h, .inr ⟨h0, h1, rfl⟩⟩)
    · rw [e, raise_eq_next_iff] at h; exact .inl ⟨_, _, by simp [errorsOf], by simp, by simp, h, by simp⟩
  case encReset => simp only [execEncReset, done_eq_next_iff] at h; exact .inr (.inr ⟨_, h, rfl⟩)
  case outPop =>
    rcases execOutPop_cases s with ⟨x, r, hx, e⟩ | ⟨_, e⟩
    · rw [e, done_eq_next_iff] at h; exact .inr (.inr ⟨_, h, _, _, _, _, hx, rfl⟩)
    · rw [e, raise_eq_next_iff] at h; exact .inl ⟨_, _, by simp [errorsOf], by simp, by simp, h, by simp⟩
  case encInfo => simp only [execEncInfo, done_eq_next_iff] at h; exact .inr (.inr ⟨_, h, _, _, rfl⟩)
  case decWord a =>
    rcases execDecWord_cases a s with ⟨_, _, ⟨_, _, _, hx, e⟩ | ⟨i, _, e⟩ | ⟨i, _, e⟩⟩ | ⟨_, e⟩
    · rw [e, done_eq_next_iff] at h; exact .inr (.inr ⟨_, h, _, _, _, hx, rfl⟩)
    all_goals rw [e, raise_eq_next_iff] at h; exact .inl ⟨_, _, by simp [errorsOf], by simp, by simp, h, by simp⟩
  case decEnd =>
    rcases execDecEnd_cases s with ⟨hx, e⟩ | ⟨hx, e⟩
    · rw [e, done_eq_next_iff] at h; exact .inr (.inr ⟨_, h, hx, rfl⟩)
    · rw [e, report_eq_next_iff] at h; exact .inr (.inl ⟨rfl, hx, h⟩)
  case decReset => simp only [execDecReset, done_eq_next_iff] at h; exact .inr (.inr ⟨_, h, rfl⟩)
  case symPop =>
    rcases execSymPop_cases s with ⟨x, r, hx, e⟩ | ⟨_, e⟩
    · rw [e, done_eq_next_iff] at h; exact .inr (.inr ⟨_, h, _, _, _, _, hx, rfl⟩)
    · rw [e, raise_eq_next_iff] at h; exact .inl ⟨_, _, by simp [errorsOf], by simp, by simp, h, by simp⟩
  case decInfo => simp only [execDecInfo, done_eq_next_iff] at h; exact .inr (.inr ⟨_, h, _, _, rfl⟩)

end Sys2Proof.Machine
end

