-- ==== Sys2Proof/Laws/Huffman.lean ====
section
/-! SUPPORT. The priority collection and the merge loop of BUILD (spec/41_builder.md R116, R117): what one removal and
one merge do, and the shape of the arena every merge keeps. -/

namespace Sys2Proof.Machine

/-! ## The order of keys -/

theorem keyLess_iff (p q : Key) :
    keyLess p q = true ↔ p.weight.toNat < q.weight.toNat ∨ (p.weight.toNat = q.weight.toNat ∧ p.idx < q.idx) := by
  simp [keyLess, BitVec.lt_def, BitVec.toNat_inj]

theorem keyLess_trans {p q r : Key} (h : keyLess p q = true) (h' : keyLess q r = true) : keyLess p r = true := by
  rw [keyLess_iff] at *; omega

theorem not_keyLess_trans {p q r : Key} (h : keyLess p q = false) (h' : keyLess q r = false) : keyLess p r = false := by
  rw [← Bool.not_eq_true, keyLess_iff] at *; omega

theorem keyLess_asymm {p q : Key} (h : keyLess p q = true) : keyLess q p = false := by
  rw [← Bool.not_eq_true, keyLess_iff]; rw [keyLess_iff] at h; omega

/-- Keys are distinct because indices are (R116), so of two the lesser is determined. -/
theorem keyLess_of_not {p q : Key} (h : keyLess q p = false) (hne : p.idx ≠ q.idx) : keyLess p q = true := by
  rw [← Bool.not_eq_true, keyLess_iff] at h; rw [keyLess_iff]; omega

/-! ## Removing the least member -/

theorem takeLeast_eq_none {p : List Key} : takeLeast p = none ↔ p = [] := by
  cases p with
  | nil => simp [takeLeast]
  | cons k rest =>
    simp only [takeLeast, reduceCtorEq, iff_false]
    split
    · simp
    · split <;> simp

/-- R117: what is removed and what is left make up the collection, and no member left is less. -/
theorem takeLeast_spec {p r : List Key} {x : Key} (h : takeLeast p = some (x, r)) :
    p.Perm (x :: r) ∧ ∀ y ∈ r, keyLess y x = false := by
  induction p generalizing x r with
  | nil => simp [takeLeast] at h
  | cons k rest ih =>
    simp only [takeLeast] at h
    split at h
    · next hn =>
      rw [takeLeast_eq_none] at hn
      simp only [Option.some.injEq, Prod.mk.injEq] at h
      obtain ⟨rfl, rfl⟩ := h
      simp [hn]
    · next q others hq =>
      obtain ⟨hp, hle⟩ := ih hq
      split at h
      · next hk =>
        simp only [Option.some.injEq, Prod.mk.injEq] at h
        obtain ⟨rfl, rfl⟩ := h
        refine ⟨List.Perm.refl _, fun y hy => ?_⟩
        rcases List.mem_cons.1 (hp.mem_iff.1 hy) with rfl | hy
        · exact keyLess_asymm hk
        · exact not_keyLess_trans (hle y hy) (keyLess_asymm hk)
      · next hk =>
        simp only [Option.some.injEq, Prod.mk.injEq] at h
        obtain ⟨rfl, rfl⟩ := h
        refine ⟨(hp.cons k).trans (List.Perm.swap _ _ _), fun y hy => ?_⟩
        rcases List.mem_cons.1 hy with rfl | hy
        · simpa using hk
        · exact hle y hy

/-! ## The arena -/

/-- The weights of a collection, exactly. -/
def weightSum (p : List Key) : Nat := (p.map fun k => k.weight.toNat).sum

/-- An index of the collection. -/
def inKeys (p : List Key) (j : Nat) : Prop := ∃ k ∈ p, k.idx = j

/-- Entry `m` has `j` as a child. -/
def isChild (nodes : List Node) (m j : Nat) : Prop :=
  ∃ n, nodes[m]? = some n ∧ (n.a.toNat = j ∨ n.b.toNat = j)

/-- R115 to R117: the arena and the collection between two merges, for `l` leaves: the collection's keys are the weights of
different entries; the first `l` entries are leaves, the others internal with two different children of lower index and
their exact sum as weight; an entry is in the collection exactly when no internal entry has it as a child, and has at
most one parent; every entry is valid; and each merge makes the collection one shorter. -/
structure MergeShape (l : Nat) (nodes : List Node) (p : List Key) : Prop where
  keys : ∀ k ∈ p, ∃ n, nodes[k.idx]? = some n ∧ n.weight = k.weight
  nodup : (p.map Key.idx).Nodup
  count : nodes.length + p.length = 2 * l
  valid : ∀ n ∈ nodes, n.valid = true
  leaf : ∀ i n, nodes[i]? = some n → (n.kind = .leaf ↔ i < l)
  children : ∀ i n, nodes[i]? = some n → l ≤ i → n.a.toNat < i ∧ n.b.toNat < i ∧ n.a ≠ n.b ∧
    ∃ x y, nodes[n.a.toNat]? = some x ∧ nodes[n.b.toNat]? = some y ∧
      n.weight.toNat = x.weight.toNat + y.weight.toNat
  open_iff : ∀ j, j < nodes.length → (inKeys p j ↔ ∀ m, l ≤ m → ¬ isChild nodes m j)
  parent : ∀ j m m', l ≤ m → l ≤ m' → isChild nodes m j → isChild nodes m' j → m = m'

theorem getElem?_append_of_some {α : Type} {l r : List α} {i : Nat} {x : α} (h : l[i]? = some x) :
    (l ++ r)[i]? = some x := by
  obtain ⟨hi, _⟩ := List.getElem?_eq_some_iff.1 h
  rw [List.getElem?_append_left hi, h]

theorem isChild_append {nodes : List Node} {m j : Nat} (x : Node) (hm : m < nodes.length) :
    isChild (nodes ++ [x]) m j ↔ isChild nodes m j := by
  simp [isChild, List.getElem?_append_left hm]

theorem isChild_last {nodes : List Node} {j : Nat} (x : Node) :
    isChild (nodes ++ [x]) nodes.length j ↔ x.a.toNat = j ∨ x.b.toNat = j := by
  simp [isChild]

theorem isChild_lt {nodes : List Node} {m j : Nat} (h : isChild nodes m j) : m < nodes.length := by
  obtain ⟨n, hn, _⟩ := h
  exact (List.getElem?_eq_some_iff.1 hn).1

/-- The collection after a merge: the two removed, the new node put in. -/
def pushedKeys (nodes : List Node) (x y : Key) (p2 : List Key) : List Key :=
  { weight := (mergedNode x y).weight, idx := nodes.length } :: p2

/-- R117: one merge keeps the shape, and the weights of the collection add up to the same. -/
theorem mergeShape_step {l : Nat} {nodes : List Node} {p p2 : List Key} {x y : Key} (hs : MergeShape l nodes p)
    (hp : p.Perm (x :: y :: p2)) (hl : nodes.length ≤ 255) (hlen : l ≤ nodes.length) (hw : weightSum p < 2 ^ 39) :
    MergeShape l (nodes ++ [mergedNode x y]) (pushedKeys nodes x y p2) ∧
      weightSum (pushedKeys nodes x y p2) = weightSum p := by
  obtain ⟨nx, hnx, hwx⟩ := hs.keys x (hp.mem_iff.2 (by simp))
  obtain ⟨ny, hny, hwy⟩ := hs.keys y (hp.mem_iff.2 (by simp))
  have hxl : x.idx < nodes.length := (List.getElem?_eq_some_iff.1 hnx).1
  have hyl : y.idx < nodes.length := (List.getElem?_eq_some_iff.1 hny).1
  have hnd : (x.idx :: y.idx :: p2.map Key.idx).Nodup := (hp.map Key.idx).nodup_iff.1 hs.nodup
  rw [List.nodup_cons, List.nodup_cons] at hnd
  obtain ⟨hxn, hyn, hnd⟩ := hnd
  have hxy : x.idx ≠ y.idx := fun h => hxn (by simp [h])
  have hsum : weightSum p = x.weight.toNat + (y.weight.toNat + weightSum p2) := by
    simp only [weightSum, (hp.map _).sum_nat, List.map_cons, List.sum_cons]
  have ha : (mergedNode x y).a.toNat = x.idx := by simp [mergedNode]; omega
  have hb : (mergedNode x y).b.toNat = y.idx := by simp [mergedNode]; omega
  have hwt : (mergedNode x y).weight.toNat = x.weight.toNat + y.weight.toNat := by
    simp only [mergedNode, BitVec.toNat_add]; omega
  have hidx : ∀ k ∈ p2, k.idx < nodes.length := fun k hk => by
    obtain ⟨n, hn, _⟩ := hs.keys k (hp.mem_iff.2 (by simp [hk]))
    exact (List.getElem?_eq_some_iff.1 hn).1
  have hin : ∀ j, inKeys p j ↔ j = x.idx ∨ j = y.idx ∨ inKeys p2 j := fun j => by
    simp only [inKeys, hp.mem_iff, List.mem_cons]
    constructor
    · rintro ⟨k, rfl | rfl | hk, rfl⟩
      · exact .inl rfl
      · exact .inr (.inl rfl)
      · exact .inr (.inr ⟨k, hk, rfl⟩)
    · rintro (rfl | rfl | ⟨k, hk, rfl⟩)
      · exact ⟨x, .inl rfl, rfl⟩
      · exact ⟨y, .inr (.inl rfl), rfl⟩
      · exact ⟨k, .inr (.inr hk), rfl⟩
  have hnot : ∀ j m, l ≤ m → j = x.idx ∨ j = y.idx → ¬ isChild nodes m j := fun j m hm hj =>
    (hs.open_iff j (by omega)).1 ((hin j).2 (by tauto)) m hm
  refine ⟨⟨?_, ?_, ?_, ?_, ?_, ?_, ?_, ?_⟩, ?_⟩
  · intro k hk
    rcases List.mem_cons.1 hk with rfl | hk
    · exact ⟨mergedNode x y, by simp, rfl⟩
    · obtain ⟨n, hn, hw⟩ := hs.keys k (hp.mem_iff.2 (by simp [hk]))
      exact ⟨n, getElem?_append_of_some hn, hw⟩
  · simp only [pushedKeys, List.map_cons, List.nodup_cons]
    refine ⟨fun h => ?_, hnd⟩
    obtain ⟨k, hk, he⟩ := List.mem_map.1 h
    have := hidx k hk
    omega
  · have hlp := hp.length_eq
    have := hs.count
    simp only [pushedKeys, List.length_append, List.length_cons, List.length_nil] at *
    omega
  · intro n hn
    rcases List.mem_append.1 hn with hn | hn
    · exact hs.valid n hn
    · rw [List.mem_singleton.1 hn]; rfl
  · intro i n hi
    by_cases hlt : i < nodes.length
    · exact hs.leaf i n (by rwa [List.getElem?_append_left hlt] at hi)
    · have hi' := (List.getElem?_eq_some_iff.1 hi).1
      simp only [List.length_append, List.length_cons, List.length_nil] at hi'
      obtain rfl : i = nodes.length := by omega
      simp only [List.getElem?_concat_length, Option.some.injEq] at hi
      subst hi
      simp [mergedNode]; omega
  · intro i n hi hli
    by_cases hlt : i < nodes.length
    · obtain ⟨h1, h2, h3, u, v, hu, hv, hw⟩ :=
        hs.children i n (by rwa [List.getElem?_append_left hlt] at hi) hli
      exact ⟨h1, h2, h3, u, v, getElem?_append_of_some hu, getElem?_append_of_some hv, hw⟩
    · have hi' := (List.getElem?_eq_some_iff.1 hi).1
      simp only [List.length_append, List.length_cons, List.length_nil] at hi'
      obtain rfl : i = nodes.length := by omega
      simp only [List.getElem?_concat_length, Option.some.injEq] at hi
      subst hi
      rw [ha, hb]
      refine ⟨hxl, hyl, fun h => hxy (by rw [← ha, ← hb, h]), nx, ny, getElem?_append_of_some hnx,
        getElem?_append_of_some hny, by rw [hwt, hwx, hwy]⟩
  · intro j hj
    simp only [List.length_append, List.length_cons, List.length_nil] at hj
    by_cases hlt : j < nodes.length
    · have hnew : inKeys (pushedKeys nodes x y p2) j ↔ inKeys p2 j := by
        simp only [inKeys, pushedKeys, List.mem_cons]
        constructor
        · rintro ⟨k, rfl | hk, rfl⟩
          · exact absurd hlt (Nat.lt_irrefl _)
          · exact ⟨k, hk, rfl⟩
        · rintro ⟨k, hk, rfl⟩; exact ⟨k, .inr hk, rfl⟩
      have hnx' : inKeys p2 j → j ≠ x.idx ∧ j ≠ y.idx := by
        rintro ⟨k, hk, rfl⟩
        refine ⟨fun h => hxn ?_, fun h => hyn ?_⟩
        · rw [← h]; exact List.mem_cons_of_mem _ (List.mem_map_of_mem hk)
        · rw [← h]; exact List.mem_map_of_mem hk
      rw [hnew]
      constructor
      · intro h m hm hc
        rcases Nat.lt_or_ge m nodes.length with hml | hml
        · exact (hs.open_iff j hlt).1 ((hin j).2 (.inr (.inr h))) m hm ((isChild_append _ hml).1 hc)
        · have hml' := isChild_lt hc
          simp only [List.length_append, List.length_cons, List.length_nil] at hml'
          obtain rfl : m = nodes.length := by omega
          rw [isChild_last, ha, hb] at hc
          have := hnx' h
          omega
      · intro h
        have hnl := h nodes.length hlen
        rw [isChild_last, ha, hb] at hnl
        have hp : inKeys p j := (hs.open_iff j hlt).2 fun m hm hc =>
          h m hm ((isChild_append _ (isChild_lt hc)).2 hc)
        rcases (hin j).1 hp with rfl | rfl | h2
        · exact absurd (.inl rfl) hnl
        · exact absurd (.inr rfl) hnl
        · exact h2
    · obtain rfl : j = nodes.length := by omega
      refine ⟨fun _ m hm hc => ?_, fun _ => ⟨_, List.mem_cons_self, rfl⟩⟩
      have hml' := isChild_lt hc
      simp only [List.length_append, List.length_cons, List.length_nil] at hml'
      rcases Nat.lt_or_ge m nodes.length with hml | hml
      · obtain ⟨n, hn, hab⟩ := (isChild_append _ hml).1 hc
        obtain ⟨h1, h2, -⟩ := hs.children m n hn hm
        omega
      · obtain rfl : m = nodes.length := by omega
        rw [isChild_last, ha, hb] at hc
        omega
  · intro j m m' hm hm' hc hc'
    have hml := isChild_lt hc
    have hml' := isChild_lt hc'
    simp only [List.length_append, List.length_cons, List.length_nil] at hml hml'
    rcases Nat.lt_or_ge m nodes.length with h | h <;> rcases Nat.lt_or_ge m' nodes.length with h' | h'
    · exact hs.parent j m m' hm hm' ((isChild_append _ h).1 hc) ((isChild_append _ h').1 hc')
    · obtain rfl : m' = nodes.length := by omega
      rw [isChild_last, ha, hb] at hc'
      exact absurd ((isChild_append _ h).1 hc) (hnot j m hm (by omega))
    · obtain rfl : m = nodes.length := by omega
      rw [isChild_last, ha, hb] at hc
      exact absurd ((isChild_append _ h').1 hc') (hnot j m' hm' (by omega))
    · omega
  · have hc : weightSum (pushedKeys nodes x y p2) = (mergedNode x y).weight.toNat + weightSum p2 := rfl
    rw [hc, hwt, hsum]; omega

/-! ## The merge loop -/

/-- R117: whatever one merge keeps, the loop keeps. -/
theorem mergeLoop_induct {motive : List Node → List Key → Prop}
    (merge : ∀ nodes p x p1 y p2, motive nodes p → takeLeast p = some (x, p1) → takeLeast p1 = some (y, p2) →
      motive (nodes ++ [mergedNode x y]) (pushedKeys nodes x y p2))
    (fuel : Nat) {nodes : List Node} {p : List Key} (h : motive nodes p) :
    motive (mergeLoop fuel nodes p).1 (mergeLoop fuel nodes p).2 := by
  induction fuel generalizing nodes p with
  | zero => exact h
  | succ fuel ih =>
    simp only [mergeLoop]
    split
    · exact h
    · next x p1 hx =>
      split
      · exact h
      · next y p2 hy => exact ih (merge nodes p x p1 y p2 h hx hy)

theorem takeLeast_length {p r : List Key} {x : Key} (h : takeLeast p = some (x, r)) : p.length = r.length + 1 := by
  simpa using (takeLeast_spec h).1.length_eq

/-- R117: one collection member fewer with each merge, so the loop ends with one. -/
theorem mergeLoop_length (fuel : Nat) {nodes : List Node} {p : List Key} (h1 : 1 ≤ p.length)
    (h : p.length ≤ fuel + 1) : (mergeLoop fuel nodes p).2.length = 1 := by
  induction fuel generalizing nodes p with
  | zero => simp only [mergeLoop]; omega
  | succ fuel ih =>
    simp only [mergeLoop]
    split
    · next hx => rw [takeLeast_eq_none] at hx; simp [hx] at h1
    · next x p1 hx =>
      have := takeLeast_length hx
      split
      · next hy => rw [takeLeast_eq_none] at hy; simp [hy] at this; omega
      · next y p2 hy =>
        have := takeLeast_length hy
        exact ih (by simp) (by simp; omega)

/-- R117: the two removed and what is left make up the collection; the first is less than every other member, the second
than every other but the first. -/
theorem takeLeast_two {p p1 p2 : List Key} {x y : Key} (hx : takeLeast p = some (x, p1))
    (hy : takeLeast p1 = some (y, p2)) :
    p.Perm (x :: y :: p2) ∧ (∀ k ∈ y :: p2, keyLess k x = false) ∧ ∀ k ∈ p2, keyLess k y = false := by
  obtain ⟨hp, hlx⟩ := takeLeast_spec hx
  obtain ⟨hq, hly⟩ := takeLeast_spec hy
  exact ⟨hp.trans (hq.cons x), fun k hk => hlx k (hq.mem_iff.2 hk), hly⟩

/-! ## The start -/

theorem positiveSymbols_length_le (freq : Vector Word 128) : (positiveSymbols freq).length ≤ 128 := by
  simpa [positiveSymbols] using List.length_filter_le (fun x : SymIx => decide (0 < freq[x].toNat)) (List.finRange 128)

theorem leafNode_weight (freq : Vector Word 128) (x : SymIx) : (leafNode freq x).weight.toNat = freq[x].toNat := by
  simp only [leafNode, BitVec.toNat_setWidth]
  have := freq[x].isLt
  omega

theorem initialKeys_idx (leaves : List Node) : (initialKeys leaves).map Key.idx = List.range leaves.length := by
  apply List.ext_getElem
  · simp [initialKeys]
  · intro i h1 h2; simp [initialKeys]

theorem mem_initialKeys {leaves : List Node} {k : Key} (h : k ∈ initialKeys leaves) :
    ∃ n, leaves[k.idx]? = some n ∧ n.weight = k.weight := by
  simp only [initialKeys, List.mem_map] at h
  obtain ⟨e, he, rfl⟩ := h
  exact ⟨e.1, by simpa using (List.mem_zipIdx_iff_getElem?.1 he), rfl⟩

theorem inKeys_initialKeys (leaves : List Node) (j : Nat) : inKeys (initialKeys leaves) j ↔ j < leaves.length := by
  have h : inKeys (initialKeys leaves) j ↔ j ∈ (initialKeys leaves).map Key.idx := by simp [inKeys]
  rw [h, initialKeys_idx, List.mem_range]

/-- R115, R116: before the first merge. -/
theorem mergeShape_start (freq : Vector Word 128) :
    MergeShape (leavesOf freq).length (leavesOf freq) (initialKeys (leavesOf freq)) := by
  have hk : ∀ n ∈ leavesOf freq, n.valid = true ∧ n.kind = .leaf := by
    intro n hn
    obtain ⟨x, _, rfl⟩ := List.mem_map.1 hn
    exact ⟨rfl, rfl⟩
  have hlt : ∀ i n, (leavesOf freq)[i]? = some n → i < (leavesOf freq).length := fun i n h =>
    (List.getElem?_eq_some_iff.1 h).1
  refine ⟨fun k => mem_initialKeys, ?_, ?_, fun n hn => (hk n hn).1, ?_, ?_, ?_, ?_⟩
  · rw [initialKeys_idx]; exact List.nodup_range
  · simp [initialKeys]; omega
  · intro i n h
    exact ⟨fun _ => hlt i n h, fun _ => (hk n (List.mem_of_getElem? h)).2⟩
  · intro i n h hl; have := hlt i n h; omega
  · intro j hj
    exact ⟨fun _ m hm hc => by have := isChild_lt hc; omega, fun _ => (inKeys_initialKeys _ j).2 hj⟩
  · intro j m m' hm _ hc; have := isChild_lt hc; omega

theorem weightSum_le {p : List Key} {b : Nat} (h : ∀ k ∈ p, k.weight.toNat ≤ b) : weightSum p ≤ p.length * b := by
  induction p with
  | nil => simp [weightSum]
  | cons k p ih =>
    have h1 := h k (by simp)
    have h2 := ih fun k hk => h k (by simp [hk])
    simp only [weightSum, List.map_cons, List.sum_cons, List.length_cons, Nat.succ_mul] at *
    omega

/-- R33 (a): 128 counts of 32 bits add up to less than 2^39. -/
theorem weightSum_start (freq : Vector Word 128) : weightSum (initialKeys (leavesOf freq)) < 2 ^ 39 := by
  have hb : ∀ k ∈ initialKeys (leavesOf freq), k.weight.toNat ≤ 2 ^ 32 - 1 := by
    intro k hk
    obtain ⟨n, hn, hw⟩ := mem_initialKeys hk
    obtain ⟨x, _, rfl⟩ := List.mem_map.1 (List.mem_of_getElem? hn)
    rw [← hw, leafNode_weight]
    have := freq[x].isLt
    omega
  have hl : (initialKeys (leavesOf freq)).length ≤ 128 := by
    simpa [initialKeys, leavesOf] using positiveSymbols_length_le freq
  have := weightSum_le hb
  omega

/-! ## The finished arena -/

/-- R117: the loop ends with the shape of a finished tree, whatever else each merge keeps. -/
theorem mergedTree_induct {freq : Vector Word 128} {motive : List Node → List Key → Prop}
    (start : motive (leavesOf freq) (initialKeys (leavesOf freq)))
    (merge : ∀ nodes p x p1 y p2, MergeShape (leavesOf freq).length nodes p → weightSum p < 2 ^ 39 → motive nodes p →
      takeLeast p = some (x, p1) → takeLeast p1 = some (y, p2) →
      motive (nodes ++ [mergedNode x y]) (pushedKeys nodes x y p2)) :
    MergeShape (leavesOf freq).length (mergedTree freq).1 (mergedTree freq).2 ∧
      motive (mergedTree freq).1 (mergedTree freq).2 := by
  have hl : (leavesOf freq).length ≤ 128 := by simpa [leavesOf] using positiveSymbols_length_le freq
  have h := mergeLoop_induct
    (motive := fun nodes p => (MergeShape (leavesOf freq).length nodes p ∧ (leavesOf freq).length ≤ nodes.length ∧
      weightSum p < 2 ^ 39) ∧ motive nodes p)
    (fun nodes p x p1 y p2 ⟨⟨hs, hlen, hw⟩, hm⟩ hx hy => by
      have ht := (takeLeast_two hx hy).1
      have hpl := ht.length_eq
      have hc := hs.count
      simp only [List.length_cons] at hpl
      obtain ⟨hs', hw'⟩ := mergeShape_step hs ht (by omega) hlen hw
      exact ⟨⟨hs', by simp; omega, by omega⟩, merge nodes p x p1 y p2 hs hw hm hx hy⟩)
    (leavesOf freq).length (nodes := leavesOf freq) (p := initialKeys (leavesOf freq))
    ⟨⟨mergeShape_start freq, Nat.le_refl _, weightSum_start freq⟩, start⟩
  exact ⟨h.1.1, h.2⟩

/-- R117: with at least one leaf, one member is left, the last entry made: ROOT = 2 x L - 2. -/
theorem mergedTree_root {freq : Vector Word 128} (h : positiveSymbols freq ≠ []) :
    ∃ r, (mergedTree freq).2 = [r] ∧ r.idx + 2 = 2 * (leavesOf freq).length ∧
      (mergedTree freq).1.length + 1 = 2 * (leavesOf freq).length := by
  have hl : 1 ≤ (leavesOf freq).length := by
    have := List.length_pos_of_ne_nil h
    simp only [leavesOf, List.length_map]; omega
  have hs := (mergedTree_induct (freq := freq) (motive := fun _ _ => True) trivial (by simp)).1
  have h1 : (mergedTree freq).2.length = 1 :=
    mergeLoop_length _ (by simp [initialKeys]; omega) (by simp [initialKeys])
  obtain ⟨r, hr⟩ := List.length_eq_one_iff.1 h1
  have hc := hs.count
  rw [h1] at hc
  refine ⟨r, hr, ?_, hc⟩
  have hlast : inKeys (mergedTree freq).2 ((mergedTree freq).1.length - 1) := by
    refine (hs.open_iff _ (by omega)).2 fun m hm ⟨n, hn, hab⟩ => ?_
    obtain ⟨ha, hb, -⟩ := hs.children m n hn hm
    have := (List.getElem?_eq_some_iff.1 hn).1
    omega
  obtain ⟨k, hk, hi⟩ := hlast
  rw [hr] at hk
  rw [List.mem_singleton.1 hk] at hi
  omega

end Sys2Proof.Machine
end

