-- ==== Sys2Proof/Laws/Optimal.lean ====
section
/-! SUPPORT. The cost of BUILD's tree (spec/41_builder.md R117, R127 (b)): it is the sum of the merged weights, and no
assignment of lengths that Kraft's inequality allows costs less. -/

namespace Sys2Proof.Machine

/-! ## Lengths for weights -/

/-- The cost of weights with lengths. -/
def lengthCost (q : List (Nat × Nat)) : Nat := (q.map fun e => e.1 * e.2).sum

/-- Kraft's inequality at scale `m`: no length exceeds `m`, and the parts of `2 ^ m` the lengths take fit. -/
def kraftAt (m : Nat) (q : List (Nat × Nat)) : Prop :=
  (∀ e ∈ q, e.2 ≤ m) ∧ (q.map fun e => 2 ^ (m - e.2)).sum ≤ 2 ^ m

theorem lengthCost_perm {q r : List (Nat × Nat)} (h : q.Perm r) : lengthCost q = lengthCost r := by
  simpa [lengthCost] using (h.map fun e => e.1 * e.2).sum_nat

theorem kraftAt_perm {m : Nat} {q r : List (Nat × Nat)} (h : q.Perm r) : kraftAt m q ↔ kraftAt m r := by
  unfold kraftAt
  rw [(h.map fun e => 2 ^ (m - e.2)).sum_nat]
  refine and_congr_left fun _ => ⟨fun h' e he => h' e (h.mem_iff.2 he), fun h' e he => h' e (h.mem_iff.1 he)⟩

theorem lengthCost_cons (w l : Nat) (q : List (Nat × Nat)) : lengthCost ((w, l) :: q) = w * l + lengthCost q := by
  simp [lengthCost]

/-- A weight of the list has a length, and the rest keeps the rest. -/
theorem exists_length {q : List (Nat × Nat)} {w : Nat} {ws : List Nat} (h : (q.map Prod.fst).Perm (w :: ws)) :
    ∃ l r, q.Perm ((w, l) :: r) ∧ (r.map Prod.fst).Perm ws := by
  obtain ⟨⟨w', l⟩, he, rfl⟩ := List.mem_map.1 (h.mem_iff.2 (List.mem_cons_self (a := w) (l := ws)))
  have hp := List.perm_cons_erase he
  exact ⟨l, q.erase (w', l), hp, ((hp.map Prod.fst).symm.trans h).cons_inv⟩

/-- The exchange: the least weight can take the greatest length at no cost. -/
theorem exchange {w l : Nat} {q : List (Nat × Nat)} (hw : ∀ e ∈ q, w ≤ e.1) :
    ∃ m r, (∀ e ∈ r, e.2 ≤ m) ∧ (r.map Prod.fst).Perm (q.map Prod.fst) ∧
      ((m :: r.map Prod.snd).Perm (l :: q.map Prod.snd)) ∧
      lengthCost ((w, m) :: r) ≤ lengthCost ((w, l) :: q) := by
  induction q generalizing l with
  | nil => exact ⟨l, [], by simp, by simp, by simp, Nat.le_refl _⟩
  | cons e q ih =>
    obtain ⟨u, k⟩ := e
    have hwu : w ≤ u := hw _ List.mem_cons_self
    have hwq : ∀ e ∈ q, w ≤ e.1 := fun e he => hw e (List.mem_cons_of_mem _ he)
    obtain ⟨m, r, hm, hf, hs, hc⟩ := ih (l := l) hwq
    by_cases hk : k ≤ m
    · refine ⟨m, (u, k) :: r, by simpa [hk] using hm, hf.cons u, ?_, ?_⟩
      · exact ((List.Perm.swap _ _ _).trans (hs.cons k)).trans (List.Perm.swap _ _ _)
      · simp only [lengthCost_cons] at *; omega
    · refine ⟨k, (u, m) :: r, ?_, hf.cons u, ?_, ?_⟩
      · intro e he
        rcases List.mem_cons.1 he with rfl | he
        · show m ≤ k; omega
        · have := hm e he; omega
      · exact (hs.cons k).trans (List.Perm.swap _ _ _)
      · simp only [lengthCost_cons] at *
        have h1 : w * k + u * m ≤ w * m + u * k := by
          obtain ⟨d, rfl⟩ := Nat.exists_eq_add_of_le hwu
          obtain ⟨c, rfl⟩ := Nat.exists_eq_add_of_le (Nat.le_of_not_le hk)
          ring_nf
          omega
        omega

/-- Kraft's inequality speaks of the lengths alone. -/
theorem kraftAt_of_lengths {m : Nat} {q r : List (Nat × Nat)} (h : (q.map Prod.snd).Perm (r.map Prod.snd)) :
    kraftAt m q ↔ kraftAt m r := by
  have key : ∀ q : List (Nat × Nat), kraftAt m q ↔
      (∀ l ∈ q.map Prod.snd, l ≤ m) ∧ ((q.map Prod.snd).map fun l => 2 ^ (m - l)).sum ≤ 2 ^ m := fun q => by
    rw [List.map_map]
    unfold kraftAt
    simp only [List.forall_mem_map]
    rfl
  rw [key, key, (h.map fun l => 2 ^ (m - l)).sum_nat]
  exact and_congr_left fun _ => ⟨fun h' e he => h' e (h.mem_iff.2 he), fun h' e he => h' e (h.mem_iff.1 he)⟩

/-- Two least weights can be merged: whatever lengths the weights have, there are lengths for the collection after the
merge that Kraft's inequality allows and that save the two weights. -/
theorem merge_bound {q : List (Nat × Nat)} {a b m : Nat} {ws : List Nat} (hq : (q.map Prod.fst).Perm (a :: b :: ws))
    (ha : ∀ w ∈ b :: ws, a ≤ w) (hb : ∀ w ∈ ws, b ≤ w) (hk : kraftAt m q) :
    ∃ q' m', (q'.map Prod.fst).Perm ((a + b) :: ws) ∧ kraftAt m' q' ∧ lengthCost q' + (a + b) ≤ lengthCost q := by
  obtain ⟨la, r, hqr, hr⟩ := exists_length hq
  obtain ⟨m1, r1, hm1, hf1, hs1, hc1⟩ := exchange (w := a) (l := la) (q := r)
    (fun e he => ha _ (hr.mem_iff.1 (List.mem_map_of_mem he)))
  obtain ⟨lb, r2, hr12, hr2⟩ := exists_length (hf1.trans hr)
  obtain ⟨m2, r3, hm3, hf3, hs3, hc3⟩ := exchange (w := b) (l := lb) (q := r2)
    (fun e he => hb _ (hr2.mem_iff.1 (List.mem_map_of_mem he)))
  have hlen : ((a, m1) :: (b, m2) :: r3).map Prod.snd |>.Perm (q.map Prod.snd) := by
    refine List.Perm.trans ?_ (hqr.map Prod.snd).symm
    refine List.Perm.trans ?_ hs1
    exact (hs3.trans (hr12.map Prod.snd).symm).cons m1
  have hcost : lengthCost ((a, m1) :: (b, m2) :: r3) ≤ lengthCost q := by
    rw [lengthCost_perm hqr]
    refine Nat.le_trans ?_ hc1
    rw [lengthCost_cons, lengthCost_cons a m1 r1, lengthCost_perm hr12]
    omega
  have hm2 : m2 ≤ m1 := by
    have : m2 ∈ lb :: r2.map Prod.snd := hs3.mem_iff.1 List.mem_cons_self
    have : m2 ∈ r1.map Prod.snd := (hr12.map Prod.snd).mem_iff.2 this
    obtain ⟨e, he, rfl⟩ := List.mem_map.1 this
    exact hm1 e he
  have hk1 : kraftAt m ((a, m1) :: (b, m2) :: r3) := (kraftAt_of_lengths hlen).2 hk
  -- at scale m2 the two lengths take one part each, and the others fit beside them
  have hk2 : 2 + (r3.map fun e => 2 ^ (m2 - e.2)).sum ≤ 2 ^ m2 := by
    obtain ⟨hle, hsum⟩ := hk1
    have h1 : m1 ≤ m := hle (a, m1) (by simp)
    have hscale : ∀ k, m2 ≤ k → (r3.map fun e => 2 ^ (k - e.2)).sum =
        2 ^ (k - m2) * (r3.map fun e => 2 ^ (m2 - e.2)).sum := by
      intro k hk
      rw [← List.sum_map_mul_left]
      congr 1
      refine List.map_congr_left fun e he => ?_
      have := hm3 e he
      rw [← Nat.pow_add]
      congr 1
      omega
    simp only [List.map_cons, List.sum_cons] at hsum
    rw [hscale m (by omega)] at hsum
    have e1 : 2 ^ m = 2 ^ (m - m2) * 2 ^ m2 := by rw [← Nat.pow_add]; congr 1; omega
    have e2 : 0 < 2 ^ (m - m1) := Nat.two_pow_pos _
    generalize (r3.map fun e => 2 ^ (m2 - e.2)).sum = S at *
    rw [e1] at hsum
    by_cases hmm : m1 = m2
    · subst hmm
      have : 2 ^ (m - m1) * (2 + S) ≤ 2 ^ (m - m1) * 2 ^ m1 := by rw [Nat.mul_add]; omega
      exact Nat.le_of_mul_le_mul_left this e2
    · have : 2 ^ (m - m2) * (1 + S) < 2 ^ (m - m2) * 2 ^ m2 := by rw [Nat.mul_add]; omega
      have := Nat.lt_of_mul_lt_mul_left this
      omega
  have hpos : 1 ≤ m2 := by
    rcases Nat.eq_zero_or_pos m2 with h | h
    · subst h; simp at hk2; omega
    · exact h
  refine ⟨(a + b, m2 - 1) :: r3, m2, ?_, ⟨?_, ?_⟩, ?_⟩
  · exact (hf3.trans hr2).cons (a + b)
  · intro e he
    rcases List.mem_cons.1 he with rfl | he
    · exact Nat.sub_le _ _
    · exact hm3 e he
  · rw [List.map_cons, List.sum_cons]
    show 2 ^ (m2 - (m2 - 1)) + _ ≤ _
    rw [show m2 - (m2 - 1) = 1 by omega]
    exact hk2
  · refine Nat.le_trans ?_ hcost
    simp only [lengthCost_cons]
    have h1 : a * m2 ≤ a * m1 := Nat.mul_le_mul_left a hm2
    have h2 : (a + b) * (m2 - 1) + (a + b) = a * m2 + b * m2 := by
      obtain ⟨k, rfl⟩ := Nat.exists_eq_add_of_le hpos
      rw [Nat.add_sub_cancel_left]; ring
    omega

/-! ## The merges of BUILD -/

/-- The weights of a collection. -/
def keyWeights (p : List Key) : List Nat := p.map fun k => k.weight.toNat

/-- The sum of the weights of the entries from `l` on: of the internal ones. -/
def mergedWeight (l : Nat) (nodes : List Node) : Nat := ((nodes.drop l).map fun n => n.weight.toNat).sum

theorem mergedWeight_append {l : Nat} {nodes : List Node} (x : Node) (h : l ≤ nodes.length) :
    mergedWeight l (nodes ++ [x]) = mergedWeight l nodes + x.weight.toNat := by
  simp [mergedWeight, List.drop_append_of_le_length h]

theorem mergedNode_weight {p p2 : List Key} {x y : Key} (hp : p.Perm (x :: y :: p2))
    (hw : weightSum p < 2 ^ 39) : (mergedNode x y).weight.toNat = x.weight.toNat + y.weight.toNat := by
  have hsum : weightSum p = x.weight.toNat + (y.weight.toNat + weightSum p2) := by
    simp only [weightSum, (hp.map _).sum_nat, List.map_cons, List.sum_cons]
  simp only [mergedNode, BitVec.toNat_add]
  omega

theorem keyWeight_le {p q : Key} (h : keyLess q p = false) : p.weight.toNat ≤ q.weight.toNat := by
  rw [← Bool.not_eq_true, keyLess_iff] at h; omega

/-- R127 (b): no lengths that Kraft's inequality allows cost less than the sum of the merged weights. -/
theorem mergedTree_lower_bound (freq : Vector Word 128) {q : List (Nat × Nat)} {m : Nat}
    (hq : (q.map Prod.fst).Perm ((leavesOf freq).map fun n => n.weight.toNat)) (hk : kraftAt m q) :
    mergedWeight (leavesOf freq).length (mergedTree freq).1 ≤ lengthCost q := by
  have start : keyWeights (initialKeys (leavesOf freq)) = (leavesOf freq).map fun n => n.weight.toNat := by
    apply List.ext_getElem
    · simp [keyWeights, initialKeys]
    · intro i h1 h2; simp [keyWeights, initialKeys]
  have h := (mergedTree_induct (freq := freq) (motive := fun nodes p => (leavesOf freq).length ≤ nodes.length ∧
    ∃ q' m', (q'.map Prod.fst).Perm (keyWeights p) ∧ kraftAt m' q' ∧
      lengthCost q' + mergedWeight (leavesOf freq).length nodes ≤ lengthCost q) ?_ ?_).2
  · obtain ⟨-, q', m', -, -, h⟩ := h; omega
  · exact ⟨Nat.le_refl _, q, m, by rw [start]; exact hq, hk, by simp [mergedWeight]⟩
  · rintro nodes p x p1 y p2 - hw ⟨hl, q', m', hq', hk', hc⟩ hx hy
    obtain ⟨hp, hlx, hly⟩ := takeLeast_two hx hy
    obtain ⟨q'', m'', h1, h2, h3⟩ := merge_bound (a := x.weight.toNat) (b := y.weight.toNat) (ws := keyWeights p2)
      (hq'.trans (hp.map _))
      (fun w hm => by
        obtain ⟨k, hk, rfl⟩ := List.mem_map.1 (show w ∈ (y :: p2).map fun k => k.weight.toNat from hm)
        exact keyWeight_le (hlx k hk))
      (fun w hm => by
        obtain ⟨k, hk, rfl⟩ := List.mem_map.1 hm
        exact keyWeight_le (hly k hk)) hk'
    have hwt := mergedNode_weight hp hw
    refine ⟨by simp; omega, q'', m'', ?_, h2, ?_⟩
    · simpa [keyWeights, pushedKeys, hwt] using h1
    · rw [mergedWeight_append _ hl, hwt]; omega

/-- R118: where every child lies one deeper than its parent, the leaves' weights times their depths add up to the merged
weights and the root's share. -/
theorem mergedTree_cost (freq : Vector Word 128) (depth : Nat → Nat)
    (hd : ∀ i n, (mergedTree freq).1[i]? = some n → (leavesOf freq).length ≤ i →
      depth n.a.toNat = depth i + 1 ∧ depth n.b.toNat = depth i + 1) :
    ((leavesOf freq).zipIdx.map fun e => e.1.weight.toNat * depth e.2).sum =
      ((mergedTree freq).2.map fun k => k.weight.toNat * depth k.idx).sum +
        mergedWeight (leavesOf freq).length (mergedTree freq).1 := by
  refine (mergedTree_induct (freq := freq) (motive := fun nodes p =>
    ((leavesOf freq).length ≤ nodes.length ∧ nodes.length ≤ 256) ∧
    ((∀ i n, nodes[i]? = some n → (leavesOf freq).length ≤ i →
      depth n.a.toNat = depth i + 1 ∧ depth n.b.toNat = depth i + 1) →
    ((leavesOf freq).zipIdx.map fun e => e.1.weight.toNat * depth e.2).sum =
      (p.map fun k => k.weight.toNat * depth k.idx).sum + mergedWeight (leavesOf freq).length nodes)) ?_ ?_).2.2 hd
  · have hl : (leavesOf freq).length ≤ 128 := by simpa [leavesOf] using positiveSymbols_length_le freq
    refine ⟨⟨Nat.le_refl _, by omega⟩, fun _ => ?_⟩
    simp only [mergedWeight, List.drop_length, List.map_nil, List.sum_nil, Nat.add_zero, initialKeys, List.map_map]
    rfl
  · rintro nodes p x p1 y p2 hs hw ⟨⟨hl, hl'⟩, ih⟩ hx hy
    obtain ⟨hp, -, -⟩ := takeLeast_two hx hy
    have hwt := mergedNode_weight hp hw
    have hc := hs.count
    have hl128 : (leavesOf freq).length ≤ 128 := by simpa [leavesOf] using positiveSymbols_length_le freq
    have hpl : p.length = p2.length + 2 := by simpa using hp.length_eq
    refine ⟨⟨by simp; omega, by simp; omega⟩, fun hd => ?_⟩
    have hlt : ∀ k ∈ p, k.idx < nodes.length := fun k hk => by
      obtain ⟨e, he, -⟩ := hs.keys k hk
      exact (List.getElem?_eq_some_iff.1 he).1
    have hxl := hlt x (hp.mem_iff.2 (by simp))
    have hyl := hlt y (hp.mem_iff.2 (by simp))
    have hlast := hd nodes.length (mergedNode x y) (by simp) hl
    have ha : (mergedNode x y).a.toNat = x.idx := by simp [mergedNode]; omega
    have hb : (mergedNode x y).b.toNat = y.idx := by simp [mergedNode]; omega
    rw [ha, hb] at hlast
    rw [ih fun i n hi hli => hd i n (getElem?_append_of_some hi) hli, mergedWeight_append _ hl,
      (hp.map _).sum_nat]
    simp only [pushedKeys, List.map_cons, List.sum_cons, hwt, hlast.1, hlast.2]
    ring

end Sys2Proof.Machine
end

