-- ==== Sys2Proof/Laws/PerInstr.lean ====
section
/-! SUPPORT. One fact per command: the fields of its word (spec/30_encoding.md R81, R83, R85). -/

namespace Sys2Proof.Laws.EncodedFields

open Sys2Proof

/-- R81: the word of a command whose operands fit has the command's OP, A and K in their places and 0 in RSV. -/
def Statement (i : Instr) : Prop :=
  i.wellFormed = true →
    fieldOp (encode i) = i.op ∧ fieldA (encode i) = i.operandA ∧ fieldK (encode i) = i.operandK ∧ fieldRsv (encode i) = 0

theorem of_wellFormed (i : Instr) : Statement i := by
  intro h
  obtain ⟨ha, hk⟩ := Instr.wellFormed_bounds h
  rw [encode_eq_wordOf]
  refine ⟨fieldOp_wordOf _ _ _ _, ?_, ?_, fieldRsv_wordOf _ _ _ _⟩
  · rw [fieldA_wordOf, BitVec.toNat_ofNat]; omega
  · rw [fieldK_wordOf, BitVec.toNat_ofNat]; omega

theorem nop : Statement .nop := of_wellFormed _
theorem clr : Statement .clr := of_wellFormed _
theorem freqWr (a : Nat) : Statement (.freqWr a) := of_wellFormed _
theorem freqRd (a : Nat) : Statement (.freqRd a) := of_wellFormed _
theorem build : Statement .build := of_wellFormed _
theorem treeInfo : Statement .treeInfo := of_wellFormed _
theorem nodeRd (a : Nat) : Statement (.nodeRd a) := of_wellFormed _
theorem nodeWr (a : Nat) : Statement (.nodeWr a) := of_wellFormed _
theorem rootWr : Statement .rootWr := of_wellFormed _
theorem codeRd (a k : Nat) : Statement (.codeRd a k) := of_wellFormed _
theorem codeWr (a k : Nat) : Statement (.codeWr a k) := of_wellFormed _
theorem codeLenWr (a : Nat) : Statement (.codeLenWr a) := of_wellFormed _
theorem encSym (a : Nat) : Statement (.encSym a) := of_wellFormed _
theorem encFlush : Statement .encFlush := of_wellFormed _
theorem encReset : Statement .encReset := of_wellFormed _
theorem outPop : Statement .outPop := of_wellFormed _
theorem encInfo : Statement .encInfo := of_wellFormed _
theorem decWord (a : Nat) : Statement (.decWord a) := of_wellFormed _
theorem decEnd : Statement .decEnd := of_wellFormed _
theorem decReset : Statement .decReset := of_wellFormed _
theorem symPop : Statement .symPop := of_wellFormed _
theorem decInfo : Statement .decInfo := of_wellFormed _

end Sys2Proof.Laws.EncodedFields
end

