-- ==== Sys2Proof/Laws/Procedures.lean ====
section
/-! SUPPORT. What a run of the encode and of the decode procedure does, once for all runs, however the host pops and retries
(spec/42_encoder.md R156, spec/43_decoder.md R176). -/

namespace Sys2Proof.Machine

/-! ## Pops -/

theorem execOutPop_of_ok {s u : State} (h : exec .outPop s = .next u) (hok : u.err = .ok) :
    ∃ e rest, s.outq = e :: rest ∧ ({ data := u.res0, nbits := u.res1.setWidth 6 } : OutEntry) = e ∧
      u = { s with outq := rest, res0 := u.res0, res1 := u.res1, err := .ok, errInfo := 0 } := by
  simp only [exec, execOutPop] at h
  cases hq : s.outq with
  | nil => simp only [hq, raise_eq_next_iff] at h; subst h; cases hok
  | cons e rest =>
    simp only [hq, done_eq_next_iff] at h
    subst h
    refine ⟨e, rest, rfl, ?_, rfl⟩
    have : (e.nbits.setWidth 32).setWidth 6 = e.nbits := by apply BitVec.eq_of_toNat_eq; simp
    show ({ data := e.data, nbits := (e.nbits.setWidth 32).setWidth 6 } : OutEntry) = e
    rw [this]

theorem execOutPop_of_empty {s u : State} (h : exec .outPop s = .next u) (he : u.err = .fifoEmpty) :
    s.outq = [] ∧ u = { s with err := .fifoEmpty, errInfo := 0 } := by
  simp only [exec, execOutPop] at h
  split at h
  · next hq => rw [raise_eq_next_iff] at h; exact ⟨hq, h⟩
  · rw [done_eq_next_iff] at h; subst h; cases he

theorem execSymPop_of_ok {s u : State} (h : exec .symPop s = .next u) (hok : u.err = .ok) :
    ∃ x rest, s.symq = x :: rest ∧ u.res0.setWidth 7 = x ∧
      u = { s with symq := rest, res0 := u.res0, res1 := u.res1, err := .ok, errInfo := 0 } := by
  simp only [exec, execSymPop] at h
  cases hq : s.symq with
  | nil => simp only [hq, raise_eq_next_iff] at h; subst h; cases hok
  | cons x rest =>
    simp only [hq, done_eq_next_iff] at h
    subst h
    refine ⟨x, rest, rfl, ?_, rfl⟩
    show (x.setWidth 32).setWidth 7 = x
    apply BitVec.eq_of_toNat_eq; simp

theorem execSymPop_of_empty {s u : State} (h : exec .symPop s = .next u) (he : u.err = .fifoEmpty) :
    s.symq = [] ∧ u = { s with err := .fifoEmpty, errInfo := 0 } := by
  simp only [exec, execSymPop] at h
  split at h
  · next hq => rw [raise_eq_next_iff] at h; exact ⟨hq, h⟩
  · rw [done_eq_next_iff] at h; subst h; cases he

/-! ## Encode -/

/-- The codeword an encoder command appends. -/
def codewordOf (code : Vector Code 128) : Instr → List Bool
  | .encSym a => if h : a < 128 then codeword code[a] else []
  | _ => []

/-- What an encoder command does to the packing registers, OUTQ never being read. -/
def packInstr (code : Vector Code 128) (p : Packer) : Instr → Packer
  | .encFlush =>
    if p.fill = 0 then p
    else { pack := 0, fill := 0, outq := p.outq ++ [{ data := p.pack, nbits := BitVec.ofNat 6 p.fill }] }
  | i => packBits p (codewordOf code i)

@[simp] theorem packInstr_encFlush_fill (code : Vector Code 128) (p : Packer) :
    (packInstr code p .encFlush).fill = 0 := by
  show (if p.fill = 0 then p else _).fill = 0
  split
  · assumption
  · rfl

/-- The commands of R156's sequence after ENC_RESET. -/
def EncoderOnly (is : List Instr) : Prop := ∀ i ∈ is, (∃ a, i = .encSym a) ∨ i = .encFlush

/-- The packing registers with entries before those of OUTQ. -/
def Packer.after (ws : List OutEntry) (p : Packer) : Packer := { p with outq := ws ++ p.outq }

theorem packBits_after (ws : List OutEntry) (bits : List Bool) (p : Packer) :
    packBits (p.after ws) bits = (packBits p bits).after ws := by
  induction bits generalizing p with
  | nil => rfl
  | cons b bits ih =>
    have : packBit (p.after ws) b = (packBit p b).after ws := by
      unfold packBit Packer.after; split <;> simp [*]
    show packBits (packBit (p.after ws) b) bits = _
    rw [this, ih]; rfl

theorem packInstr_after (code : Vector Code 128) (ws : List OutEntry) (p : Packer) (i : Instr) :
    packInstr code (p.after ws) i = (packInstr code p i).after ws := by
  cases i <;> try exact packBits_after ws _ p
  show packInstr code (p.after ws) .encFlush = _
  unfold packInstr Packer.after; dsimp only; split <;> simp

theorem foldl_packInstr_after (code : Vector Code 128) (ws : List OutEntry) (is : List Instr) (p : Packer) :
    is.foldl (packInstr code) (p.after ws) = (is.foldl (packInstr code) p).after ws := by
  induction is generalizing p with
  | nil => rfl
  | cons i is ih => rw [List.foldl_cons, packInstr_after, ih]; rfl

/-- R151, R152: an encoder command that ends with OK. -/
theorem execEncoder_of_ok {i : Instr} {s u : State} (hi : (∃ a, i = .encSym a) ∨ i = .encFlush)
    (h : exec i s = .next u) (hok : u.err = .ok) :
    packerOf u = packInstr s.code (packerOf s) i ∧ streamBits u = streamBits s ++ codewordOf s.code i ∧
    u.encTotal.toNat = (s.encTotal.toNat + (codewordOf s.code i).length) % 2 ^ 32 ∧
    (∀ a, i = .encSym a → ∃ h : a < 128, s.code[a].len ≠ 0) ∧
    u = { s with pack := u.pack, fill := u.fill, encTotal := u.encTotal, outq := u.outq, res0 := u.res0, res1 := u.res1,
                 err := .ok, errInfo := 0 } := by
  rcases exec_inversion h with ⟨e, n, _, hne, _, rfl, _⟩ | ⟨_, _, rfl⟩ | ⟨v, rfl, hv⟩
  · exact absurd hok hne
  · cases hok
  · rcases hi with ⟨a, rfl⟩ | rfl
    · obtain ⟨ha, r0, r1, hl, _, rfl⟩ := hv
      obtain ⟨h1, h2, -⟩ := appendCode_spec (s.readCode ⟨a, ha⟩) s
      have hc : codewordOf s.code (.encSym a) = codeword (s.readCode ⟨a, ha⟩) := by simp [codewordOf, ha]; rfl
      refine ⟨?_, by rw [hc]; exact h1, ?_, ?_, rfl⟩
      · have hp : packerOf (appendCode (s.readCode ⟨a, ha⟩) s) = packBits (packerOf s) (codeword (s.readCode ⟨a, ha⟩)) := by
          obtain ⟨-, hf, -⟩ := packBits_spec (codeword (s.readCode ⟨a, ha⟩)) (packerOf s) s.fill.isLt
          rw [length_codeword] at hf
          show Packer.mk _ (appendCode (s.readCode ⟨a, ha⟩) s).fill.toNat _ = _
          rw [h2]
          exact congrArg (Packer.mk _ · _) hf.symm
        exact hp.trans (by rw [packInstr, hc]; simp)
      · rw [hc, length_codeword]
        show (s.encTotal + (s.readCode ⟨a, ha⟩).len.setWidth 32).toNat = _
        simp
      · rintro b hb; cases hb; exact ⟨ha, hl⟩
    · rcases hv with ⟨h0, rfl⟩ | ⟨h0, _, rfl⟩
      · refine ⟨?_, by simp [codewordOf]; rfl, ?_, by simp, rfl⟩
        · have : s.fill.toNat = 0 := by rw [h0]; rfl
          simp [packInstr, packerOf, this]
        · exact (Nat.mod_eq_of_lt s.encTotal.isLt).symm
      · have hf : s.fill.toNat ≠ 0 := fun h => h0 (BitVec.eq_of_toNat_eq h)
        have hw : s.fill.setWidth 6 = BitVec.ofNat 6 s.fill.toNat := by apply BitVec.eq_of_toNat_eq; simp
        refine ⟨?_, ?_, ?_, by simp, rfl⟩
        · show Packer.mk 0 0 (s.outq ++ [_]) = if s.fill.toNat = 0 then _ else _
          rw [if_neg hf, hw]; rfl
        · have : (s.fill.setWidth 6).toNat = s.fill.toNat := by have := s.fill.isLt; simp; omega
          show queueBits (s.outq ++ [_]) ++ leadingBits 0 0 = _
          simp [streamBits, codewordOf, queueBits, entryBits, this]
        · exact (Nat.mod_eq_of_lt s.encTotal.isLt).symm

/-- A run: the commands sent are the first of its commands, all their symbols known; the words popped and the packing
registers left are together what the commands make of the registers before. -/
theorem encodeRun_spec {is left : List Instr} {s t : State} {ws : List OutEntry} (h : EncodeRun is s ws left t)
    (hi : EncoderOnly is) :
    ∃ sent, is = sent ++ left ∧
      (packerOf t).after ws = sent.foldl (packInstr s.code) (packerOf s) ∧
      queueBits ws ++ streamBits t = streamBits s ++ sent.flatMap (codewordOf s.code) ∧
      t.encTotal.toNat = (s.encTotal.toNat + (sent.flatMap (codewordOf s.code)).length) % 2 ^ 32 ∧
      (∀ a, .encSym a ∈ sent → ∃ h : a < 128, s.code[a].len ≠ 0) ∧
      t = { s with pack := t.pack, fill := t.fill, encTotal := t.encTotal, outq := t.outq, res0 := t.res0,
                   res1 := t.res1, err := t.err, errInfo := t.errInfo } := by
  induction h with
  | done left s => exact ⟨[], rfl, rfl, by simp [queueBits], by have := s.encTotal.isLt; simp; omega, by simp, rfl⟩
  | @issue i is left s u t ws hu hok _ ih =>
    obtain ⟨sent, rfl, h1, h2, h3, h4, h5⟩ := ih fun j hj => hi j (List.mem_cons_of_mem _ hj)
    obtain ⟨e1, e2, e3, e4, e5⟩ := execEncoder_of_ok (hi i List.mem_cons_self) hu hok
    have hc : u.code = s.code := by rw [e5]
    rw [hc] at h1 h2 h3 h4
    refine ⟨i :: sent, rfl, by rw [h1, e1]; rfl, by rw [h2, e2, List.flatMap_cons, List.append_assoc], ?_, ?_, ?_⟩
    · rw [h3, e3, List.flatMap_cons, List.length_append]; omega
    · intro a ha
      rcases List.mem_cons.1 ha with ha | ha
      · exact e4 a ha.symm
      · exact h4 a ha
    · rw [h5, e5]
  | @retry i is left s u t ws hu hf _ ih =>
    obtain ⟨sent, h0, h1, h2, h3, h4, h5⟩ := ih hi
    rcases exec_inversion hu with ⟨e, n, _, _, _, rfl, _⟩ | ⟨_, _, rfl⟩ | ⟨v, rfl, _⟩
    · exact ⟨sent, h0, h1, h2, h3, h4, h5⟩
    · cases hf
    · cases hf
  | @pop is left s u t ws hu hok _ ih =>
    obtain ⟨sent, h0, h1, h2, h3, h4, h5⟩ := ih hi
    obtain ⟨e, rest, hq, he, hs⟩ := execOutPop_of_ok hu hok
    rw [he]
    have hc : u.code = s.code := by rw [hs]
    have hp : packerOf s = (packerOf u).after [e] := by
      rw [hs]; show packerOf s = { pack := s.pack, fill := s.fill.toNat, outq := [e] ++ rest }; rw [packerOf, hq]; rfl
    have hst : streamBits s = entryBits e ++ streamBits u := by
      rw [hs]; show queueBits s.outq ++ _ = _ ++ (queueBits rest ++ _); rw [hq]; simp [queueBits]
    rw [hc] at h1 h2 h3 h4
    refine ⟨sent, h0, ?_, ?_, by rw [h3, hs], h4, by rw [h5, hs]⟩
    · rw [hp, foldl_packInstr_after, ← h1]; rfl
    · rw [hst, List.append_assoc, ← h2]; simp [queueBits]
  | @empty is left s u t ws hu he _ ih =>
    obtain ⟨-, rfl⟩ := execOutPop_of_empty hu he
    exact ih hi

/-- The host can always pop until OUTQ is empty. -/
theorem exists_encodeRun_emptied (q : List OutEntry) : ∀ s : State, s.outq = q → ∃ ws u,
    (∀ is ws' left t, EncodeRun is u ws' left t → EncodeRun is s (ws ++ ws') left t) ∧ u.outq = [] ∧
    u.code = s.code ∧ u.cfg = s.cfg := by
  induction q with
  | nil => intro s h; exact ⟨[], s, fun _ _ _ _ h => h, h, rfl, rfl⟩
  | cons e rest ih =>
    intro s h
    have hp : exec .outPop s = done (State.withResults e.data (e.nbits.setWidth 32) { s with outq := rest }) := by
      simp only [exec, execOutPop, h]
    obtain ⟨ws, u, h1, h2, h3, h4⟩ :=
      ih ((State.withResults e.data (e.nbits.setWidth 32) { s with outq := rest }).withStatus .ok 0) rfl
    exact ⟨_ :: ws, u, fun is ws' left t hr => .pop hp rfl (h1 is ws' left t hr), h2, h3, h4⟩

/-! ## Decode -/

/-- A run: the walk from the cursor over the bits of the words accepted, the first of its words, ends at the cursor left,
and the symbols popped and those left are together the symbols before and the walk's. -/
theorem decodeRun_spec {ws left : List OutEntry} {s t : State} {out : List Symbol} (h : DecodeRun ws s out left t) :
    ∃ sent syms, ws = sent ++ left ∧ walkBits s.node s.root s.decCur (queueBits sent) = some (t.decCur, syms) ∧
      s.symq ++ syms = out ++ t.symq ∧
      t = { s with arg := t.arg, decCur := t.decCur, symq := t.symq, res0 := t.res0, res1 := t.res1, err := t.err,
                   errInfo := t.errInfo } := by
  induction h with
  | done left s => exact ⟨[], [], rfl, rfl, by simp, rfl⟩
  | @issue e ws left s u t out hu hok _ ih =>
    obtain ⟨sent, syms, rfl, h1, h2, h3⟩ := ih
    rcases exec_inversion hu with ⟨_, _, _, hne, _, rfl, _⟩ | ⟨h, _⟩ | ⟨v, rfl, cur, q, m, hv, rfl⟩
    · exact absurd hok hne
    · cases h
    · obtain ⟨o, ho, rfl⟩ := walkBits_of_decBits _ _ _ _ _ _ _ _ hv
      refine ⟨e :: sent, o ++ syms, rfl, ?_, by rw [← List.append_assoc]; exact h2, h3⟩
      show walkBits s.node s.root s.decCur (entryBits e ++ queueBits sent) = _
      change walkBits s.node s.root s.decCur (entryBits e) = _ at ho
      change walkBits s.node s.root cur (queueBits sent) = _ at h1
      rw [walkBits_append, ho]
      simp [h1]
  | @retry e ws left s u t out hu hf _ ih =>
    rcases exec_inversion hu with ⟨_, _, _, _, _, rfl, _⟩ | ⟨h, _⟩ | ⟨v, rfl, _⟩
    · exact ih
    · cases h
    · cases hf
  | @pop ws left s u t out hu hok _ ih =>
    obtain ⟨x, rest, hq, hx, hs⟩ := execSymPop_of_ok hu hok
    obtain ⟨sent, syms, h0, h1, h2, h3⟩ := ih
    rw [hs] at h1
    refine ⟨sent, syms, h0, h1, ?_, by rw [h3, hs]⟩
    rw [hx, hq]
    rw [hs] at h2
    exact congrArg (x :: ·) h2
  | @empty ws left s u t out hu he _ ih =>
    obtain ⟨-, rfl⟩ := execSymPop_of_empty hu he
    exact ih

/-- R172, R204: DEC_END brings the cursor to the root and reports whether it was there; it changes nothing else. -/
theorem execDecEnd_spec {s t : State} (h : exec .decEnd s = .next t) :
    t.err = (if s.decCur = s.root then .ok else .truncatedStream) ∧
    t = { s with decCur := s.root, err := t.err, errInfo := 0 } := by
  rcases execDecEnd_cases s with ⟨hc, e⟩ | ⟨hc, e⟩ <;> rw [exec, e] at h
  · rw [done_eq_next_iff] at h; subst h
    exact ⟨(if_pos hc).symm, congrArg (fun c => ({ s with decCur := c, err := .ok, errInfo := 0 } : State)) hc⟩
  · rw [report_eq_next_iff] at h; subst h
    exact ⟨(if_neg hc).symm, rfl⟩

/-- A run over all the words from DEC_RESET, with what SYMQ still holds, and DEC_END after it: the walk from the root over
the words' bits gives the symbols and decides how DEC_END ends. -/
theorem decEnd_of_decodeRun {ws : List OutEntry} {s r u v d : State} {out : List Symbol}
    (hr : exec .decReset s = .next r) (hrun : DecodeRun ws r out [] u) (hv : v.decCur = u.decCur ∧ v.root = u.root)
    (hd : exec .decEnd v = .next d) :
    ∃ cur, walkBits s.node s.root s.root (queueBits ws) = some (cur, out ++ u.symq) ∧
      d.err = if cur = s.root then .ok else .truncatedStream := by
  obtain ⟨sent, syms, h0, h1, h2, h3⟩ := decodeRun_spec hrun
  rw [List.append_nil] at h0; subst h0
  simp only [exec, execDecReset, done_eq_next_iff] at hr; subst hr
  have hu : u.root = s.root := by rw [h3]; rfl
  refine ⟨u.decCur, h1.trans (by rw [← h2]; rfl), ?_⟩
  rw [(execDecEnd_spec hd).1, hv.1, hv.2, hu]

/-- R176: whenever the host pops, the symbols are those of the walk from the root over the words' bits, and DEC_END reports
TRUNCATED_STREAM exactly where that walk does not end at the root. -/
theorem decodesTo_spec {ws : List OutEntry} {s t : State} {e : ErrCode} {out : List Symbol} (h : DecodesTo ws s e out t) :
    ∃ cur, walkBits s.node s.root s.root (queueBits ws) = some (cur, out) ∧
      e = if cur = s.root then .ok else .truncatedStream := by
  cases h with
  | popsBefore hr hrun hp hpe hd hde =>
    obtain ⟨hq, rfl⟩ := execSymPop_of_empty hp hpe
    obtain ⟨cur, hw, he⟩ := decEnd_of_decodeRun hr hrun ⟨rfl, rfl⟩ hd
    exact ⟨cur, by rw [hw, hq, List.append_nil], hde ▸ he⟩
  | popsAfter hr hrun hd hde hlate hp hpe =>
    obtain ⟨cur, hw, he⟩ := decEnd_of_decodeRun hr hrun ⟨rfl, rfl⟩ hd
    obtain ⟨sent, syms, h0, h1, h2, -⟩ := decodeRun_spec hlate
    obtain ⟨rfl, -⟩ := List.append_eq_nil_iff.1 h0.symm
    simp only [queueBits, List.flatMap_nil, walkBits, Option.some.injEq, Prod.mk.injEq] at h1
    rw [← h1.2, List.append_nil, (execSymPop_of_empty hp hpe).1, List.append_nil, (execDecEnd_spec hd).2] at h2
    exact ⟨cur, by rw [hw]; exact congrArg (fun l => some (cur, _ ++ l)) h2, hde ▸ he⟩
  | noWords hr hd hde =>
    obtain ⟨cur, hw, he⟩ := decEnd_of_decodeRun hr (.done [] _) ⟨rfl, rfl⟩ hd
    simp only [exec, execDecReset, done_eq_next_iff] at hr; subst hr
    exact ⟨cur, hw, hde ▸ he⟩

/-- The host can always pop until SYMQ is empty. -/
theorem exists_decodeRun_emptied (q : List Symbol) : ∀ s : State, s.symq = q → ∃ out u,
    (∀ ws out' left t, DecodeRun ws u out' left t → DecodeRun ws s (out ++ out') left t) ∧ u.symq = [] ∧
    u.cfg = s.cfg := by
  induction q with
  | nil => intro s h; exact ⟨[], s, fun _ _ _ _ h => h, h, rfl⟩
  | cons x rest ih =>
    intro s h
    have hp : exec .symPop s =
        done (State.withResults (x.setWidth 32) (BitVec.ofNat 32 rest.length) { s with symq := rest }) := by
      simp only [exec, execSymPop, h]
    obtain ⟨out, u, h1, h2, h3⟩ :=
      ih ((State.withResults (x.setWidth 32) (BitVec.ofNat 32 rest.length) { s with symq := rest }).withStatus .ok 0) rfl
    exact ⟨_ :: out, u, fun ws out' left t hr => .pop hp rfl (h1 ws out' left t hr), h2, h3⟩

/-! ## The codec a BUILD leaves -/

theorem codecOf_of_build {s t : State} (h : exec .build s = .next t) (hok : t.err = .ok) : CodecOf s.freq t :=
  ⟨s, t, rfl, h, hok, rfl, rfl, rfl⟩

/-- A codec is a matter of NODE, ROOT and CODE alone. -/
theorem CodecOf.of_tables {freq : Vector Word 128} {s t : State} (h : CodecOf freq s) (hn : t.node = s.node)
    (hr : t.root = s.root) (hc : t.code = s.code) : CodecOf freq t := by
  obtain ⟨b, u, hf, hb, hok, h1, h2, h3⟩ := h
  exact ⟨b, u, hf, hb, hok, hn.trans h1, hr.trans h2, hc.trans h3⟩

/-- What a codec is, in terms of the tree build. -/
theorem CodecOf.exists_build {freq : Vector Word 128} {s : State} (h : CodecOf freq s) :
    ∃ r, buildTree freq = some r ∧ s.node = r.node ∧ s.root = r.root ∧ s.code = r.code := by
  obtain ⟨b, u, rfl, hb, hok, h1, h2, h3⟩ := h
  rcases execBuild_cases b with ⟨r, hr, e⟩ | ⟨_, e⟩ <;> rw [exec, e] at hb
  · rw [done_eq_next_iff] at hb; subst hb
    exact ⟨r, hr, h1, h2, h3⟩
  · rw [raise_eq_next_iff] at hb; subst hb; cases hok

end Sys2Proof.Machine
end

