-- ==== Sys2Proof/Laws/Step.lean ====
section
/-! SUPPORT. Once for `step`: everything a step that goes on can do; and the frame of a CMD write (spec/30_encoding.md
R84). -/

namespace Sys2Proof.Machine

/-- R84: a word whose OP has one format and whose unused fields are not all 0 runs no command. -/
theorem misfit_of_rows {op : Byte} {f : Format} (h : ∀ r ∈ opcodeMap, r.op = op → r.format = f) :
    MisfitIsIllegal op f := by
  intro w s ho hm
  rw [Ne, and_mask_eq_pattern_iff, not_and] at hm
  obtain ⟨e, he⟩ := decode_error_of_forall (w := w) (fun r hr hh => by
    have hf := h r hr (hh.1.trans ho)
    subst hf
    exact hm ho hh.2)
  simp [runCommand, he, raise, failed, State.withStatus]

/-- A step that answers a next state keeps the state, takes a transaction without a command, resets, runs a command, or
raises ILLEGAL_CMD. -/
theorem step_inversion {s t : State} (h : step s = .next t) :
    t = s ∨
    (∃ r reads arg, t = { s with pending := r, reads := reads, arg := arg }) ∨
    (∃ r, t = { s.cleared with pending := r }) ∨
    (∃ r i, exec i { s with pending := r } = .next t) ∨
    (∃ r, t = { s with pending := r, err := .illegalCmd, errInfo := 0 }) := by
  unfold step at h
  split at h
  · cases h; exact .inl rfl
  · next t' rest _ =>
    cases t' with
    | reset =>
      simp only [runTransaction] at h
      cases h
      exact .inr (.inr (.inl ⟨rest, rfl⟩))
    | busRead off bytes =>
      simp only [runTransaction] at h
      split at h
      · cases h; exact .inr (.inl ⟨_, _, _, rfl⟩)
      · cases h
    | busWrite off bytes v =>
      simp only [runTransaction] at h
      split at h
      · next x _ =>
        cases x
        case cmd =>
          simp only [writeSlot, runCommand] at h
          split at h
          · exact .inr (.inr (.inr (.inl ⟨_, _, h⟩)))
          · rw [raise_eq_next_iff] at h
            exact .inr (.inr (.inr (.inr ⟨rest, h⟩)))
        all_goals
          simp only [writeSlot] at h
          cases h
          exact .inr (.inl ⟨_, _, _, rfl⟩)
      · cases h

end Sys2Proof.Machine
end

