-- ==== Sys2Proof/Laws/Tree.lean ====
section
/-! SUPPORT. The finished tree of BUILD (spec/41_builder.md R117 to R119): paths through it, the codes Assign gives its
leaves, the code table, and what the arena and the decoder see of it. -/

namespace Sys2Proof.Machine

/-! ## Paths -/

/-- The entry a path reaches from entry `i`, none where it would leave a leaf or the arena. -/
def walkIx (nodes : List Node) : Nat → List Bool → Option Nat
  | i, [] => some i
  | i, b :: rest =>
    match nodes[i]? with
    | none => none
    | some n => if n.kind = .internal then walkIx nodes (if b then n.b.toNat else n.a.toNat) rest else none

theorem walkIx_append (nodes : List Node) (i : Nat) (xs ys : List Bool) :
    walkIx nodes i (xs ++ ys) = (walkIx nodes i xs).bind fun j => walkIx nodes j ys := by
  induction xs generalizing i with
  | nil => rfl
  | cons b xs ih =>
    simp only [List.cons_append, walkIx]
    split
    · rfl
    · split
      · exact ih _
      · rfl

theorem walkIx_cons {nodes : List Node} {i j : Nat} {b : Bool} {bs : List Bool}
    (h : walkIx nodes i (b :: bs) = some j) :
    ∃ n, nodes[i]? = some n ∧ n.kind = .internal ∧ walkIx nodes (if b then n.b.toNat else n.a.toNat) bs = some j := by
  simp only [walkIx] at h
  split at h
  · cases h
  · next n hn =>
    split at h
    · exact ⟨n, hn, ‹_›, h⟩
    · cases h

theorem walkIx_single {nodes : List Node} {i : Nat} {n : Node} (hn : nodes[i]? = some n) (hk : n.kind = .internal)
    (b : Bool) : walkIx nodes i [b] = some (if b then n.b.toNat else n.a.toNat) := by
  simp [walkIx, hn, hk]

theorem walkIx_concat {nodes : List Node} {i j : Nat} {b : Bool} {bs : List Bool}
    (h : walkIx nodes i (bs ++ [b]) = some j) :
    ∃ m n, walkIx nodes i bs = some m ∧ nodes[m]? = some n ∧ n.kind = .internal ∧
      j = (if b then n.b.toNat else n.a.toNat) := by
  rw [walkIx_append] at h
  cases hm : walkIx nodes i bs with
  | none => simp [hm] at h
  | some m =>
    rw [hm, Option.bind_some] at h
    obtain ⟨n, hn, hk, hj⟩ := walkIx_cons h
    exact ⟨m, n, rfl, hn, hk, by simpa [walkIx] using hj.symm⟩

namespace MergeShape

variable {l : Nat} {nodes : List Node} {p : List Key}

theorem internal_iff (hs : MergeShape l nodes p) {i : Nat} {n : Node} (hn : nodes[i]? = some n) :
    n.kind = .internal ↔ l ≤ i := by
  have := hs.leaf i n hn
  cases hk : n.kind <;> simp_all

theorem child_lt (hs : MergeShape l nodes p) {i : Nat} {n : Node} (hn : nodes[i]? = some n) (hk : n.kind = .internal)
    (b : Bool) : (if b then n.b.toNat else n.a.toNat) < i := by
  obtain ⟨ha, hb, -⟩ := hs.children i n hn ((hs.internal_iff hn).1 hk)
  split <;> assumption

/-- Indices fall along a path, and every entry of it but the last is internal. -/
theorem walkIx_bound (hs : MergeShape l nodes p) {i j : Nat} {bs : List Bool} (h : walkIx nodes i bs = some j) :
    j + bs.length ≤ i ∧ (bs ≠ [] → l + bs.length ≤ i + 1) := by
  induction bs generalizing i with
  | nil => simp only [walkIx, Option.some.injEq] at h; simp [h]
  | cons b bs ih =>
    obtain ⟨n, hn, hk, h⟩ := walkIx_cons h
    have hlt := hs.child_lt hn hk b
    have hl := (hs.internal_iff hn).1 hk
    obtain ⟨h1, h2⟩ := ih h
    refine ⟨by simp only [List.length_cons]; omega, fun _ => ?_⟩
    cases bs with
    | nil => simp; omega
    | cons c cs => have := h2 (by simp); simp only [List.length_cons] at *; omega

theorem walkIx_lt_length (hs : MergeShape l nodes p) {i j : Nat} {bs : List Bool} (hi : i < nodes.length)
    (h : walkIx nodes i bs = some j) : j < nodes.length := by
  have := (hs.walkIx_bound h).1; omega

/-- An entry is reached by one path only: its parent is unique and a parent's two children differ. -/
theorem walkIx_unique (hs : MergeShape l nodes p) {i j : Nat} {xs ys : List Bool} (hx : walkIx nodes i xs = some j)
    (hy : walkIx nodes i ys = some j) : xs = ys := by
  induction xs using List.reverseRecOn generalizing j ys with
  | nil =>
    simp only [walkIx, Option.some.injEq] at hx
    have := (hs.walkIx_bound hy).1
    exact (List.length_eq_zero_iff.1 (by omega)).symm
  | append_singleton xs b ih =>
    rcases List.eq_nil_or_concat ys with rfl | ⟨zs, c, rfl⟩
    · have := (hs.walkIx_bound hx).1
      simp only [walkIx, Option.some.injEq] at hy
      simp at this; omega
    · rw [List.concat_eq_append] at hy ⊢
      obtain ⟨m, n, hm, hn, hk, hj⟩ := walkIx_concat hx
      obtain ⟨m', n', hm', hn', hk', hj'⟩ := walkIx_concat hy
      obtain rfl : m = m' := hs.parent j m m' ((hs.internal_iff hn).1 hk) ((hs.internal_iff hn').1 hk')
        ⟨n, hn, by subst hj; cases b <;> simp⟩ ⟨n', hn', by rw [hj']; cases c <;> simp⟩
      obtain rfl : n = n' := by rw [hn] at hn'; simpa using hn'
      obtain ⟨-, -, hne, -⟩ := hs.children m n hn ((hs.internal_iff hn).1 hk)
      have hne' : n.a.toNat ≠ n.b.toNat := fun h => hne (BitVec.eq_of_toNat_eq h)
      have hbc : b = c := by
        rw [hj] at hj'
        cases b <;> cases c <;> simp_all
      rw [ih hm hm', hbc]

/-- Every entry is reached from the root. -/
theorem reached {r : Key} (hs : MergeShape l nodes [r]) {j : Nat} (hj : j < nodes.length) :
    ∃ bs, walkIx nodes r.idx bs = some j := by
  obtain ⟨d, hd⟩ : ∃ d, nodes.length - j = d := ⟨_, rfl⟩
  induction d using Nat.strongRecOn generalizing j with
  | ind d ih =>
    by_cases hr : r.idx = j
    · exact ⟨[], by simp [walkIx, hr]⟩
    · have hn : ¬ inKeys [r] j := by simpa [inKeys] using hr
      rw [hs.open_iff j hj] at hn
      push Not at hn
      obtain ⟨m, hm, n, hmn, hab⟩ := hn
      obtain ⟨ha, hb, -⟩ := hs.children m n hmn hm
      have hml := (List.getElem?_eq_some_iff.1 hmn).1
      obtain ⟨bs, hbs⟩ := ih (nodes.length - m) (by omega) hml rfl
      have hk := (hs.internal_iff hmn).2 hm
      rcases hab with hab | hab
      · exact ⟨bs ++ [false], by rw [walkIx_append, hbs, Option.bind_some, walkIx_single hmn hk]; simp [hab]⟩
      · exact ⟨bs ++ [true], by rw [walkIx_append, hbs, Option.bind_some, walkIx_single hmn hk]; simp [hab]⟩

/-- A path to a leaf is no proper part of another path. -/
theorem walkIx_leaf_prefix (hs : MergeShape l nodes p) {i j j' : Nat} {xs ys : List Bool} (hj : j < l)
    (hx : walkIx nodes i xs = some j) (hy : walkIx nodes i (xs ++ ys) = some j') :
    ys = [] ∧ j' = j := by
  rw [walkIx_append, hx, Option.bind_some] at hy
  cases ys with
  | nil => exact ⟨rfl, by simpa [walkIx] using hy.symm⟩
  | cons b ys =>
    obtain ⟨n, hn, hk, -⟩ := walkIx_cons hy
    have := (hs.internal_iff hn).1 hk
    omega

end MergeShape

/-! ## Assign -/

/-- R118: the number a path makes, its first bit the most significant. -/
def pathValue (v : Nat) (bs : List Bool) : Nat := bs.foldl (fun v b => 2 * v + b.toNat) v

theorem pathValue_append (v : Nat) (xs ys : List Bool) : pathValue v (xs ++ ys) = pathValue (pathValue v xs) ys :=
  List.foldl_append

theorem pathValue_lt (bs : List Bool) : pathValue 0 bs < 2 ^ bs.length := by
  induction bs using List.reverseRecOn with
  | nil => simp [pathValue]
  | append_singleton bs b ih =>
    rw [pathValue_append, List.length_append, List.length_singleton, Nat.pow_succ]
    have : b.toNat ≤ 1 := Bool.toNat_le b
    simp only [pathValue, List.foldl_cons, List.foldl_nil] at *
    omega

/-- The code word of a path, as an entry of the code table. -/
def codeOfPath (bs : List Bool) : Code := { len := BitVec.ofNat 8 bs.length, bits := BitVec.ofNat 127 (pathValue 0 bs) }

theorem getLsbD_pathValue (bs : List Bool) (i : Nat) (h : i < bs.length) :
    (BitVec.ofNat 127 (pathValue 0 bs)).getLsbD (bs.length - 1 - i) = (decide (bs.length - 1 - i < 127) && bs[i]) := by
  rw [BitVec.getLsbD_ofNat]
  congr 1
  induction bs using List.reverseRecOn with
  | nil => simp at h
  | append_singleton bs b ih =>
    simp only [List.length_append, List.length_singleton] at h ⊢
    rw [pathValue_append]
    simp only [pathValue, List.foldl_cons, List.foldl_nil] at ih ⊢
    by_cases hi : i < bs.length
    · rw [List.getElem_append_left hi, ← ih hi, show bs.length + 1 - 1 - i = (bs.length - 1 - i) + 1 by omega,
        Nat.testBit_succ]
      have : b.toNat ≤ 1 := Bool.toNat_le b
      congr 1
      omega
    · obtain rfl : i = bs.length := by omega
      rw [List.getElem_concat_length rfl]
      cases b <;> simp [Nat.testBit_zero]

/-- R42, R118: the codeword of a path's code is the path. -/
theorem codeword_codeOfPath {bs : List Bool} (h : bs.length ≤ 127) : codeword (codeOfPath bs) = bs := by
  have hl : (codeOfPath bs).len.toNat = bs.length := by simp [codeOfPath]; omega
  apply List.ext_getElem
  · simp [codeword, hl]
  · intro i h1 h2
    simp only [codeword, List.getElem_map, List.getElem_range, hl]
    rw [show (codeOfPath bs).bits = BitVec.ofNat 127 (pathValue 0 bs) from rfl, getLsbD_pathValue bs i h2]
    simp; intro; omega

/-- The symbol a leaf entry names. -/
def leafIx (n : Node) : SymIx := symbolIx (leafSymbol n)

/-- R118: each code Assign gives is that of a leaf's path. -/
theorem assignCodes_sound {nodes : List Node} (fuel i : Nat) (pre : List Bool) {e : SymIx × Code}
    (h : e ∈ assignCodes fuel nodes i (pathValue 0 pre) pre.length) :
    ∃ bs j n, walkIx nodes i bs = some j ∧ nodes[j]? = some n ∧ n.kind = .leaf ∧
      e = (leafIx n, codeOfPath (pre ++ bs)) := by
  induction fuel generalizing i pre with
  | zero => simp [assignCodes] at h
  | succ fuel ih =>
    simp only [assignCodes] at h
    split at h
    · simp at h
    · next n hn =>
      split at h
      · next hk => exact ⟨[], i, n, rfl, hn, hk, by simpa [leafIx, codeOfPath] using h⟩
      · next hk =>
        rcases List.mem_append.1 h with h | h
        · obtain ⟨bs, j, m, h1, h2, h3, h4⟩ := ih n.a.toNat (pre ++ [false])
            (by simpa [pathValue_append, pathValue] using h)
          exact ⟨false :: bs, j, m, by simpa [walkIx, hn, hk] using h1, h2, h3, by simpa using h4⟩
        · obtain ⟨bs, j, m, h1, h2, h3, h4⟩ := ih n.b.toNat (pre ++ [true])
            (by simpa [pathValue_append, pathValue] using h)
          exact ⟨true :: bs, j, m, by simpa [walkIx, hn, hk] using h1, h2, h3, by simpa using h4⟩

/-- R118: Assign gives every leaf below `i` the code of its path. -/
theorem assignCodes_complete {l : Nat} {nodes : List Node} {p : List Key} (hs : MergeShape l nodes p) (fuel i : Nat)
    (pre : List Bool) {bs : List Bool} {j : Nat} {n : Node} (hi : i < fuel) (hw : walkIx nodes i bs = some j)
    (hn : nodes[j]? = some n) (hk : n.kind = .leaf) :
    (leafIx n, codeOfPath (pre ++ bs)) ∈ assignCodes fuel nodes i (pathValue 0 pre) pre.length := by
  induction fuel generalizing i pre bs with
  | zero => omega
  | succ fuel ih =>
    cases bs with
    | nil =>
      simp only [walkIx, Option.some.injEq] at hw
      subst hw
      simp [assignCodes, hn, hk, leafIx, codeOfPath]
    | cons b bs =>
      obtain ⟨m, hm, hmk, hw⟩ := walkIx_cons hw
      have hlt := hs.child_lt hm hmk b
      have := ih _ (pre ++ [b]) (by omega) hw
      simp only [assignCodes, hm, hmk, List.mem_append]
      cases b
      · exact .inl (by simpa [pathValue_append, pathValue] using this)
      · exact .inr (by simpa [pathValue_append, pathValue] using this)

/-! ## The code table and the arena -/

theorem foldl_set_of_not_mem {x : SymIx} (entries : List (SymIx × Code)) (t : Vector Code 128)
    (h : ∀ e ∈ entries, e.1 ≠ x) : (entries.foldl (fun t e => t.set e.1 e.2) t)[x] = t[x] := by
  induction entries generalizing t with
  | nil => rfl
  | cons e rest ih =>
    rw [List.foldl_cons, ih _ fun e' he' => h e' (by simp [he'])]
    have hne : e.1.val ≠ x.val := fun hv => h e (by simp) (Fin.ext hv)
    simp [Vector.getElem_set_ne, hne]

/-- R114: a symbol without an entry has no codeword. -/
theorem codeTableOf_of_not_mem {entries : List (SymIx × Code)} {x : SymIx} (h : ∀ e ∈ entries, e.1 ≠ x) :
    (codeTableOf entries)[x] = Code.empty := by
  rw [codeTableOf, foldl_set_of_not_mem entries _ h]; simp

/-- Where the entries of one symbol agree, the table holds them. -/
theorem codeTableOf_of_mem {entries : List (SymIx × Code)} {x : SymIx} {c : Code} (hm : (x, c) ∈ entries)
    (h : ∀ e ∈ entries, e.1 = x → e.2 = c) : (codeTableOf entries)[x] = c := by
  have key : ∀ (entries : List (SymIx × Code)) (t : Vector Code 128), (∀ e ∈ entries, e.1 = x → e.2 = c) →
      ((x, c) ∈ entries ∨ t[x] = c) → (entries.foldl (fun t e => t.set e.1 e.2) t)[x] = c := by
    intro entries
    induction entries with
    | nil => intro t _ ht; simpa using ht
    | cons e rest ih =>
      intro t hall ht
      rw [List.foldl_cons]
      refine ih _ (fun e' he' => hall e' (by simp [he'])) ?_
      by_cases hx : e.1 = x
      · right
        have := hall e (by simp) hx
        simp [hx, this]
      · rcases ht with ht | ht
        · rcases List.mem_cons.1 ht with rfl | ht
          · exact absurd rfl hx
          · exact .inl ht
        · right
          have hne : e.1.val ≠ x.val := fun hv => hx (Fin.ext hv)
          simpa [Vector.getElem_set_ne, hne] using ht
  exact key entries _ h (.inl hm)

theorem arenaOf_getElem? {nodes : List Node} {i : Nat} (hi : i < 255) :
    (arenaOf nodes)[i]? = some ((nodes[i]?).getD Node.empty) := by
  rw [Vector.getElem?_eq_getElem hi]; simp [arenaOf]

/-- R114: an arena holds the entries written, and is empty elsewhere. -/
theorem nodeAt_arenaOf {nodes : List Node} (h : nodes.length ≤ 255) (i : Nat) :
    nodeAt (arenaOf nodes) i = (nodes[i]?).getD Node.empty := by
  by_cases hi : i < 255
  · rw [nodeAt, arenaOf_getElem? hi]; rfl
  · rw [nodeAt, Vector.getElem?_eq_none (by omega), List.getElem?_eq_none (by omega)]

theorem validNode_arenaOf {nodes : List Node} {i : Byte} {n : Node} (hn : nodes[i.toNat]? = some n)
    (hv : n.valid = true) (hl : nodes.length ≤ 255) : validNode (arenaOf nodes) i = some n := by
  have hi := (List.getElem?_eq_some_iff.1 hn).1
  rw [validNode, arenaOf_getElem? (by omega), hn]
  simp [hv]

/-- R118: the arena's paths are the tree's. -/
theorem followPath_arenaOf {nodes : List Node} (hl : nodes.length ≤ 255) {i j : Nat} {bs : List Bool} {n : Node}
    (h : walkIx nodes i bs = some j) (hn : nodes[j]? = some n) : followPath (arenaOf nodes) i bs = some n := by
  induction bs generalizing i with
  | nil =>
    simp only [walkIx, Option.some.injEq] at h
    rw [followPath, nodeAt_arenaOf hl, h, hn]; rfl
  | cons b bs ih =>
    obtain ⟨m, hm, hk, h⟩ := walkIx_cons h
    rw [followPath, nodeAt_arenaOf hl, hm, Option.getD_some, if_pos hk]
    exact ih h

/-! ## The symbols of the leaves -/

/-- R115: the k-th leaf is the k-th positive symbol's. -/
theorem leavesOf_getElem? (freq : Vector Word 128) (k : Nat) :
    (leavesOf freq)[k]? = ((positiveSymbols freq)[k]?).map (leafNode freq) := by simp [leavesOf]

theorem leafIx_leafNode (freq : Vector Word 128) (x : SymIx) : leafIx (leafNode freq x) = x := by
  apply Fin.ext
  simp [leafIx, symbolIx, leafSymbol, leafNode]

theorem positiveSymbols_nodup (freq : Vector Word 128) : (positiveSymbols freq).Nodup :=
  (List.nodup_finRange 128).filter _

theorem mem_positiveSymbols {freq : Vector Word 128} {x : SymIx} : x ∈ positiveSymbols freq ↔ positive freq x := by
  simp only [positiveSymbols, List.mem_filter, List.mem_finRange, true_and, decide_eq_true_eq, positive]
  rw [Nat.pos_iff_ne_zero, not_iff_not, ← BitVec.toNat_inj]; rfl

/-- What BUILD leaves below its merges: the leaves first (R115, R117). -/
theorem mergedTree_leaves (freq : Vector Word 128) : leavesOf freq <+: (mergedTree freq).1 :=
  (mergedTree_induct (freq := freq) (motive := fun nodes _ => leavesOf freq <+: nodes) (List.prefix_refl _)
    (fun _ _ _ _ _ _ _ _ h _ _ => h.trans (List.prefix_append _ _))).2

/-! ## What BUILD leaves -/

theorem leavesOf_length (freq : Vector Word 128) : (leavesOf freq).length = (positiveSymbols freq).length := by
  simp [leavesOf]

/-- The tree of a successful BUILD and where its parts are. -/
structure Built (freq : Vector Word 128) (r : BuildResult) (nodes : List Node) (k : Key) : Prop where
  shape : MergeShape (positiveSymbols freq).length nodes [k]
  pos : 1 ≤ (positiveSymbols freq).length
  le : (positiveSymbols freq).length ≤ 128
  length : nodes.length + 1 = 2 * (positiveSymbols freq).length
  root : k.idx + 2 = 2 * (positiveSymbols freq).length
  tree : mergedTree freq = (nodes, [k])
  eq : r = { node := arenaOf nodes, code := codesOf freq nodes k.idx, root := BitVec.ofNat 8 k.idx,
             nleaf := BitVec.ofNat 8 (positiveSymbols freq).length, ncount := BitVec.ofNat 8 nodes.length }

/-- R112, R113: BUILD fails exactly where no count is positive. -/
theorem buildTree_eq_none_iff (freq : Vector Word 128) : buildTree freq = none ↔ positiveSymbols freq = [] := by
  constructor
  · intro h
    by_contra hne
    obtain ⟨r, hr, -⟩ := mergedTree_root hne
    rw [buildTree, show mergedTree freq = ((mergedTree freq).1, [r]) by rw [← hr]] at h
    cases h
  · intro h
    have : mergedTree freq = ([], []) := by simp [mergedTree, leavesOf, h, initialKeys, mergeLoop]
    rw [buildTree, this]

theorem built_of_buildTree {freq : Vector Word 128} {r : BuildResult} (h : buildTree freq = some r) :
    ∃ nodes k, Built freq r nodes k := by
  have hne : positiveSymbols freq ≠ [] := fun he => by
    rw [(buildTree_eq_none_iff freq).2 he] at h; cases h
  obtain ⟨k, hk, hroot, hlen⟩ := mergedTree_root hne
  have hs := (mergedTree_induct (freq := freq) (motive := fun _ _ => True) trivial (by simp)).1
  rw [leavesOf_length] at *
  rw [hk] at hs
  have ht : mergedTree freq = ((mergedTree freq).1, [k]) := by rw [← hk]
  rw [buildTree, ht] at h
  refine ⟨(mergedTree freq).1, k, hs, List.length_pos_of_ne_nil hne, positiveSymbols_length_le freq, hlen, hroot, ht,
    ?_⟩
  rw [← leavesOf_length]
  exact (Option.some.inj h).symm

namespace Built

variable {freq : Vector Word 128} {r : BuildResult} {nodes : List Node} {k : Key}

theorem root_toNat (hb : Built freq r nodes k) : r.root.toNat = k.idx := by
  have := hb.root; have := hb.le
  rw [hb.eq]; simp; omega

theorem ncount_toNat (hb : Built freq r nodes k) : r.ncount.toNat = nodes.length := by
  have := hb.length; have := hb.le
  rw [hb.eq]; simp; omega

theorem nleaf_toNat (hb : Built freq r nodes k) : r.nleaf.toNat = (positiveSymbols freq).length := by
  have := hb.le
  rw [hb.eq]; simp; omega

theorem node_eq (hb : Built freq r nodes k) : r.node = arenaOf nodes := by rw [hb.eq]

theorem length_le (hb : Built freq r nodes k) : nodes.length ≤ 255 := by
  have := hb.length; have := hb.le; omega

/-- R115: the leaf of a positive symbol. -/
theorem exists_leaf (hb : Built freq r nodes k) {x : SymIx} (hx : positive freq x) :
    ∃ j, j < (positiveSymbols freq).length ∧ nodes[j]? = some (leafNode freq x) := by
  obtain ⟨j, hj⟩ := List.mem_iff_getElem?.1 (mem_positiveSymbols.2 hx)
  have hjl := (List.getElem?_eq_some_iff.1 hj).1
  refine ⟨j, hjl, ?_⟩
  have hp := mergedTree_leaves freq
  rw [hb.tree] at hp
  obtain ⟨t, ht⟩ : ∃ t, leavesOf freq ++ t = nodes := hp
  rw [← ht]
  exact getElem?_append_of_some (by rw [leavesOf_getElem?, hj]; rfl)

/-- R115: the first entries are the leaves of the positive symbols. -/
theorem leaf_eq (hb : Built freq r nodes k) {j : Nat} {n : Node} (hn : nodes[j]? = some n) (hk : n.kind = .leaf) :
    ∃ x, positive freq x ∧ n = leafNode freq x ∧ (positiveSymbols freq)[j]? = some x := by
  have hj := (hb.shape.leaf j n hn).1 hk
  have hp := mergedTree_leaves freq
  rw [hb.tree] at hp
  obtain ⟨t, ht⟩ : ∃ t, leavesOf freq ++ t = nodes := hp
  rw [← ht, List.getElem?_append_left (by rw [leavesOf_length]; exact hj), leavesOf_getElem?,
    List.getElem?_eq_getElem hj] at hn
  refine ⟨_, mem_positiveSymbols.1 (List.getElem_mem hj), by simpa using hn.symm, List.getElem?_eq_getElem hj⟩

/-- The path of a leaf: from the root, its length bounded by the number of leaves. -/
theorem exists_path (hb : Built freq r nodes k) {x : SymIx} (hx : positive freq x) :
    ∃ bs j, walkIx nodes k.idx bs = some j ∧ nodes[j]? = some (leafNode freq x) ∧
      bs.length < (positiveSymbols freq).length ∧ (2 ≤ (positiveSymbols freq).length → bs ≠ []) := by
  obtain ⟨j, hjl, hj⟩ := hb.exists_leaf hx
  have := hb.root; have := hb.pos
  obtain ⟨bs, hbs⟩ := hb.shape.reached (List.getElem?_eq_some_iff.1 hj).1
  refine ⟨bs, j, hbs, hj, ?_, ?_⟩
  · obtain ⟨h1, h2⟩ := hb.shape.walkIx_bound hbs
    by_cases hn : bs = []
    · simp [hn]; omega
    · have := h2 hn; omega
  · rintro h2 rfl
    simp only [walkIx, Option.some.injEq] at hbs
    omega

/-- R118: with two symbols or more, a symbol's code is that of its leaf's path. -/
theorem code_eq (hb : Built freq r nodes k) (h2 : 2 ≤ (positiveSymbols freq).length) {x : SymIx} {bs : List Bool}
    {j : Nat} (hw : walkIx nodes k.idx bs = some j) (hj : nodes[j]? = some (leafNode freq x)) :
    r.code[x] = codeOfPath bs := by
  have hcode : r.code = codeTableOf (assignCodes nodes.length nodes k.idx 0 0) := by
    rw [hb.eq]
    simp only [codesOf]
    split
    · next h => rw [h] at h2; simp at h2
    · rfl
  have hroot := hb.root
  have hlen := hb.length
  rw [hcode]
  refine codeTableOf_of_mem ?_ fun e he hx => ?_
  · have := assignCodes_complete hb.shape nodes.length k.idx [] (by omega) hw hj rfl
    rwa [leafIx_leafNode] at this
  · obtain ⟨bs', j', n, hw', hn, hk, rfl⟩ := assignCodes_sound nodes.length k.idx [] he
    obtain ⟨y, -, rfl, hy⟩ := hb.leaf_eq hn hk
    obtain ⟨z, -, hz, hzj⟩ := hb.leaf_eq hj rfl
    have hzx : z = x := by rw [← leafIx_leafNode freq z, ← hz, leafIx_leafNode]
    rw [leafIx_leafNode] at hx
    have hxy : y = x := hx
    subst hxy hzx
    have hj' : j' = j := (List.getElem?_inj (List.getElem?_eq_some_iff.1 hy).1 (positiveSymbols_nodup freq)).1
      (hy.trans hzj.symm)
    subst hj'
    rw [hb.shape.walkIx_unique hw' hw]
    rfl

/-- R119: a sole symbol has the code "0". -/
theorem code_eq_sole (hb : Built freq r nodes k) {x : SymIx} (h : positiveSymbols freq = [x]) :
    r.code[x] = soleCode := by
  rw [hb.eq]
  simp only [codesOf, h]
  exact codeTableOf_of_mem (by simp) (by simp)

/-- R114: a symbol with count 0 has no codeword. -/
theorem code_eq_empty (hb : Built freq r nodes k) {x : SymIx} (hx : ¬ positive freq x) : r.code[x] = Code.empty := by
  have hc : r.code = codesOf freq nodes k.idx := by rw [hb.eq]
  rw [hc]
  unfold codesOf
  split
  · next y hy =>
    refine codeTableOf_of_not_mem fun e he hex => hx ?_
    rw [← mem_positiveSymbols, hy, List.mem_singleton, ← hex, List.mem_singleton.1 he]
  · refine codeTableOf_of_not_mem fun e he hex => hx ?_
    obtain ⟨bs', j', n, hw', hn, hk, rfl⟩ := assignCodes_sound nodes.length k.idx [] he
    obtain ⟨y, hy, rfl, -⟩ := hb.leaf_eq hn hk
    rw [leafIx_leafNode] at hex
    have : y = x := hex
    exact this ▸ hy

/-- The codeword of a positive symbol with two symbols or more. -/
theorem codeword_eq (hb : Built freq r nodes k) (h2 : 2 ≤ (positiveSymbols freq).length) {x : SymIx} {bs : List Bool}
    {j : Nat} (hw : walkIx nodes k.idx bs = some j) (hj : nodes[j]? = some (leafNode freq x)) :
    codeword r.code[x] = bs := by
  rw [hb.code_eq h2 hw hj]
  have := hb.root; have := hb.le
  obtain ⟨h1, h3⟩ := hb.shape.walkIx_bound hw
  refine codeword_codeOfPath ?_
  by_cases hn : bs = []
  · simp [hn]
  · have := h3 hn; omega

end Built

/-! ## The two least keys -/

/-- R117: entry `j` is in the collection when entry `n` is made: made before it, and no child of an entry made before it. -/
def openAt (l : Nat) (nodes : List Node) (n j : Nat) : Prop := j < n ∧ ∀ m, l ≤ m → m < n → ¬ isChild nodes m j

/-- R116: key(i) < key(j) in the arena. -/
def keyOrder (nodes : List Node) (i j : Nat) : Prop :=
  ∃ p q, nodes[i]? = some p ∧ nodes[j]? = some q ∧
    (p.weight.toNat < q.weight.toNat ∨ (p.weight = q.weight ∧ i < j))

/-- R117: the children of entry `n` have the two least keys of the collection. -/
def leastTwo (l : Nat) (nodes : List Node) (n : Nat) : Prop :=
  ∃ e, nodes[n]? = some e ∧ openAt l nodes n e.a.toNat ∧ openAt l nodes n e.b.toNat ∧
    (∀ j, openAt l nodes n j → j ≠ e.a.toNat → keyOrder nodes e.a.toNat j) ∧
    ∀ j, openAt l nodes n j → j ≠ e.a.toNat → j ≠ e.b.toNat → keyOrder nodes e.b.toNat j

theorem openAt_append {l n j : Nat} {nodes : List Node} (x : Node) (h : n ≤ nodes.length) :
    openAt l (nodes ++ [x]) n j ↔ openAt l nodes n j := by
  unfold openAt
  refine and_congr_right fun _ => forall_congr' fun m => imp_congr_right fun _ => ?_
  constructor
  · intro h' hm; rw [← isChild_append x (by omega)]; exact h' hm
  · intro h' hm; rw [isChild_append x (by omega)]; exact h' hm

theorem keyOrder_append {i j : Nat} {nodes : List Node} (x : Node) (h : keyOrder nodes i j) :
    keyOrder (nodes ++ [x]) i j := by
  obtain ⟨p, q, hp, hq, h⟩ := h
  exact ⟨p, q, getElem?_append_of_some hp, getElem?_append_of_some hq, h⟩

theorem leastTwo_append {l n : Nat} {nodes : List Node} (x : Node) (h : leastTwo l nodes n) :
    leastTwo l (nodes ++ [x]) n := by
  obtain ⟨e, he, h1, h2, h3, h4⟩ := h
  have hn := (List.getElem?_eq_some_iff.1 he).1
  have ho := fun j => openAt_append (l := l) (j := j) x (Nat.le_of_lt hn)
  exact ⟨e, getElem?_append_of_some he, (ho _).2 h1, (ho _).2 h2,
    fun j hj hne => keyOrder_append x (h3 j ((ho j).1 hj) hne),
    fun j hj hne hne' => keyOrder_append x (h4 j ((ho j).1 hj) hne hne')⟩

/-- R117: every merge takes the two least keys of the collection it finds. -/
theorem mergedTree_least (freq : Vector Word 128) :
    ∀ n, (leavesOf freq).length ≤ n → n < (mergedTree freq).1.length →
      leastTwo (leavesOf freq).length (mergedTree freq).1 n := by
  refine (mergedTree_induct (freq := freq) (motive := fun nodes _ => ∀ n, (leavesOf freq).length ≤ n →
    n < nodes.length → leastTwo (leavesOf freq).length nodes n) (fun n h h' => by omega) ?_).2
  intro nodes p x p1 y p2 hs _ hm hx hy n hln hn
  obtain ⟨hp, hlx, hly⟩ := takeLeast_two hx hy
  by_cases hnl : n < nodes.length
  · exact leastTwo_append _ (hm n hln hnl)
  · simp only [List.length_append, List.length_cons, List.length_nil] at hn
    obtain rfl : n = nodes.length := by omega
    have hkey : ∀ k ∈ p, k.idx < nodes.length ∧ ∃ e, nodes[k.idx]? = some e ∧ e.weight = k.weight := fun k hk => by
      obtain ⟨e, he, hw⟩ := hs.keys k hk
      exact ⟨(List.getElem?_eq_some_iff.1 he).1, e, he, hw⟩
    have hc := hs.count
    have hl : (leavesOf freq).length ≤ 128 := by simpa [leavesOf] using positiveSymbols_length_le freq
    have hpl : p.length = p2.length + 2 := by simpa using hp.length_eq
    have ha : (mergedNode x y).a.toNat = x.idx := by
      have := (hkey x (hp.mem_iff.2 (by simp))).1
      simp [mergedNode]; omega
    have hb : (mergedNode x y).b.toNat = y.idx := by
      have := (hkey y (hp.mem_iff.2 (by simp))).1
      simp [mergedNode]; omega
    have hopen : ∀ j, openAt (leavesOf freq).length (nodes ++ [mergedNode x y]) nodes.length j ↔ inKeys p j := by
      intro j
      rw [openAt_append _ (Nat.le_refl _)]
      constructor
      · rintro ⟨hj, h⟩
        exact (hs.open_iff j hj).2 fun m hm hc => h m hm (isChild_lt hc) hc
      · rintro ⟨k, hk, rfl⟩
        exact ⟨(hkey k hk).1, fun m hm _ => (hs.open_iff _ (hkey k hk).1).1 ⟨k, hk, rfl⟩ m hm⟩
    have hord : ∀ k ∈ p, ∀ k' ∈ p, k.idx ≠ k'.idx → keyLess k' k = false →
        keyOrder (nodes ++ [mergedNode x y]) k.idx k'.idx := by
      intro k hk k' hk' hne hlt
      obtain ⟨-, e, he, hw⟩ := hkey k hk
      obtain ⟨-, e', he', hw'⟩ := hkey k' hk'
      refine ⟨e, e', getElem?_append_of_some he, getElem?_append_of_some he', ?_⟩
      rw [hw, hw', ← BitVec.toNat_inj]
      exact (keyLess_iff k k').1 (keyLess_of_not hlt hne)
    refine ⟨mergedNode x y, by simp, ?_, ?_, ?_, ?_⟩
    · rw [hopen, ha]; exact ⟨x, hp.mem_iff.2 (by simp), rfl⟩
    · rw [hopen, hb]; exact ⟨y, hp.mem_iff.2 (by simp), rfl⟩
    · intro j hj hne
      rw [hopen] at hj
      obtain ⟨k, hk, rfl⟩ := hj
      rw [ha] at hne ⊢
      refine hord x (hp.mem_iff.2 (by simp)) k hk (Ne.symm hne) ?_
      rcases List.mem_cons.1 (hp.mem_iff.1 hk) with rfl | hk'
      · exact absurd rfl hne
      · exact hlx k hk'
    · intro j hj hne hne'
      rw [hopen] at hj
      obtain ⟨k, hk, rfl⟩ := hj
      rw [ha] at hne
      rw [hb] at hne' ⊢
      refine hord y (hp.mem_iff.2 (by simp)) k hk (Ne.symm hne') ?_
      rcases List.mem_cons.1 (hp.mem_iff.1 hk) with rfl | hk'
      · exact absurd rfl hne
      · rcases List.mem_cons.1 hk' with rfl | hk''
        · exact absurd rfl hne'
        · exact hly k hk''

/-! ## Decoding along a path -/

/-- R170: from an internal entry, the bits of a path to a leaf emit its symbol, and those of a path to an internal entry
move the cursor there. -/
theorem walkBits_path {freq : Vector Word 128} {r : BuildResult} {nodes : List Node} {k : Key}
    (hb : Built freq r nodes k)
    {i j : Byte} {bs : List Bool} (hi : (positiveSymbols freq).length ≤ i.toNat) (hil : i.toNat < nodes.length)
    (hw : walkIx nodes i.toNat bs = some j.toNat) :
    (∀ rest, j.toNat < (positiveSymbols freq).length → ∃ x, nodes[j.toNat]? = some (leafNode freq x) ∧
        walkBits r.node r.root i (bs ++ rest) =
          (walkBits r.node r.root r.root rest).map fun q => (q.1, BitVec.ofNat 7 x.val :: q.2)) ∧
    ((positiveSymbols freq).length ≤ j.toNat → walkBits r.node r.root i bs = some (j, [])) := by
  induction bs generalizing i with
  | nil =>
    simp only [walkIx, Option.some.injEq] at hw
    refine ⟨fun _ h => by omega, fun h => ?_⟩
    have : i = j := BitVec.eq_of_toNat_eq hw
    subst this; rfl
  | cons b bs ih =>
    obtain ⟨n, hn, hk, hw⟩ := walkIx_cons hw
    have hlt := hb.shape.child_lt hn hk b
    have hv := validNode_arenaOf hn (hb.shape.valid _ (List.mem_of_getElem? hn)) hb.length_le
    obtain ⟨c, hc⟩ : ∃ c : Byte, c = if b then n.b else n.a := ⟨_, rfl⟩
    have hct : c.toNat = if b then n.b.toNat else n.a.toNat := by rw [hc]; split <;> rfl
    rw [← hct] at hw hlt
    have hcl : c.toNat < nodes.length := by omega
    have hcg := List.getElem?_eq_getElem hcl
    have hcv := validNode_arenaOf hcg (hb.shape.valid _ (List.getElem_mem hcl)) hb.length_le
    have hdec : decStep r.node r.root i b = match nodes[c.toNat].kind with
        | .leaf => .emit (leafSymbol nodes[c.toNat]) r.root
        | .internal => .move c := by
      cases hkc : nodes[c.toNat].kind <;> simp only [decStep, hb.node_eq, hv, hk, ← hc, hcv, hkc]
    cases hck : nodes[c.toNat].kind with
    | leaf =>
      obtain ⟨x, hx, hxe, -⟩ := hb.leaf_eq hcg hck
      have hcl' := (hb.shape.leaf _ _ hcg).1 hck
      have hbs : bs = [] ∧ j = c := by
        have := hb.shape.walkIx_leaf_prefix (xs := []) (ys := bs) (i := c.toNat) hcl' (by simp [walkIx])
          (by simpa using hw)
        exact ⟨this.1, BitVec.eq_of_toNat_eq this.2⟩
      obtain ⟨rfl, rfl⟩ := hbs
      refine ⟨fun rest _ => ⟨x, by rw [hcg, hxe], ?_⟩, fun h => by omega⟩
      simp only [List.cons_append, List.nil_append, walkBits, hdec, hck]
      have : leafSymbol nodes[j.toNat] = BitVec.ofNat 7 x.val := by
        rw [hxe]; apply BitVec.eq_of_toNat_eq; simp [leafSymbol, leafNode]
      rw [this]
    | internal =>
      have hl := (hb.shape.internal_iff hcg).1 hck
      obtain ⟨h3, h4⟩ := ih hl hcl hw
      simp only [List.cons_append, walkBits, hdec, hck]
      exact ⟨h3, h4⟩

/-- With one symbol, a positive one is it. -/
theorem Built.positiveSymbols_sole {freq : Vector Word 128} {r : BuildResult} {nodes : List Node} {k : Key}
    (hb : Built freq r nodes k) {x : SymIx} (hx : positive freq x) (h : (positiveSymbols freq).length < 2) :
    positiveSymbols freq = [x] := by
  have h1 := hb.pos
  obtain ⟨y, hy⟩ := List.length_eq_one_iff.1 (by omega : (positiveSymbols freq).length = 1)
  have := mem_positiveSymbols.2 hx
  rw [hy, List.mem_singleton] at this
  rw [hy, this]

/-- R170: from the root, the bits of a codeword emit its symbol and return to the root. -/
theorem Built.walkBits_codeword {freq : Vector Word 128} {r : BuildResult} {nodes : List Node} {k : Key}
    (hb : Built freq r nodes k) {x : SymIx} (hx : positive freq x) (rest : List Bool) :
    walkBits r.node r.root r.root (codeword r.code[x] ++ rest) =
      (walkBits r.node r.root r.root rest).map fun q => (q.1, BitVec.ofNat 7 x.val :: q.2) := by
  have hroot := hb.root
  have hle := hb.length_le
  by_cases h2 : 2 ≤ (positiveSymbols freq).length
  · obtain ⟨bs, j, hw, hj, -, -⟩ := hb.exists_path hx
    have hlen := hb.length
    have hjl := (List.getElem?_eq_some_iff.1 hj).1
    have hj8 : (BitVec.ofNat 8 j).toNat = j := by rw [BitVec.toNat_ofNat]; omega
    have hcw := hb.codeword_eq h2 hw hj
    obtain ⟨y, hy, h⟩ := (walkBits_path hb (i := r.root) (j := BitVec.ofNat 8 j) (bs := bs) (by rw [hb.root_toNat]; omega)
      (by rw [hb.root_toNat]; omega) (by rw [hb.root_toNat, hj8]; exact hw)).1 rest
      (by rw [hj8]; exact (hb.shape.leaf j _ hj).1 rfl)
    rw [hj8, hj] at hy
    have : x = y := by rw [← leafIx_leafNode freq x, Option.some.inj hy, leafIx_leafNode]
    rw [hcw, this, h]
  · have hs := hb.positiveSymbols_sole hx (by omega)
    obtain ⟨j, hjl, hj⟩ := hb.exists_leaf hx
    have hj0 : r.root.toNat = j := by rw [hb.root_toNat]; rw [hs] at hroot hjl; simp at hroot hjl; omega
    rw [hb.code_eq_sole hs]
    have hd : decStep r.node r.root r.root false = .emit (BitVec.ofNat 7 x.val) r.root := by
      have hv' : validNode r.node r.root = some (leafNode freq x) := by
        rw [hb.node_eq]
        have := hj0 ▸ hj
        exact validNode_arenaOf this (hb.shape.valid _ (List.mem_of_getElem? hj)) hb.length_le
      have hl : leafSymbol (leafNode freq x) = BitVec.ofNat 7 x.val := by
        apply BitVec.eq_of_toNat_eq; simp [leafSymbol, leafNode]
      simp only [decStep, hv']
      rw [show (leafNode freq x).kind = .leaf from rfl]
      simp only [and_self, if_true, hl]
    show walkBits r.node r.root r.root (false :: rest) = _
    simp only [walkBits, hd]

/-- R177 (b): from the root, the first bits of a codeword lead to another entry and emit nothing. -/
theorem Built.walkBits_inside {freq : Vector Word 128} {r : BuildResult} {nodes : List Node} {k : Key}
    (hb : Built freq r nodes k) {x : SymIx} (hx : positive freq x) {pre suf : List Bool}
    (h : pre ++ suf = codeword r.code[x]) (hp : pre ≠ []) (hsf : suf ≠ []) :
    ∃ c, c ≠ r.root ∧ walkBits r.node r.root r.root pre = some (c, []) := by
  have hroot := hb.root
  have hle := hb.length_le
  have hpl := List.length_pos_of_ne_nil hp
  have hsl := List.length_pos_of_ne_nil hsf
  by_cases h2 : 2 ≤ (positiveSymbols freq).length
  · obtain ⟨bs, j, hw, hj, -, -⟩ := hb.exists_path hx
    have hlen := hb.length
    rw [hb.codeword_eq h2 hw hj] at h
    subst h
    rw [walkIx_append, Option.bind_eq_some_iff] at hw
    obtain ⟨m, hm, hw⟩ := hw
    obtain ⟨b1, -⟩ := hb.shape.walkIx_bound hm
    obtain ⟨-, b2⟩ := hb.shape.walkIx_bound hw
    have b2 := b2 hsf
    have hm8 : (BitVec.ofNat 8 m).toNat = m := by rw [BitVec.toNat_ofNat]; omega
    refine ⟨BitVec.ofNat 8 m, ?_, ?_⟩
    · intro he; have := congrArg BitVec.toNat he; rw [hm8, hb.root_toNat] at this; omega
    · exact (walkBits_path hb (by rw [hb.root_toNat]; omega)
        (by rw [hb.root_toNat]; omega) (by rw [hb.root_toNat, hm8]; exact hm)).2 (by rw [hm8]; omega)
  · have hs := hb.positiveSymbols_sole hx (by omega)
    rw [hb.code_eq_sole hs] at h
    have h1 := congrArg List.length h
    rw [List.length_append, show (codeword soleCode).length = 1 from rfl] at h1
    omega

end Sys2Proof.Machine
end

