-- ==== Sys2Proof/Tests/Slice0.lean ====
section
/-! SUPPORT. Small checks: ill-formed commands and parameters are refused, every command decodes from its word written out
from spec/30_encoding.md R81 and R85, one step per command against spec/95_test_vectors.md, and for each obligation with
hypotheses a state and operands that meet them. Expected values are the spec's vectors or computed by hand from its rules. -/

namespace Sys2Proof.Tests

open Sys2Proof Sys2Proof.Machine

/-! ## Helpers -/

/-- A test of the next state. -/
def after (r : Result) (f : State → Bool) : Bool :=
  match r with
  | .next t => f t
  | .fault _ => false
  | .refused _ => false

theorem exists_of_after {r : Result} {f : State → Bool} (h : after r f = true) : ∃ t, r = .next t ∧ f t = true := by
  cases r with
  | next t => exact ⟨t, rfl, h⟩
  | fault _ => exact absurd h (by simp [after])
  | refused _ => exact absurd h (by simp [after])

/-- ERR and ERR_INFO. -/
def ends (t : State) (e : ErrCode) (n : BitVec 5) : Bool := t.err == e && t.errInfo == n

/-- RES0 and RES1. -/
def results (t : State) (r0 r1 : Word) : Bool := t.res0 == r0 && t.res1 == r1

/-- A state with the given counts. -/
def counts (l : List (SymIx × Word)) : State :=
  { State.reset with freq := l.foldl (fun t e => t.set e.1 e.2) (Vector.replicate 128 0) }

/-- After reset, with a value in ARG. -/
def withArg (v : Word) : State := { State.reset with arg := v }

/-- §8 of the source: {a:5, b:2, c:1, d:1}. -/
def abcd : State := counts [(0x61, 5), (0x62, 2), (0x63, 1), (0x64, 1)]

/-- A leaf, an internal node. -/
def leafOf (a : Byte) (w : Weight) : Node := { valid := true, kind := .leaf, a := a, b := 0, weight := w }
def innerOf (a b : Byte) (w : Weight) : Node := { valid := true, kind := .internal, a := a, b := b, weight := w }

/-- The tree and the codes of vector 2.1, as its tables list them. -/
def treeAbcd : State :=
  { State.reset with
    node := ([leafOf 0x61 5, leafOf 0x62 2, leafOf 0x63 1, leafOf 0x64 1, innerOf 2 3 2, innerOf 1 4 4,
      innerOf 5 0 9].zipIdx).foldl (fun t e => t.setIfInBounds e.2 e.1) State.reset.node
    root := 6, decCur := 6, nleaf := 4, ncount := 7
    code := (((State.reset.code.set 0x61 { len := 1, bits := 1 }).set 0x62 { len := 2, bits := 0 }).set 0x63
      { len := 3, bits := 2 }).set 0x64 { len := 3, bits := 3 } }

/-- The tree of vector 2.2, {x:1}. -/
def treeX : State :=
  { State.reset with
    node := State.reset.node.set 0 (leafOf 0x78 1)
    root := 0, decCur := 0, nleaf := 1, ncount := 1
    code := State.reset.code.set 0x78 { len := 1, bits := 0 } }

/-- Codes 1 and 2 of vector N9, DEPTH_OUT = 4. -/
def longCodes : State :=
  { State.reset with
    cfg := { depthOut := 4, depthSym := 32 }
    code := ((Vector.replicate 128 Code.empty).set 1 { len := 31, bits := 0x7FFFFFFF }).set 2
      { len := 127, bits := BitVec.allOnes 127 } }

/-- A state whose next transaction is a CMD write. -/
def commanding (w : Word) (s : State) : State := { s with pending := [.busWrite 0x0C 4 w] }

/-! ## Ill-formed terms -/

theorem test_wellFormed_refuses_a : Instr.wellFormed (.freqWr 256) = false := by decide
theorem test_wellFormed_refuses_k : Instr.wellFormed (.codeRd 0 4) = false := by decide
theorem test_wellFormed_refuses_a_of_ak : Instr.wellFormed (.codeWr 256 3) = false := by decide
theorem test_config_refuses_small_depthOut : Config.wellFormed { depthOut := 3, depthSym := 32 } = false := by decide
theorem test_config_refuses_large_depthOut : Config.wellFormed { depthOut := 32, depthSym := 32 } = false := by decide
theorem test_config_refuses_small_depthSym : Config.wellFormed { depthOut := 4, depthSym := 31 } = false := by decide
theorem test_config_refuses_large_depthSym : Config.wellFormed { depthOut := 4, depthSym := 64 } = false := by decide

/-! ## Decoding, one word per command -/

/-- NOP: RSV, K, A, OP as R81 lays them and R85 numbers them. -/
theorem test_decode_nop : decode 0b00000000000000_00_00000000_00000000#32 = .ok .nop := by decide
/-- CLR: RSV, K, A, OP as R81 lays them and R85 numbers them. -/
theorem test_decode_clr : decode 0b00000000000000_00_00000000_00000001#32 = .ok .clr := by decide
/-- FREQ_WR: RSV, K, A, OP as R81 lays them and R85 numbers them. -/
theorem test_decode_freqWr : decode 0b00000000000000_00_01100001_00000010#32 = .ok (.freqWr 97) := by decide
/-- FREQ_RD: RSV, K, A, OP as R81 lays them and R85 numbers them. -/
theorem test_decode_freqRd : decode 0b00000000000000_00_01111111_00000011#32 = .ok (.freqRd 127) := by decide
/-- BUILD: RSV, K, A, OP as R81 lays them and R85 numbers them. -/
theorem test_decode_build : decode 0b00000000000000_00_00000000_00000100#32 = .ok .build := by decide
/-- TREE_INFO: RSV, K, A, OP as R81 lays them and R85 numbers them. -/
theorem test_decode_treeInfo : decode 0b00000000000000_00_00000000_00000101#32 = .ok .treeInfo := by decide
/-- NODE_RD: RSV, K, A, OP as R81 lays them and R85 numbers them. -/
theorem test_decode_nodeRd : decode 0b00000000000000_00_00000110_00000110#32 = .ok (.nodeRd 6) := by decide
/-- NODE_WR: RSV, K, A, OP as R81 lays them and R85 numbers them. -/
theorem test_decode_nodeWr : decode 0b00000000000000_00_11111110_00000111#32 = .ok (.nodeWr 254) := by decide
/-- ROOT_WR: RSV, K, A, OP as R81 lays them and R85 numbers them. -/
theorem test_decode_rootWr : decode 0b00000000000000_00_00000000_00001000#32 = .ok .rootWr := by decide
/-- CODE_RD: RSV, K, A, OP as R81 lays them and R85 numbers them. -/
theorem test_decode_codeRd : decode 0b00000000000000_01_01100001_00001001#32 = .ok (.codeRd 97 1) := by decide
/-- CODE_WR: RSV, K, A, OP as R81 lays them and R85 numbers them. -/
theorem test_decode_codeWr : decode 0b00000000000000_11_00000010_00001010#32 = .ok (.codeWr 2 3) := by decide
/-- CODE_LEN_WR: RSV, K, A, OP as R81 lays them and R85 numbers them. -/
theorem test_decode_codeLenWr : decode 0b00000000000000_00_01111010_00001011#32 = .ok (.codeLenWr 122) := by decide
/-- ENC_SYM: RSV, K, A, OP as R81 lays them and R85 numbers them. -/
theorem test_decode_encSym : decode 0b00000000000000_00_01100100_00010000#32 = .ok (.encSym 100) := by decide
/-- ENC_FLUSH: RSV, K, A, OP as R81 lays them and R85 numbers them. -/
theorem test_decode_encFlush : decode 0b00000000000000_00_00000000_00010001#32 = .ok .encFlush := by decide
/-- ENC_RESET: RSV, K, A, OP as R81 lays them and R85 numbers them. -/
theorem test_decode_encReset : decode 0b00000000000000_00_00000000_00010010#32 = .ok .encReset := by decide
/-- OUT_POP: RSV, K, A, OP as R81 lays them and R85 numbers them. -/
theorem test_decode_outPop : decode 0b00000000000000_00_00000000_00010011#32 = .ok .outPop := by decide
/-- ENC_INFO: RSV, K, A, OP as R81 lays them and R85 numbers them. -/
theorem test_decode_encInfo : decode 0b00000000000000_00_00000000_00010100#32 = .ok .encInfo := by decide
/-- DEC_WORD: RSV, K, A, OP as R81 lays them and R85 numbers them. -/
theorem test_decode_decWord : decode 0b00000000000000_00_00100000_00100000#32 = .ok (.decWord 32) := by decide
/-- DEC_END: RSV, K, A, OP as R81 lays them and R85 numbers them. -/
theorem test_decode_decEnd : decode 0b00000000000000_00_00000000_00100001#32 = .ok .decEnd := by decide
/-- DEC_RESET: RSV, K, A, OP as R81 lays them and R85 numbers them. -/
theorem test_decode_decReset : decode 0b00000000000000_00_00000000_00100010#32 = .ok .decReset := by decide
/-- SYM_POP: RSV, K, A, OP as R81 lays them and R85 numbers them. -/
theorem test_decode_symPop : decode 0b00000000000000_00_00000000_00100011#32 = .ok .symPop := by decide
/-- DEC_INFO: RSV, K, A, OP as R81 lays them and R85 numbers them. -/
theorem test_decode_decInfo : decode 0b00000000000000_00_00000000_00100100#32 = .ok .decInfo := by decide

theorem test_decodeTableWord_nodeRd : decodeTableWord 32 0x0606 = some (.nodeRd 6) := by decide
theorem test_decodeTableWord_rejects : decodeTableWord 32 0x0104 = none := by decide
theorem test_decode_names_undefined_op : decode 0x000000FF#32 = .error .undefinedOp := by decide
theorem test_decode_names_nonzero_field : decode 0x00010002#32 = .error .nonzeroField := by decide

/-! ## One step per command (spec/95_test_vectors.md) -/

/-- T1 -/
theorem test_nop : after (exec .nop { State.reset with err := .fifoEmpty, arg := 7 })
    (fun t => ends t .ok 0 && t.arg == 7) = true := by decide +kernel
/-- T2 -/
theorem test_clr : after (exec .clr { treeAbcd with arg := 0xFFFFFFFF })
    (fun t => t.arg == 0 && statusWord t == 0 && t.freq[0x61] == 0 && t.node[6] == Node.empty &&
      t.code[0x61] == Code.empty) = true := by decide +kernel
/-- T5 -/
theorem test_freqWr : after (exec (.freqWr 0x7F) (withArg 0xFFFFFFFF))
    (fun t => t.freq[127] == 0xFFFFFFFF && t.freq[126] == 0) = true := by decide +kernel
/-- T4 -/
theorem test_freqWr_badOperand : after (exec (.freqWr 128) (withArg 5))
    (fun t => ends t .badOperand 0 && t.freq == State.reset.freq) = true := by decide +kernel
/-- R111 on the counts of 2.1 -/
theorem test_freqRd : after (exec (.freqRd 0x61) { abcd with res1 := 9 }) (fun t => results t 5 0) = true := by
  decide +kernel
/-- 2.1: root, nodes and codes -/
theorem test_build : after (exec .build abcd) (fun t => results t 0x00070406 0 && t.decCur == 6 &&
    t.node[4] == { valid := true, kind := .internal, a := 2, b := 3, weight := 2 } &&
    t.node[6] == { valid := true, kind := .internal, a := 5, b := 0, weight := 9 } &&
    t.code[0x61] == { len := 1, bits := 1 } && t.code[0x64] == { len := 3, bits := 3 }) = true := by decide +kernel
/-- T8: the tie (2,0) < (2,3) puts 'a' left -/
theorem test_build_tie : after (exec .build (counts [(0x61, 2), (0x62, 1), (0x63, 1)]))
    (fun t => t.node[4].a == 0 && t.node[4].b == 3 && t.code[0x61] == { len := 1, bits := 0 }) = true := by
  decide +kernel
/-- T16 -/
theorem test_treeInfo : after (exec .treeInfo State.reset) (fun t => results t 0x000000FF 0) = true := by decide +kernel
/-- T18's read -/
theorem test_nodeRd : after (exec (.nodeRd 4) treeAbcd) (fun t => results t 2 0xC0000302) = true := by decide +kernel
/-- T12: the weight 0x7FFFFFFF80 of 39 bits -/
theorem test_nodeRd_weight : after (exec (.nodeRd 254) { State.reset with
      node := State.reset.node.set 254
        { valid := true, kind := .internal, a := 252, b := 253, weight := 0x7FFFFFFF80 } })
    (fun t => results t 0xFFFFFF80 0xC07FFDFC) = true := by decide +kernel
/-- P4 -/
theorem test_nodeWr : after (exec (.nodeWr 2) (withArg 0xC000FF03)) (fun t =>
    t.node[2] == { valid := true, kind := .internal, a := 3, b := 0xFF, weight := 0 }) = true := by decide +kernel
/-- R83: 255 names no entry -/
theorem test_nodeWr_badOperand : after (exec (.nodeWr 255) (withArg 0)) (fun t => ends t .badOperand 0) = true := by
  decide +kernel
/-- T19 -/
theorem test_rootWr : after (exec .rootWr treeAbcd) (fun t => t.root == 0 && t.decCur == 0 && t.ncount == 7) = true := by
  decide +kernel
/-- P5 -/
theorem test_codeRd : after (exec (.codeRd 2 3) longCodes) (fun t => results t 0x7FFFFFFF 127) = true := by
  decide +kernel
/-- T22 -/
theorem test_codeWr : after (exec (.codeWr 2 3) (withArg 0xFFFFFFFF)) (fun t =>
    t.code[2] == { len := 0, bits := 0x7FFFFFFF000000000000000000000000 }) = true := by decide +kernel
/-- R125: the other words are kept -/
theorem test_codeWr_keeps : after (exec (.codeWr 2 1) { longCodes with arg := 0 }) (fun t =>
    t.code[2] == { len := 127, bits := 0x7FFFFFFFFFFFFFFF00000000FFFFFFFF }) = true := by decide +kernel
/-- T25 -/
theorem test_codeLenWr : after (exec (.codeLenWr 5) (withArg 0x127)) (fun t => t.code[5].len == 0x27) = true := by
  decide +kernel
/-- T24 -/
theorem test_codeLenWr_badOperand : after (exec (.codeLenWr 5) (withArg 128)) (fun t =>
    ends t .badOperand 0 && t.code[5].len == 0) = true := by decide +kernel
/-- N10 -/
theorem test_encSym : after (exec (.encSym 2) { longCodes with pack := 0xFFFFFFFE, fill := 31, encTotal := 31 })
    (fun t => t.outq == List.replicate 4 { data := 0xFFFFFFFF, nbits := 32 } && t.pack == 0xFFFFFFFC && t.fill == 30 &&
      t.encTotal == 158 && results t 127 4) = true := by decide +kernel
/-- N12: UNKNOWN_SYMBOL before OUT_FULL -/
theorem test_encSym_unknown : after (exec (.encSym 5) { longCodes with
      outq := List.replicate 4 { data := 0xFFFFFFFF, nbits := 32 }, fill := 30 })
    (fun t => ends t .unknownSymbol 0 && t.fill == 30) = true := by decide +kernel
/-- N4 -/
theorem test_encFlush : after (exec .encFlush { State.reset with pack := 0xC4C00000, fill := 10 })
    (fun t => t.outq == [{ data := 0xC4C00000, nbits := 10 }] && t.pack == 0 && t.fill == 0 && results t 10 1) = true := by
  decide +kernel
/-- N5 -/
theorem test_encFlush_empty : after (exec .encFlush { State.reset with res0 := 3, res1 := 4 })
    (fun t => t.outq == [] && results t 0 0) = true := by decide +kernel
/-- N16 -/
theorem test_encReset : after (exec .encReset { State.reset with
      encTotal := 10, fill := 2, pack := 0x80000000, outq := [{ data := 0xC4C00000, nbits := 10 }] })
    (fun t => t.outq == [] && t.pack == 0 && t.fill == 0 && t.encTotal == 0) = true := by decide +kernel
/-- P1 -/
theorem test_outPop : after (exec .outPop { State.reset with outq := [{ data := 0xC4C00000, nbits := 10 }] })
    (fun t => t.outq == [] && results t 0xC4C00000 10) = true := by decide +kernel
/-- N15 -/
theorem test_outPop_empty : after (exec .outPop { State.reset with res0 := 1 })
    (fun t => ends t .fifoEmpty 0 && t.res0 == 1) = true := by decide +kernel
/-- N3 -/
theorem test_encInfo : after (exec .encInfo { State.reset with encTotal := 10, pack := 0xC4C00000 })
    (fun t => results t 10 0xC4C00000) = true := by decide +kernel
/-- D3 -/
theorem test_decWord : after (exec (.decWord 9) { treeAbcd with arg := 0xC4800000 })
    (fun t => t.symq == [0x61, 0x61, 0x62, 0x63] && results t 4 4 && t.decCur == 4) = true := by decide +kernel
/-- D12: the symbol of bit 0 is not queued -/
theorem test_decWord_malformed : after (exec (.decWord 2) { treeX with arg := 0x40000000 })
    (fun t => ends t .malformedTree 1 && t.symq == []) = true := by decide +kernel
/-- D5 -/
theorem test_decEnd : after (exec .decEnd { treeAbcd with decCur := 4, symq := [0x61] })
    (fun t => ends t .truncatedStream 0 && t.decCur == 6 && t.symq == [0x61]) = true := by decide +kernel
/-- D27 -/
theorem test_decReset : after (exec .decReset { treeAbcd with decCur := 4, symq := [0x61] })
    (fun t => ends t .ok 0 && t.decCur == 6 && t.symq == []) = true := by decide +kernel
/-- D2 -/
theorem test_symPop : after (exec .symPop { State.reset with symq := [0x61, 0x62] })
    (fun t => t.symq == [0x62] && results t 0x61 1) = true := by decide +kernel
/-- D4 -/
theorem test_decInfo : after (exec .decInfo { treeAbcd with decCur := 4 }) (fun t => results t 4 6) = true := by
  decide +kernel
/-- N2 -/
theorem test_status : statusWord { treeAbcd with fill := 10 } = 0x00000290#32 := by decide +kernel
/-- P4 -/
theorem test_status_info : statusWord { State.reset with
    root := 0, decCur := 0, err := .malformedTree, errInfo := 1, symq := [0x41, 0x7A, 0x41] } = 0x00430014#32 := by
  decide +kernel
/-- B4 -/
theorem test_param : paramWord { depthOut := 4, depthSym := 32 } = 0x20802004#32 := by decide
/-- B15: ILLEGAL_CMD before BAD_OPERAND -/
theorem test_illegal_first : after (step (commanding 0x0001FF02 State.reset)) (fun t => ends t .illegalCmd 0) = true := by
  decide +kernel
/-- R64: the word `withFetchWord` places runs next -/
theorem test_withFetchWord : after (step (State.reset.withFetchWord 32 0x05)) (fun t => results t 0xFF 0) = true := by
  decide +kernel

/-! ## Every obligation's hypotheses are met somewhere -/

/-- One command of each constructor. -/
def oneOfEach : List Instr :=
  [.nop, .clr, .freqWr 0, .freqRd 127, .build, .treeInfo, .nodeRd 254, .nodeWr 0, .rootWr, .codeRd 127 3, .codeWr 0 0] ++
  [.codeLenWr 0, .encSym 0, .encFlush, .encReset, .outPop, .encInfo, .decWord 32, .decEnd, .decReset, .symPop, .decInfo]

/-- ParamReportsFixedDepths, ArgWrittenOnlyByHostAndClr, ResultRegistersKept, the three ...WrittenOnlyBy... statements,
ErrorCodesByCommand: a command of every form ends in a next state. -/
theorem witness_commands : ∀ i ∈ oneOfEach, after (exec i State.reset) (fun _ => true) = true := by decide +kernel

theorem witness_wellFormed : ∀ i ∈ oneOfEach, i.wellFormed = true := by decide
theorem witness_DecodeOfEncode : Instr.wellFormed (.codeRd 255 3) = true := by decide
theorem witness_EncodeOfDecode : decode 0x0003FF09#32 = .ok (.codeRd 255 3) := by decide
theorem witness_CmdWordSelectsRow :
    (∃ r ∈ opcodeMap, 0x0000FF20#32 &&& r.format.mask = r.pattern) ∧
    (∀ r ∈ opcodeMap, 0x0000000C#32 &&& r.format.mask ≠ r.pattern) := by decide
theorem witness_IllegalWordsRaise :
    [0x0C#32, 0x0F#32, 0x15#32, 0x1F#32, 0x25#32, 0xFF#32, 0x00040000#32, 0x80000000#32].all (fun w =>
      decide ((0x0C ≤ (fieldOp w).toNat ∧ (fieldOp w).toNat ≤ 0x0F) ∨
        (0x15 ≤ (fieldOp w).toNat ∧ (fieldOp w).toNat ≤ 0x1F) ∨
        0x25 ≤ (fieldOp w).toNat ∨ w.extractLsb' 18 14 ≠ 0)) = true := by decide
/-- Every MisfitIsIllegal: the row's word with RSV bit 31, and with the lowest bit its format does not use. -/
theorem witness_MisfitIsIllegal : ∀ r ∈ opcodeMap,
    (fieldOp (r.pattern ||| 0x80000000#32) = r.op ∧ (r.pattern ||| 0x80000000#32) &&& r.format.mask ≠ r.op.setWidth 32) ∧
    (∃ b ∈ [8, 16, 18], fieldOp (r.pattern ||| (1#32 <<< b)) = r.op ∧
      (r.pattern ||| (1#32 <<< b)) &&& r.format.mask ≠ r.op.setWidth 32) := by decide
theorem witness_StepRunsTheDecodedCommand :
    ((commanding 0x00002020#32 State.reset).pending = [.busWrite 0x0C 4 0x00002020#32] ∧
      decode 0x00002020#32 = .ok (.decWord 32)) ∧
    ((commanding 0x00000025#32 State.reset).pending = [.busWrite 0x0C 4 0x00000025#32] ∧
      decode 0x00000025#32 = .error .undefinedOp) ∧
    State.reset.pending = [] ∧ decode (BitVec.ofNat 32 (0x100000606 % 2 ^ 32)) = .ok (.nodeRd 6) := by decide +kernel
theorem witness_RegisterWindowAccesses :
    (∀ off ∈ [0x00, 0x04, 0x08, 0x0C, 0x10, 0x14, 0x18, 0x1C],
      { State.reset with pending := [.busRead off 4] }.pending = [.busRead off 4]) ∧
    { State.reset with pending := [.busWrite 0x08 4 7#32] }.pending = [.busWrite 0x08 4 7#32] ∧
    0x1C ∈ [0x00, 0x04, 0x10, 0x14, 0x18, 0x1C] := by decide +kernel
/-- Each reason alone: 2 bytes wide, offset 2, offset 0x20. -/
theorem witness_StepRefusesExactlyBadAccesses :
    ∀ a ∈ [(0x00, 2), (0x02, 4), (0x20, 4)], (a.2 ≠ 4 ∨ a.1 % 4 ≠ 0 ∨ 0x1C < a.1) ∧
      { State.reset with pending := [.busRead a.1 a.2] }.pending = [.busRead a.1 a.2] := by decide +kernel
/-- Both FIFOs full at the largest depths. -/
def fullQueues : State :=
  { State.reset with
    cfg := { depthOut := 31, depthSym := 63 }
    outq := List.replicate 31 { data := 0x80000000, nbits := 1 }
    symq := List.replicate 63 0x7F }
theorem witness_StatusWordFields : fullQueues.FifoBounds := by unfold State.FifoBounds; decide +kernel
theorem witness_ParamReportsFixedDepths :
    Config.wellFormed { depthOut := 4, depthSym := 32 } = true ∧
    Config.wellFormed { depthOut := 31, depthSym := 63 } = true ∧ ∃ t, step State.reset = .next t :=
  ⟨by decide, by decide, _, rfl⟩
theorem witness_ResetAndClrValues :
    State.reset = State.reset.cleared ∧ { State.reset with pending := [.reset] }.pending = [.reset] := ⟨rfl, rfl⟩
theorem witness_RaisedErrorsUndoTheCommand :
    ∃ t, exec .outPop State.reset = .next t ∧ (t.err != .ok && t.err != .truncatedStream) = true :=
  exists_of_after (by decide +kernel)
/-- The only clause RaisedErrorsUndoTheCommand leaves out, R204. -/
theorem witness_report : ∃ t, exec .decEnd { State.reset with decCur := 0 } = .next t ∧ (t.err == .truncatedStream) = true :=
  exists_of_after (by decide +kernel)
theorem witness_InfoIsTheBitIndex :
    (∃ t, runCommand 0x00000220#32 { treeX with arg := 0x40000000 } = .next t ∧
      (t.errInfo != 0 && t.err == .malformedTree) = true) ∧
    (∃ t, exec (.decWord 4) { treeX with symq := List.replicate 30 0, arg := 0 } = .next t ∧
      (t.err == .symFull && t.errInfo == 2) = true) :=
  ⟨exists_of_after (by decide +kernel), exists_of_after (by decide +kernel)⟩

/-- Operand bounds: the last legal value and the first illegal one of each form (R83), and the largest encodable. -/
theorem witness_operands : 127 < 128 ∧ 128 ≤ 128 ∧ 254 < 255 ∧ 255 ≤ 255 ∧ (3 : Nat) ≤ 3 ∧ (32 * 3 + 30 < 127) := by decide
/-- CodeLenWrStoresTheLength: ARG[7:0] = 127 and 128. -/
theorem witness_CodeLenWrStoresTheLength :
    ((withArg 0x17F).arg.extractLsb' 0 8).toNat ≤ 127 ∧ 128 ≤ ((withArg 0x80).arg.extractLsb' 0 8).toNat := by
  decide +kernel

theorem witness_BuildRaisesEmptyAlphabet :
    (∀ x : SymIx, State.reset.freq[x] = 0) ∧ ∃ t, exec .build State.reset = .next t ∧ (t.err == .emptyAlphabet) = true :=
  ⟨by decide +kernel, exists_of_after (by decide +kernel)⟩
/-- Four symbols. BuildCompletes, BuildPlacesLeavesInOrder, BuildTreeIsStrict, BuildCodesArePrefixFree,
BuildCodesAreOptimal; the entries 4 to 6 of BuildMergesTwoLeastKeys and the codes of BuildCodesArePaths. -/
theorem witness_build : positive abcd.freq 0x61 ∧ 2 ≤ leafCount abcd.freq ∧
    ∃ t, exec .build abcd = .next t ∧ (t.err == .ok && leafCount abcd.freq == 4 && t.ncount == 7) = true :=
  ⟨by unfold positive; decide +kernel, by decide +kernel, exists_of_after (by decide +kernel)⟩
/-- The other code of BuildCodesAreOptimal: every length 2, cost 18 (vector 2.1). -/
theorem witness_BuildCodesAreOptimal :
    ∃ other : SymIx → List Bool, (∀ x, positive abcd.freq x → other x ≠ []) ∧ prefixFree abcd.freq other ∧
      codingCost abcd.freq other = 18 := by
  refine ⟨fun x => [x.val % 4 / 2 == 1, x.val % 2 == 1], fun _ _ => by simp, fun x y hx hy => ?_, by decide +kernel⟩
  have h : ∀ x : SymIx, abcd.freq[x] ≠ 0 → x ∈ ([0x61, 0x62, 0x63, 0x64] : List SymIx) := by decide +kernel
  have key : ∀ x ∈ ([0x61, 0x62, 0x63, 0x64] : List SymIx), ∀ y ∈ ([0x61, 0x62, 0x63, 0x64] : List SymIx), x ≠ y →
      ¬ [x.val % 4 / 2 == 1, x.val % 2 == 1] <+: [y.val % 4 / 2 == 1, y.val % 2 == 1] := by decide +kernel
  exact key x (h x hx) y (h y hy)
/-- A sole symbol: BuildSingleSymbol and the second clause of MalformedOnlyAtALeafRootOrWithoutATree. -/
theorem witness_sole : positive (counts [(0x78, 1)]).freq 0x78 ∧ leafCount (counts [(0x78, 1)]).freq = 1 ∧
    (∀ y, positive (counts [(0x78, 1)]).freq y → y = 0x78) ∧
    ∃ t, exec .build (counts [(0x78, 1)]) = .next t ∧ (t.err == .ok) = true := by
  refine ⟨by unfold positive; decide +kernel, by decide +kernel, ?_, exists_of_after (by decide +kernel)⟩
  unfold positive; decide +kernel
/-- R127 (e): two states with one FREQ. -/
theorem witness_same_freq : abcd.freq = { abcd with root := 3, arg := 9 }.freq := rfl

/-- EncSymAppendsTheCodeword at its bound: 31 + 127 bits complete 4 words, 4 entries are free. -/
theorem witness_EncSymAppendsTheCodeword : longCodes.code[2].len ≠ 0 ∧
    { longCodes with fill := 31 }.outq.length + (31 + longCodes.code[2].len.toNat) / 32 ≤ longCodes.cfg.depthOut := by
  decide +kernel
theorem witness_EncSymErrors : longCodes.code[5].len = 0 ∧ longCodes.code[1].len ≠ 0 ∧
    longCodes.cfg.depthOut < 4 + (30 + longCodes.code[1].len.toNat) / 32 := by decide +kernel
theorem witness_EncFlushPushesThePartialWord : State.reset.fill = 0 ∧
    ({ State.reset with fill := 31 }.fill ≠ 0 ∧ State.reset.outq.length ≠ State.reset.cfg.depthOut) ∧
    fullQueues.outq.length = fullQueues.cfg.depthOut := by decide +kernel
theorem witness_pops : { State.reset with outq := [{ data := 1, nbits := 32 }] }.outq = [{ data := 1, nbits := 32 }] ∧
    State.reset.outq = [] ∧ { State.reset with symq := [0x7F] }.symq = [0x7F] ∧ State.reset.symq = [] := by decide +kernel
/-- A codeword that fills OUTQ, a retry, a pop, and the codeword again (N10, N11, N13). -/
theorem witness_EncodedStreamIsTheCodewords :
    ∃ ws t, EncodeRun (([2, 1] : List SymIx).map fun x => .encSym x.val)
      { longCodes with pack := 0xFFFFFFFE, fill := 31 } ws [] t := by
  obtain ⟨a, ha, hae⟩ : ∃ a, exec (.encSym 2) { longCodes with pack := 0xFFFFFFFE, fill := 31 } = .next a ∧
      (a.err == .ok && after (exec (.encSym 1) a) (fun b => b.err == .outFull && after (exec .outPop b) (fun c =>
        c.err == .ok && after (exec (.encSym 1) c) (fun d => d.err == .ok)))) = true :=
    exists_of_after (by decide +kernel)
  simp only [Bool.and_eq_true, beq_iff_eq] at hae
  obtain ⟨b, hb, hbe⟩ := exists_of_after hae.2
  simp only [Bool.and_eq_true, beq_iff_eq] at hbe
  obtain ⟨c, hc, hce⟩ := exists_of_after hbe.2
  simp only [Bool.and_eq_true, beq_iff_eq] at hce
  obtain ⟨d, hd, hde⟩ := exists_of_after hce.2
  exact ⟨_, d, .issue ha hae.1 (.retry hb hbe.1 (.pop hc hce.1 (.issue hd (by simpa using hde) (.done [] d))))⟩
theorem witness_EmptyQueuesNeverOverflow : longCodes.cfg.wellFormed = true ∧ longCodes.LengthsLegal ∧
    longCodes.outq.length ≤ longCodes.cfg.depthOut - 4 ∧ longCodes.symq = [] ∧
    (∃ t, exec (.encSym 2) longCodes = .next t ∧ (t.err == .ok) = true) ∧
    (∃ t, exec (.decWord 32) { treeX with arg := 0 } = .next t ∧ (t.err == .ok) = true) := by
  refine ⟨by decide +kernel, ?_, by decide +kernel, by decide +kernel, exists_of_after (by decide +kernel),
    exists_of_after (by decide +kernel)⟩
  unfold State.LengthsLegal; decide +kernel

/-- P4's arena (D21, D24): 0 = (1, 2), 1 = leaf 'z', 2 = (3, NULL), 3 = leaf 'A'; entry 254 has an empty child. -/
def loadedArena : Vector Node 255 :=
  ((((State.reset.node.set 0 (innerOf 1 2 0)).set 1 (leafOf 0x7A 0)).set 2 (innerOf 3 0xFF 0)).set 3
    (leafOf 0x41 0)).set 254 (innerOf 5 0 0)
/-- Each clause of DecStepCases: an empty entry, a leaf as root, a leaf elsewhere, and an internal entry whose child is
NULL, empty, a leaf and internal. -/
theorem witness_DecStepCases :
    loadedArena[5].valid = false ∧
    (loadedArena[1].valid = true ∧ loadedArena[1].kind = .leaf) ∧
    (loadedArena[2].valid = true ∧ loadedArena[2].kind = .internal ∧ loadedArena[2].b = 0xFF#8) ∧
    (loadedArena[254].valid = true ∧ loadedArena[254].kind = .internal ∧ loadedArena[254].a = 5 ∧
      loadedArena[254].b = 0) ∧
    (loadedArena[0].valid = true ∧ loadedArena[0].kind = .internal ∧ loadedArena[0].a = 1 ∧ loadedArena[0].b = 2) := by
  decide +kernel
/-- Each clause of DecWordWalksTheBits: D3 (inside a codeword), D12 (bit 1 malformed), D18 (bit 2 finds SYMQ full). -/
theorem witness_DecWordWalksTheBits :
    ((0 < 1 ∨ 32 < 0) ∧ (33 < 1 ∨ 32 < 33)) ∧
    (walkBits treeAbcd.node treeAbcd.root treeAbcd.decCur ((List.range 9).map fun i => (0xC4800000#32).getLsbD (31 - i)) =
      some (4, [0x61, 0x61, 0x62, 0x63])) ∧
    (walkBits treeX.node treeX.root treeX.decCur ((List.range 1).map fun i => (0x40000000#32).getLsbD (31 - i)) =
      some (0, [0x78]) ∧ decStep treeX.node treeX.root 0 ((0x40000000#32).getLsbD (31 - 1)) = .malformed) ∧
    (walkBits treeX.node treeX.root treeX.decCur ((List.range 2).map fun i => (0#32).getLsbD (31 - i)) =
      some (0, [0x78, 0x78]) ∧ 30 + 2 = treeX.cfg.depthSym ∧
      decStep treeX.node treeX.root 0 ((0#32).getLsbD (31 - 2)) = .emit 0x78 0) := by decide +kernel
theorem witness_DecEndReportsTruncation : treeAbcd.decCur = treeAbcd.root ∧
    { treeAbcd with decCur := 4 }.decCur ≠ treeAbcd.root := by decide +kernel
/-- WalkContinuesAcrossWords: "aabcd" cut inside the codeword of 'c', 5 and 5 bits. -/
theorem witness_WalkContinuesAcrossWords :
    walkBits treeAbcd.node treeAbcd.root treeAbcd.decCur (argBits 0xC4C00000 5 ++ argBits 0x98000000 5) =
      some (6, [0x61, 0x61, 0x62, 0x63, 0x64]) ∧ treeAbcd.symq.length + 5 ≤ treeAbcd.cfg.depthSym ∧
    ∃ t, exec (.decWord 5) { treeAbcd with arg := 0xC4C00000 } = .next t ∧ (t.err == .ok &&
      after (exec (.decWord 5) { t with arg := 0x98000000 }) (fun u => u.err == .ok)) = true :=
  ⟨by decide +kernel, by decide +kernel, exists_of_after (by decide +kernel)⟩
/-- CodecOf, in EncodeThenDecodeRoundTrips, TruncationIsDetected and MalformedOnlyAtALeafRootOrWithoutATree: after the BUILDs
of 2.1 (four leaves) and 2.2 (one leaf), and a step by ENC_RESET, which keeps the codec. -/
theorem witness_CodecOf :
    (2 ≤ leafCount abcd.freq ∧ ∃ t, CodecOf abcd.freq t) ∧
    (leafCount (counts [(0x78, 1)]).freq = 1 ∧ ∃ t, CodecOf (counts [(0x78, 1)]).freq t) ∧
    decode 0x00000012#32 = .ok .encReset ∧ replacesCodec .encReset = false ∧
    ∃ t, step (commanding 0x00000012#32 treeAbcd) = .next t ∧ (t.err == .ok) = true := by
  refine ⟨⟨by decide +kernel, ?_⟩, ⟨by decide +kernel, ?_⟩, by decide, rfl, exists_of_after (by decide +kernel)⟩
  · obtain ⟨t, ht, hok⟩ : ∃ t, exec .build abcd = .next t ∧ (t.err == .ok) = true := exists_of_after (by decide +kernel)
    exact ⟨t, codecOf_of_build ht (beq_iff_eq.1 hok)⟩
  · obtain ⟨t, ht, hok⟩ : ∃ t, exec .build (counts [(0x78, 1)]) = .next t ∧ (t.err == .ok) = true :=
      exists_of_after (by decide +kernel)
    exact ⟨t, codecOf_of_build ht (beq_iff_eq.1 hok)⟩
/-- MalformedOnlyAtALeafRootOrWithoutATree: after reset there is no tree, and one bit is MALFORMED_TREE (R177 (c)). -/
theorem witness_DecodeProcedure_without_tree : State.reset.root = 0xFF#8 ∧ queueBits [{ data := 0, nbits := 1 }] ≠ [] ∧
    ∃ t, DecodeProcedure [{ data := 0, nbits := 1 }] State.reset .malformed t := by
  obtain ⟨r, hr, h⟩ : ∃ r, exec .decReset State.reset = .next r ∧ after (exec (.decWord 1) { r with arg := 0 })
      (fun t => t.err == .malformedTree) = true := exists_of_after (by decide +kernel)
  obtain ⟨t, ht, ht'⟩ := exists_of_after h
  exact ⟨rfl, by decide, t, .rejected hr (.done _ r) ht (beq_iff_eq.1 ht')⟩
/-- EncodeThenDecodeRoundTrips and ProceduresEndInTheOneOutcome: the stream "d" through both procedures. -/
theorem witness_EncodeThenDecodeRoundTrips :
    abcd.cfg.wellFormed = true ∧ (∀ x ∈ ([0x64] : List SymIx), positive abcd.freq x) ∧
    ∃ t, exec .build abcd = .next t ∧ t.err = .ok ∧
      ∃ ws u out v, EncodeProcedure (([0x64] : List SymIx).map Fin.val) t (.stream ws) u ∧
        DecodeProcedure ws u (.symbols out) v := by
  refine ⟨by decide +kernel, by unfold positive; decide +kernel, ?_⟩
  obtain ⟨t, ht, h⟩ : ∃ t, exec .build abcd = .next t ∧ (t.err == .ok && after (exec .encReset t) (fun r =>
      after (exec (.encSym 0x64) r) (fun a => a.err == .ok && after (exec .encFlush a) (fun b => b.err == .ok &&
        after (exec .outPop b) (fun c => c.err == .ok && after (exec .outPop c) (fun u => u.err == .fifoEmpty &&
          after (exec .decReset u) (fun q =>
            after (exec (.decWord (c.res1.setWidth 6).toNat) { q with arg := c.res0 }) (fun d => d.err == .ok &&
              after (exec .decEnd d) (fun e => e.err == .ok && after (exec .symPop e) (fun f => f.err == .ok &&
                after (exec .symPop f) (fun v => v.err == .fifoEmpty))))))))))) = true :=
    exists_of_after (by decide +kernel)
  simp only [Bool.and_eq_true, beq_iff_eq] at h
  obtain ⟨r, hr, h'⟩ := exists_of_after h.2
  obtain ⟨a, ha, ha'⟩ := exists_of_after h'
  simp only [Bool.and_eq_true, beq_iff_eq] at ha'
  obtain ⟨b, hb, hb'⟩ := exists_of_after ha'.2
  simp only [Bool.and_eq_true, beq_iff_eq] at hb'
  obtain ⟨c, hc, hc'⟩ := exists_of_after hb'.2
  simp only [Bool.and_eq_true, beq_iff_eq] at hc'
  obtain ⟨u, hu, hu'⟩ := exists_of_after hc'.2
  simp only [Bool.and_eq_true, beq_iff_eq] at hu'
  obtain ⟨q, hq, hq'⟩ := exists_of_after hu'.2
  obtain ⟨d, hd, hd'⟩ := exists_of_after hq'
  simp only [Bool.and_eq_true, beq_iff_eq] at hd'
  obtain ⟨e, he, he'⟩ := exists_of_after hd'.2
  simp only [Bool.and_eq_true, beq_iff_eq] at he'
  obtain ⟨f, hf, hf'⟩ := exists_of_after he'.2
  simp only [Bool.and_eq_true, beq_iff_eq] at hf'
  obtain ⟨v, hv, hv'⟩ := exists_of_after hf'.2
  exact ⟨t, ht, h.1, _, u, _, v,
    .complete hr (.issue ha ha'.1 (.issue hb hb'.1 (.pop hc hc'.1 (.done [] c)))) hu hu'.1,
    .complete (.popsAfter hq (.issue hd hd'.1 (.done [] d)) he he'.1 (.pop hf hf'.1 (.done [] f)) hv
      (beq_iff_eq.1 hv'))⟩
/-- P2: "aabcd" decoded by R176's own order, SYM_POP until FIFO_EMPTY and DEC_END last. -/
theorem test_DecodeProcedure_pops_before_decEnd : ∃ t,
    DecodeProcedure [{ data := 0xC4C00000, nbits := 10 }] treeAbcd (.symbols [0x61, 0x61, 0x62, 0x63, 0x64]) t := by
  obtain ⟨r, hr, h⟩ : ∃ r, exec .decReset treeAbcd = .next r ∧
      (after (exec (.decWord 10) { r with arg := 0xC4C00000 }) (fun d => d.err == .ok &&
        after (exec .symPop d) (fun a => a.err == .ok && a.res0 == 0x61 && after (exec .symPop a) (fun b => b.err == .ok &&
        b.res0 == 0x61 && after (exec .symPop b) (fun c => c.err == .ok && c.res0 == 0x62 && after (exec .symPop c)
        (fun e => e.err == .ok && e.res0 == 0x63 && after (exec .symPop e) (fun f => f.err == .ok && f.res0 == 0x64 &&
        after (exec .symPop f) (fun v => v.err == .fifoEmpty && after (exec .decEnd v) (fun t => t.err == .ok))))))))) =
      true := exists_of_after (by decide +kernel)
  obtain ⟨d, hd, hd'⟩ := exists_of_after h
  simp only [Bool.and_eq_true, beq_iff_eq] at hd'
  obtain ⟨a, ha, ha'⟩ := exists_of_after hd'.2
  simp only [Bool.and_eq_true, beq_iff_eq] at ha'
  obtain ⟨b, hb, hb'⟩ := exists_of_after ha'.2
  simp only [Bool.and_eq_true, beq_iff_eq] at hb'
  obtain ⟨c, hc, hc'⟩ := exists_of_after hb'.2
  simp only [Bool.and_eq_true, beq_iff_eq] at hc'
  obtain ⟨e, he, he'⟩ := exists_of_after hc'.2
  simp only [Bool.and_eq_true, beq_iff_eq] at he'
  obtain ⟨f, hf, hf'⟩ := exists_of_after he'.2
  simp only [Bool.and_eq_true, beq_iff_eq] at hf'
  obtain ⟨v, hv, hv'⟩ := exists_of_after hf'.2
  simp only [Bool.and_eq_true, beq_iff_eq] at hv'
  obtain ⟨t, ht, ht'⟩ := exists_of_after hv'.2
  have run := DecodeRun.issue (ws := []) (e := ⟨0xC4C00000, 10⟩) hd hd'.1 (.pop ha ha'.1.1 (.pop hb hb'.1.1
    (.pop hc hc'.1.1 (.pop he he'.1.1 (.pop hf hf'.1.1 (.done [] f))))))
  rw [ha'.1.2, hb'.1.2, hc'.1.2, he'.1.2, hf'.1.2] at run
  exact ⟨t, .complete (.popsBefore hr run hv hv'.1 ht (beq_iff_eq.1 ht'))⟩
/-- ProceduresEndInTheOneOutcome: symbol 5 has no codeword; what was queued and read before it is discarded (N12, R156). -/
theorem witness_EncodeProcedure_unknownSymbol : longCodes.cfg.wellFormed = true ∧ longCodes.LengthsLegal ∧
    (∃ a ∈ [2, 5], ∀ h : a < 128, longCodes.code[a].len = 0) ∧ ∃ t, EncodeProcedure [2, 5] longCodes .unknownSymbol t := by
  have unknown5 : longCodes.code[5].len = 0 := by decide +kernel
  refine ⟨by decide +kernel, by unfold State.LengthsLegal; decide +kernel, ⟨5, by simp, fun _ => unknown5⟩, ?_⟩
  obtain ⟨r, hr, h⟩ : ∃ r, exec .encReset longCodes = .next r ∧ (after (exec (.encSym 2) r) (fun a => a.err == .ok &&
      after (exec .outPop a) (fun b => b.err == .ok && after (exec (.encSym 5) b) (fun f =>
        f.err == .unknownSymbol && f.outq.length == 2 && after (exec .encReset f) (fun t => t.outq.isEmpty))))) = true :=
    exists_of_after (by decide +kernel)
  obtain ⟨a, ha, ha'⟩ := exists_of_after h
  simp only [Bool.and_eq_true, beq_iff_eq] at ha'
  obtain ⟨b, hb, hb'⟩ := exists_of_after ha'.2
  simp only [Bool.and_eq_true, beq_iff_eq] at hb'
  obtain ⟨f, hf, hf'⟩ := exists_of_after hb'.2
  simp only [Bool.and_eq_true, beq_iff_eq] at hf'
  obtain ⟨t, ht, -⟩ := exists_of_after hf'.2
  exact ⟨t, .rejected hr (.issue ha ha'.1 (.pop hb hb'.1 (.done _ b))) hf hf'.1.1 ht⟩
/-- ProceduresEndInTheOneOutcome: bit 1 at a one-leaf root (D12); the words' counts are 1 to 32. -/
theorem witness_DecodeProcedure_malformed : treeX.cfg.wellFormed = true ∧
    (∀ e ∈ ([{ data := 0, nbits := 32 }, { data := 0x40000000, nbits := 2 }] : List OutEntry),
      1 ≤ e.nbits.toNat ∧ e.nbits.toNat ≤ 32) ∧
    ∃ t, DecodeProcedure [{ data := 0, nbits := 32 }, { data := 0x40000000, nbits := 2 }] treeX .malformed t := by
  refine ⟨by decide +kernel, by decide, ?_⟩
  obtain ⟨r, hr, h⟩ : ∃ r, exec .decReset treeX = .next r ∧ (after (exec (.decWord 32) { r with arg := 0 }) (fun a =>
      a.err == .ok && after (exec (.decWord 2) { a with arg := 0x40000000 }) (fun b => b.err == .symFull &&
        after (exec .symPop b) (fun c => c.err == .ok && after (exec (.decWord 2) { c with arg := 0x40000000 }) (fun t =>
          t.err == .malformedTree))))) = true := exists_of_after (by decide +kernel)
  obtain ⟨a, ha, ha'⟩ := exists_of_after h
  simp only [Bool.and_eq_true, beq_iff_eq] at ha'
  obtain ⟨b, hb, hb'⟩ := exists_of_after ha'.2
  simp only [Bool.and_eq_true, beq_iff_eq] at hb'
  obtain ⟨c, hc, hc'⟩ := exists_of_after hb'.2
  simp only [Bool.and_eq_true, beq_iff_eq] at hc'
  obtain ⟨t, ht, ht'⟩ := exists_of_after hc'.2
  exact ⟨t, .rejected hr (.issue ha ha'.1 (.retry hb hb'.1 (.pop hc hc'.1 (.done _ c)))) ht (beq_iff_eq.1 ht')⟩
/-- D7: "11000" of "aabcd". -/
theorem witness_TruncationIsDetected :
    (∃ t, exec .build abcd = .next t ∧ (t.err == .ok &&
      [true, true, false, false, false] ++ [true, false, false, true, true] ==
        ([0x61, 0x61, 0x62, 0x63, 0x64] : List SymIx).flatMap (fun x => codeword t.code[x])) = true) ∧
    ∀ x ∈ ([0x61, 0x61, 0x62, 0x63, 0x64] : List SymIx), positive abcd.freq x := by
  refine ⟨exists_of_after (by decide +kernel), ?_⟩
  unfold positive; decide +kernel
/-- TruncationIsDetected's decode procedure: "101" of "ac", the symbol popped after DEC_END (D5). -/
theorem witness_DecodeProcedure_truncated :
    queueBits [{ data := 0xA0000000, nbits := 3 }] = [true, false, true] ∧
    ∃ t, exec .build abcd = .next t ∧ t.err = .ok ∧
      [true, false, true] ++ [false] = ([0x61, 0x63] : List SymIx).flatMap (fun x => codeword t.code[x]) ∧
      ∃ out v, DecodeProcedure [{ data := 0xA0000000, nbits := 3 }] t (.truncated out) v := by
  refine ⟨by decide +kernel, ?_⟩
  obtain ⟨t, ht, h⟩ : ∃ t, exec .build abcd = .next t ∧ (t.err == .ok &&
      [true, false, true] ++ [false] == ([0x61, 0x63] : List SymIx).flatMap (fun x => codeword t.code[x]) &&
      after (exec .decReset t) (fun q => after (exec (.decWord 3) { q with arg := 0xA0000000 }) (fun d => d.err == .ok &&
        after (exec .decEnd d) (fun e => e.err == .truncatedStream && after (exec .symPop e) (fun f => f.err == .ok &&
          after (exec .symPop f) (fun v => v.err == .fifoEmpty)))))) = true := exists_of_after (by decide +kernel)
  simp only [Bool.and_eq_true, beq_iff_eq] at h
  obtain ⟨q, hq, hq'⟩ := exists_of_after h.2
  obtain ⟨d, hd, hd'⟩ := exists_of_after hq'
  simp only [Bool.and_eq_true, beq_iff_eq] at hd'
  obtain ⟨e, he, he'⟩ := exists_of_after hd'.2
  simp only [Bool.and_eq_true, beq_iff_eq] at he'
  obtain ⟨f, hf, hf'⟩ := exists_of_after he'.2
  simp only [Bool.and_eq_true, beq_iff_eq] at hf'
  obtain ⟨v, hv, hv'⟩ := exists_of_after hf'.2
  exact ⟨t, ht, h.1.1, h.1.2, _, v, .truncated (.popsAfter hq (.issue hd hd'.1 (.done [] d)) he he'.1
    (.pop hf hf'.1 (.done [] f)) hv (beq_iff_eq.1 hv'))⟩

/-- A state inside a stream, with DEPTH_OUT entries in OUTQ, a flush waiting and an error in STATUS. -/
def midStream : State :=
  { longCodes with
    outq := List.replicate 4 { data := 0x80000000, nbits := 1 }
    pack := 0x80000000, fill := 1, err := .malformedTree, errInfo := 31, nleaf := 128, ncount := 255
    pending := [.busWrite 0x0C 4 0x11#32] }
theorem witness_StepKeepsTheInvariant : midStream.Inv ∧ ∃ t, step midStream = .next t ∧ (t.err == .outFull) = true := by
  refine ⟨⟨?_, ?_, ?_, ?_, ?_⟩, exists_of_after (by decide +kernel)⟩
  · unfold State.FifoBounds; decide +kernel
  · unfold State.PaddingZero; decide +kernel
  · unfold State.LengthsLegal; decide +kernel
  · unfold State.CountsLegal; decide +kernel
  · unfold State.InfoLegal; decide +kernel
/-- HostLinesAssemble: the largest operands that fit, and for each pseudo-instruction operands that do not. -/
theorem witness_HostLinesAssemble :
    assembleLine (.ldBits 255 3 0xFFFFFFFF) ≠ [] ∧ Instr.wellFormed (.freqWr 256) = false ∧
    [HostLine.basic (.arg (2 ^ 32)), .setF 256 0, .setF 0 (2 ^ 32), .ldNode 256 0, .ldRoot (2 ^ 32), .ldBits 256 0 0,
      .ldBits 0 4 0, .ldLen 256 0, .dec 256 0, .dec 1 (2 ^ 32)].all (fun l => assembleLine l == []) = true := by
  decide

end Sys2Proof.Tests
end

section
/-! PROOFS. The parameter bounds of spec/00_scope.md R6 at work: a FIFO that starts empty never overflows, so the encode and
decode procedures (spec/42_encoder.md R156, spec/43_decoder.md R176) reach an outcome, and it is the one the rules give. -/

namespace Sys2Proof

/-- R5: the ranges of the two depths. -/
theorem Config.wellFormed_iff (c : Config) :
    c.wellFormed = true ↔ 4 ≤ c.depthOut ∧ c.depthOut ≤ 31 ∧ 32 ≤ c.depthSym ∧ c.depthSym ≤ 63 := by
  simp [Config.wellFormed, and_assoc]

namespace Machine

/-! ## Room in the FIFOs (R6) -/

theorem State.LengthsLegal.of_code {s u : State} (h : s.LengthsLegal) (hc : u.code = s.code) : u.LengthsLegal := by
  intro x
  rw [State.readCode, hc]
  exact h x

/-- R6: at most 127 bits added to at most 31 complete at most 4 words. -/
theorem wordsCompleted_le_four (s : State) {n : Nat} (h : n ≤ 127) : wordsCompleted s n ≤ 4 := by
  have := s.fill.isLt
  unfold wordsCompleted
  omega

/-- R6, R228: with four free entries ENC_SYM ends with OK or UNKNOWN_SYMBOL. -/
theorem execEncSym_of_room (a : Nat) {s : State} (hc : s.cfg.wellFormed = true) (hl : s.LengthsLegal)
    (hq : s.outq.length ≤ s.cfg.depthOut - 4) :
    ∃ u, exec (.encSym a) s = .next u ∧ (u.err = .ok ∨ u.err = .unknownSymbol) ∧ u.cfg = s.cfg ∧ u.code = s.code := by
  rw [Config.wellFormed_iff] at hc
  rw [exec]
  rcases execEncSym_cases a s with ⟨h, -, -, e⟩ | e | ⟨h, hfull, -⟩
  · exact ⟨_, e, .inl rfl, rfl, rfl⟩
  · exact ⟨_, e, .inr rfl, rfl, rfl⟩
  · have := wordsCompleted_le_four s (hl ⟨a, h⟩)
    omega

/-- R6, R228: with SYMQ empty DEC_WORD of a legal count ends with OK or MALFORMED_TREE. -/
theorem execDecWord_of_empty (a : Nat) {s : State} (hc : s.cfg.wellFormed = true) (hq : s.symq = []) :
    ∃ u, exec (.decWord a) s = .next u ∧
      (u.err = .ok ∨ u.err = .malformedTree ∨ (u.err = .badOperand ∧ (a < 1 ∨ 32 < a))) ∧ u.cfg = s.cfg := by
  rw [Config.wellFormed_iff] at hc
  rw [exec]
  rcases execDecWord_cases a s with ⟨-, ha, ⟨_, _, _, -, e⟩ | ⟨_, -, e⟩ | ⟨i, hi, -⟩⟩ | ⟨ha, e⟩
  · exact ⟨_, e, .inl rfl, rfl⟩
  · exact ⟨_, e, .inr (.inl rfl), rfl⟩
  · have hb := decBits_bounds (node := s.node) (root := s.root) (depth := s.cfg.depthSym) (argBits s.arg a) 0 0 s.decCur
      s.symq (by simp [hq])
    rw [hi, hq, length_argBits] at hb
    simp only [List.length_nil] at hb
    omega
  · exact ⟨_, e, .inr (.inr ⟨rfl, ha⟩), rfl⟩

/-- Settles O46: no command meets a full FIFO where R6 leaves it room. -/
theorem emptyQueuesNeverOverflow : Obligations.EmptyQueuesNeverOverflow := by
  unfold Obligations.EmptyQueuesNeverOverflow
  refine ⟨fun a s t hc hl hq h he => ?_, fun a s t hc hq h he => ?_⟩
  · obtain ⟨u, hu, hok, -⟩ := execEncSym_of_room a hc hl hq
    obtain rfl : u = t := by simpa [hu] using h
    simp [he] at hok
  · obtain ⟨u, hu, hok, -⟩ := execDecWord_of_empty a hc hq
    obtain rfl : u = t := by simpa [hu] using h
    simp [he] at hok

end Machine
end Sys2Proof
end

section
/-! PROOFS. What the encode procedure gives (spec/42_encoder.md R156): it reaches an outcome, and its words depend on the
code table and the symbols alone. -/

namespace Sys2Proof.Machine

/-! ## The words of an encode procedure -/

/-- Packing an encoder command: its codeword is appended to the stream, and the registers stay padded (R44, R45). -/
theorem packInstr_spec (code : Vector Code 128) {p : Packer} {i : Instr} (hi : (∃ a, i = .encSym a) ∨ i = .encFlush)
    (hf : p.fill < 32) (hp : p.Padded) :
    (packInstr code p i).stream = p.stream ++ codewordOf code i ∧ (packInstr code p i).fill < 32 ∧
      (packInstr code p i).Padded := by
  rcases hi with ⟨a, rfl⟩ | rfl
  · obtain ⟨hs, hl, hk, -⟩ := packBits_spec (codewordOf code (.encSym a)) p hf
    exact ⟨hs, lt_of_eq_of_lt hl (Nat.mod_lt _ (by decide)), hk hp⟩
  · by_cases h0 : p.fill = 0
    · have : packInstr code p .encFlush = p := if_pos h0
      rw [this]
      exact ⟨(List.append_nil _).symm, hf, hp⟩
    · have : packInstr code p .encFlush =
          { pack := 0, fill := 0, outq := p.outq ++ [{ data := p.pack, nbits := BitVec.ofNat 6 p.fill }] } := if_neg h0
      have hn : (BitVec.ofNat 6 p.fill).toNat = p.fill := by simp; omega
      obtain ⟨hpack, hq⟩ := hp
      rw [this]
      refine ⟨by simp [Packer.stream, queueBits, entryBits, codewordOf, hn], by simp, by simp, fun e he => ?_⟩
      rcases List.mem_append.1 he with he | he
      · exact hq e he
      · obtain rfl := List.mem_singleton.1 he
        simp only [hn]
        exact ⟨by omega, by omega, hpack⟩

theorem foldl_packInstr_spec (code : Vector Code 128) {is : List Instr} (hi : EncoderOnly is) {p : Packer}
    (hf : p.fill < 32) (hp : p.Padded) :
    (is.foldl (packInstr code) p).stream = p.stream ++ is.flatMap (codewordOf code) ∧
      (is.foldl (packInstr code) p).Padded := by
  induction is generalizing p with
  | nil => exact ⟨(List.append_nil _).symm, hp⟩
  | cons i is ih =>
    obtain ⟨hs, hf', hp'⟩ := packInstr_spec code (hi i List.mem_cons_self) hf hp
    obtain ⟨hs', hp''⟩ := ih (fun j hj => hi j (List.mem_cons_of_mem _ hj)) hf' hp'
    exact ⟨by rw [List.foldl_cons, hs', hs, List.flatMap_cons, List.append_assoc], hp''⟩

/-- The registers ENC_RESET leaves (R153). -/
def Packer.empty : Packer := { pack := 0, fill := 0, outq := [] }

/-- R156: the commands of an encode procedure after ENC_RESET. -/
def encodeCommands (xs : List Nat) : List Instr := xs.map .encSym ++ [.encFlush]

/-- R156: the words of an encode procedure over `xs` whose symbols are all known. -/
def encodedWords (code : Vector Code 128) (xs : List Nat) : List OutEntry :=
  ((encodeCommands xs).foldl (packInstr code) Packer.empty).outq

theorem encoderOnly_map (xs : List Nat) : EncoderOnly (xs.map .encSym) := by
  intro i hi
  obtain ⟨a, -, rfl⟩ := List.mem_map.1 hi
  exact .inl ⟨a, rfl⟩

theorem encoderOnly_encodeCommands (xs : List Nat) : EncoderOnly (encodeCommands xs) := by
  intro i hi
  rcases List.mem_append.1 hi with hi | hi
  · exact encoderOnly_map xs i hi
  · exact .inr (List.mem_singleton.1 hi)

/-- R157: the words' bits are the codewords in order, and each word holds 1 to 32 of them. -/
theorem encodedWords_spec (code : Vector Code 128) (xs : List Nat) :
    queueBits (encodedWords code xs) = xs.flatMap (fun a => codewordOf code (.encSym a)) ∧
      ∀ e ∈ encodedWords code xs, 1 ≤ e.nbits.toNat ∧ e.nbits.toNat ≤ 32 := by
  obtain ⟨hs, -, hq⟩ := foldl_packInstr_spec code (encoderOnly_encodeCommands xs) (p := Packer.empty) (by decide)
    ⟨by simp [Packer.empty], by simp [Packer.empty]⟩
  have hf : ((encodeCommands xs).foldl (packInstr code) Packer.empty).fill = 0 := by
    simp [encodeCommands]
  refine ⟨?_, fun e he => ?_⟩
  · rw [Packer.stream, hf, leadingBits_zero, List.append_nil] at hs
    rw [encodedWords, hs]
    simp [encodeCommands, Packer.stream, Packer.empty, queueBits, List.flatMap_append, List.flatMap_map, codewordOf]
  · obtain ⟨h1, h32, -⟩ := hq e he
    exact ⟨h1, h32⟩

/-! ## The outcome of an encode procedure -/

/-- R151: ENC_SYM answers UNKNOWN_SYMBOL only where the symbol has no codeword. -/
theorem len_eq_zero_of_unknownSymbol {a : Nat} {s f : State} (h : exec (.encSym a) s = .next f)
    (he : f.err = .unknownSymbol) (ha : a < 128) : s.code[a].len = 0 := by
  by_contra hl
  have hl' : (s.readCode ⟨a, ha⟩).len ≠ 0 := hl
  simp only [exec, execEncSym, symbolOperand_of_lt ha, if_neg hl'] at h
  split at h
  · rw [raise_eq_next_iff] at h; subst h; cases he
  · rw [done_eq_next_iff] at h; subst h; cases he

/-- The state ENC_RESET leaves. -/
theorem execEncReset_spec {s r : State} (h : exec .encReset s = .next r) :
    packerOf r = Packer.empty ∧ r.cfg = s.cfg ∧ r.node = s.node ∧ r.root = s.root ∧ r.code = s.code := by
  simp only [exec, execEncReset, done_eq_next_iff] at h
  subst h
  exact ⟨rfl, rfl, rfl, rfl, rfl⟩

/-- R156: the outcome the code table and the symbols decide. -/
def encodeOutcome (code : Vector Code 128) (xs : List Nat) : EncodeOutcome :=
  if ∀ a ∈ xs, ∃ h : a < 128, code[a].len ≠ 0 then .stream (encodedWords code xs) else .unknownSymbol

theorem encodeOutcome_eq_unknownSymbol_iff (code : Vector Code 128) (xs : List Nat) :
    encodeOutcome code xs = .unknownSymbol ↔ ∃ a ∈ xs, ∀ h : a < 128, code[a].len = 0 := by
  simp [encodeOutcome]

/-- R156, R157: an encode procedure gives the words where every symbol has a codeword, UNKNOWN_SYMBOL where one has none. -/
theorem encodeProcedure_spec {xs : List Nat} {s t : State} {res : EncodeOutcome} (h : EncodeProcedure xs s res t) :
    res = encodeOutcome s.code xs := by
  cases h with
  | @complete r u t ws hr hrun hp hpe =>
    obtain ⟨hempty, -, -, -, hcode⟩ := execEncReset_spec hr
    obtain ⟨sent, hsent, hpack, -, -, hknown, -⟩ := encodeRun_spec hrun (encoderOnly_encodeCommands xs)
    rw [List.append_nil] at hsent
    subst hsent
    rw [hcode, hempty] at hpack
    rw [hcode] at hknown
    have hws : ws = encodedWords s.code xs := by
      rw [encodedWords, encodeCommands, ← hpack, Packer.after, packerOf, (execOutPop_of_empty hp hpe).1, List.append_nil]
    rw [encodeOutcome, if_pos fun a ha => hknown a (by simp [ha]), hws]
  | @rejected x left r u f t ws hr hrun hf hfe ht =>
    obtain ⟨-, -, -, -, hcode⟩ := execEncReset_spec hr
    obtain ⟨sent, hsent, -, -, -, -, hframe⟩ := encodeRun_spec hrun (encoderOnly_map xs)
    have hx : x ∈ xs := by
      have hmem : Instr.encSym x ∈ xs.map Instr.encSym := by rw [hsent]; simp
      simpa using hmem
    have huc : u.code = s.code := by rw [hframe]; exact hcode
    refine ((encodeOutcome_eq_unknownSymbol_iff s.code xs).2 ⟨x, hx, fun hlt => ?_⟩).symm
    have hzero := len_eq_zero_of_unknownSymbol hf hfe hlt
    rwa [huc] at hzero

/-- An encode procedure that gives a stream leaves the parameters, the tree and the code table. -/
theorem encodeProcedure_frame {xs : List Nat} {s t : State} {ws : List OutEntry}
    (h : EncodeProcedure xs s (.stream ws) t) :
    t.cfg = s.cfg ∧ t.node = s.node ∧ t.root = s.root ∧ t.code = s.code := by
  cases h with
  | complete hr hrun hp hpe =>
    obtain ⟨-, hr⟩ := execEncReset_spec hr
    obtain ⟨-, -, -, -, -, -, hframe⟩ := encodeRun_spec hrun (encoderOnly_encodeCommands xs)
    rw [(execOutPop_of_empty hp hpe).2, hframe]
    exact hr

/-! ## An encode procedure can be carried out -/

/-- Popping before each ENC_SYM, the host gets through the symbols or meets one with no codeword (R6). -/
theorem exists_encodeRun (xs : List Nat) : ∀ s : State, s.cfg.wellFormed = true → s.LengthsLegal →
    (∃ ws u, (∀ is ws' left t, EncodeRun is u ws' left t → EncodeRun (xs.map .encSym ++ is) s (ws ++ ws') left t) ∧
      u.cfg = s.cfg) ∨
    ∃ ws x left u f, EncodeRun (xs.map .encSym) s ws (.encSym x :: left) u ∧ exec (.encSym x) u = .next f ∧
      f.err = .unknownSymbol := by
  induction xs with
  | nil => intro s _ _; exact .inl ⟨[], s, fun _ _ _ _ h => h, rfl⟩
  | cons x xs ih =>
    intro s hc hl
    obtain ⟨ws, e, hpop, hq, hcode, hcfg⟩ := exists_encodeRun_emptied s.outq s rfl
    have hec : e.cfg.wellFormed = true := hcfg ▸ hc
    have hel : e.LengthsLegal := hl.of_code hcode
    obtain ⟨u, hu, hok | hunk, hucfg, hucode⟩ := execEncSym_of_room x hec hel (by simp [hq])
    · rcases ih u (hucfg ▸ hec) (hel.of_code hucode) with ⟨ws', v, hrun, hv⟩ | ⟨ws', y, left, v, f, hrun, hf, hfe⟩
      · refine .inl ⟨ws ++ ws', v, fun is ws'' left t h => ?_, hv.trans (hucfg.trans hcfg)⟩
        rw [List.append_assoc]
        exact hpop _ _ _ _ (.issue hu hok (hrun is ws'' left t h))
      · exact .inr ⟨ws ++ ws', y, left, v, f, hpop _ _ _ _ (.issue hu hok hrun), hf, hfe⟩
    · exact .inr ⟨ws ++ [], x, xs.map .encSym, e, u, hpop _ _ _ _ (.done _ e), hu, hunk⟩

/-- R152: with OUTQ empty ENC_FLUSH ends with OK. -/
theorem execEncFlush_of_empty {s : State} (hc : s.cfg.wellFormed = true) (hq : s.outq = []) :
    ∃ u, exec .encFlush s = .next u ∧ u.err = .ok := by
  rw [Config.wellFormed_iff] at hc
  have hfull : s.outq.length ≠ s.cfg.depthOut := by rw [hq, List.length_nil]; omega
  simp only [exec, execEncFlush, if_neg hfull]
  split
  · exact ⟨_, rfl, rfl⟩
  · exact ⟨_, rfl, rfl⟩

theorem execOutPop_of_nil {s : State} (hq : s.outq = []) : ∃ t, exec .outPop s = .next t ∧ t.err = .fifoEmpty := by
  simp only [exec, execOutPop, hq]
  exact ⟨_, rfl, rfl⟩

/-- R156, R6: with the parameters in range and legal lengths every encode procedure reaches an outcome. -/
theorem exists_encodeProcedure (xs : List Nat) {s : State} (hc : s.cfg.wellFormed = true) (hl : s.LengthsLegal) :
    ∃ res t, EncodeProcedure xs s res t := by
  obtain ⟨r, hr⟩ : ∃ r, exec .encReset s = .next r := ⟨_, rfl⟩
  obtain ⟨-, hrcfg, -, -, hrcode⟩ := execEncReset_spec hr
  rcases exists_encodeRun xs r (hrcfg ▸ hc) (hl.of_code hrcode) with ⟨ws, u, hrun, hu⟩ | ⟨_, _, _, _, f, hrun, hf, hfe⟩
  · obtain ⟨ws₁, e, hpop, hq, -, hecfg⟩ := exists_encodeRun_emptied u.outq u rfl
    obtain ⟨v, hv, hok⟩ := execEncFlush_of_empty (s := e) (by rw [hecfg, hu, hrcfg]; exact hc) hq
    obtain ⟨ws₂, w, hpop', hqw, -, -⟩ := exists_encodeRun_emptied v.outq v rfl
    obtain ⟨t, ht, hte⟩ := execOutPop_of_nil hqw
    exact ⟨_, t, .complete hr (hrun _ _ _ _ (hpop _ _ _ _ (.issue hv hok (hpop' _ _ _ _ (.done [] w))))) ht hte⟩
  · exact ⟨_, _, .rejected hr hrun hf hfe rfl⟩

end Sys2Proof.Machine
end

section
/-! PROOFS. What the decode procedure gives (spec/43_decoder.md R176): it reaches an outcome, and it is that of the walk over
the stream's bits from the root. -/

namespace Sys2Proof.Machine

/-! ## The outcome of a decode procedure -/

/-- R176: what a walk from the root gives the caller of a decode procedure. -/
def walkOutcome (root : Byte) : Option (Byte × List Symbol) → DecodeOutcome
  | none => .malformed
  | some (cur, out) => if cur = root then .symbols out else .truncated out

/-- Where the loop over the bits meets a bit that cannot descend the tree, so does the walk that knows no queue. -/
theorem walkBits_eq_none_of_decBits {node : Vector Node 255} {root cur : Byte} {depth k m : Nat} {bits : List Bool}
    {q : List Symbol} (h : decBits node root depth bits 0 cur q m = .malformed k) : walkBits node root cur bits = none := by
  obtain ⟨c, out, b, hw, hb, hd⟩ := (walkBits_of_decBits_stop bits 0 m k cur q).1 (by rw [h, Nat.zero_add])
  obtain ⟨hk, rfl⟩ := List.getElem?_eq_some_iff.1 hb
  rw [← List.take_append_drop k bits, walkBits_append, hw, List.drop_eq_getElem_cons hk]
  simp [walkBits, hd]

/-- R171: DEC_WORD answers MALFORMED_TREE only where the walk over its bits stops. -/
theorem walkBits_eq_none_of_malformedTree {a : Nat} {s t : State} (h : exec (.decWord a) s = .next t)
    (he : t.err = .malformedTree) : walkBits s.node s.root s.decCur (argBits s.arg a) = none := by
  rw [exec] at h
  rcases execDecWord_cases a s with ⟨-, -, ⟨_, _, _, -, e⟩ | ⟨i, hi, -⟩ | ⟨_, -, e⟩⟩ | ⟨-, e⟩
  · rw [e, done_eq_next_iff] at h; subst h; cases he
  · exact walkBits_eq_none_of_decBits hi
  · rw [e, raise_eq_next_iff] at h; subst h; cases he
  · rw [e, raise_eq_next_iff] at h; subst h; cases he

/-- R176: the outcome is that of the walk from the root over the words' bits. -/
theorem decodeProcedure_spec {ws : List OutEntry} {s t : State} {res : DecodeOutcome} (h : DecodeProcedure ws s res t) :
    res = walkOutcome s.root (walkBits s.node s.root s.root (queueBits ws)) := by
  cases h with
  | complete h =>
    obtain ⟨cur, hw, he⟩ := decodesTo_spec h
    have hc : cur = s.root := by by_contra hc; simp [hc] at he
    simp [walkOutcome, hw, hc]
  | truncated h =>
    obtain ⟨cur, hw, he⟩ := decodesTo_spec h
    have hc : cur ≠ s.root := by rintro rfl; simp at he
    simp [walkOutcome, hw, hc]
  | @rejected e left r u t discarded hr hrun ht hte =>
    obtain ⟨sent, syms, rfl, hw, -, hframe⟩ := decodeRun_spec hrun
    have hnone : walkBits u.node u.root u.decCur (entryBits e) = none := walkBits_eq_none_of_malformedTree ht hte
    simp only [exec, execDecReset, done_eq_next_iff] at hr
    subst hr
    rw [show u.node = s.node by rw [hframe]; rfl, show u.root = s.root by rw [hframe]; rfl] at hnone
    have hsent : walkBits s.node s.root s.root (queueBits sent) = some (u.decCur, syms) := hw
    have hbits : queueBits (sent ++ e :: left) = queueBits sent ++ (entryBits e ++ queueBits left) := by simp [queueBits]
    rw [hbits, walkBits_append, hsent, Option.bind_some, walkBits_append, hnone]
    rfl

/-! ## A decode procedure can be carried out -/

/-- Popping before each DEC_WORD, the host gets through the words or meets one that is rejected (R6). -/
theorem exists_decodeRun (ws : List OutEntry) (hn : ∀ e ∈ ws, 1 ≤ e.nbits.toNat ∧ e.nbits.toNat ≤ 32) :
    ∀ s : State, s.cfg.wellFormed = true →
      (∃ out u, DecodeRun ws s out [] u) ∨
      ∃ out e left u t, DecodeRun ws s out (e :: left) u ∧
        exec (.decWord e.nbits.toNat) { u with arg := e.data } = .next t ∧ t.err = .malformedTree := by
  induction ws with
  | nil => intro s _; exact .inl ⟨[], s, .done [] s⟩
  | cons e ws ih =>
    intro s hc
    have ih := ih fun e' he' => hn e' (List.mem_cons_of_mem _ he')
    obtain ⟨h1, h32⟩ := hn e List.mem_cons_self
    obtain ⟨out, p, hpop, hq, hcfg⟩ := exists_decodeRun_emptied s.symq s rfl
    have hpc : p.cfg.wellFormed = true := hcfg ▸ hc
    obtain ⟨u, hu, hok | hmal | ⟨-, hbad⟩, hucfg⟩ :=
      execDecWord_of_empty e.nbits.toNat (s := { p with arg := e.data }) hpc hq
    · rcases ih u (by rw [hucfg]; exact hpc) with ⟨out', v, hrun⟩ | ⟨out', e', left, v, t, hrun, ht, hte⟩
      · exact .inl ⟨out ++ out', v, hpop _ _ _ _ (.issue hu hok hrun)⟩
      · exact .inr ⟨out ++ out', e', left, v, t, hpop _ _ _ _ (.issue hu hok hrun), ht, hte⟩
    · exact .inr ⟨out ++ [], e, ws, p, u, hpop _ _ _ _ (.done _ p), hu, hmal⟩
    · omega

theorem execSymPop_of_nil {s : State} (hq : s.symq = []) : ∃ t, exec .symPop s = .next t ∧ t.err = .fifoEmpty := by
  simp only [exec, execSymPop, hq]
  exact ⟨_, rfl, rfl⟩

/-- R172: DEC_END ends with OK or TRUNCATED_STREAM. -/
theorem exists_execDecEnd (s : State) : ∃ t, exec .decEnd s = .next t ∧ (t.err = .ok ∨ t.err = .truncatedStream) := by
  rw [exec]
  rcases execDecEnd_cases s with ⟨-, e⟩ | ⟨-, e⟩
  · exact ⟨_, e, .inl rfl⟩
  · exact ⟨_, e, .inr rfl⟩

/-- R176, R6: with the parameters in range and bit counts 1 to 32 every decode procedure reaches an outcome. -/
theorem exists_decodeProcedure {ws : List OutEntry} {s : State} (hc : s.cfg.wellFormed = true)
    (hn : ∀ e ∈ ws, 1 ≤ e.nbits.toNat ∧ e.nbits.toNat ≤ 32) : ∃ res t, DecodeProcedure ws s res t := by
  obtain ⟨r, hr, hrc⟩ : ∃ r, exec .decReset s = .next r ∧ r.cfg.wellFormed = true := ⟨_, rfl, hc⟩
  rcases exists_decodeRun ws hn r hrc with ⟨out, u, hrun⟩ | ⟨_, _, _, _, t, hrun, ht, hte⟩
  · obtain ⟨d, hd, hde⟩ := exists_execDecEnd u
    obtain ⟨late, v, hpop, hq, -⟩ := exists_decodeRun_emptied d.symq d rfl
    obtain ⟨t, ht, hte⟩ := execSymPop_of_nil hq
    have hto : DecodesTo ws s d.err (out ++ (late ++ [])) t := .popsAfter hr hrun hd rfl (hpop _ _ _ _ (.done [] v)) ht hte
    rcases hde with hde | hde <;> rw [hde] at hto
    · exact ⟨_, t, .complete hto⟩
    · exact ⟨_, t, .truncated hto⟩
  · exact ⟨_, t, .rejected hr hrun ht hte⟩

end Sys2Proof.Machine
end

section
/-! PROOFS. Both procedures after a BUILD (spec/41_builder.md R118, R119), and the statement of spec/00_scope.md R6 about
them. -/

namespace Sys2Proof.Machine

namespace Built

variable {freq : Vector Word 128} {r : BuildResult} {nodes : List Node} {k : Key}

/-- R118, R119: BUILD gives a positive symbol a codeword of 1 to 127 bits. -/
theorem len_of_positive (hb : Built freq r nodes k) {x : SymIx} (hx : positive freq x) :
    1 ≤ r.code[x].len.toNat ∧ r.code[x].len.toNat ≤ 127 := by
  by_cases h2 : 2 ≤ (positiveSymbols freq).length
  · obtain ⟨bs, j, hw, hj, hlt, hne⟩ := hb.exists_path hx
    have hpos := List.length_pos_of_ne_nil (hne h2)
    have hle := hb.le
    rw [← length_codeword, hb.codeword_eq h2 hw hj]
    omega
  · rw [hb.code_eq_sole (hb.positiveSymbols_sole hx (by omega))]
    decide

/-- R42: every length BUILD writes is legal. -/
theorem len_le (hb : Built freq r nodes k) (x : SymIx) : r.code[x].len.toNat ≤ 127 := by
  by_cases hx : positive freq x
  · exact (hb.len_of_positive hx).2
  · rw [hb.code_eq_empty hx]
    decide

/-- R177: from the root, the bits of an encoding emit its symbols and return to the root. -/
theorem walkBits_codewords (hb : Built freq r nodes k) {xs : List SymIx} (hx : ∀ x ∈ xs, positive freq x) :
    walkBits r.node r.root r.root (xs.flatMap fun x => codeword r.code[x]) =
      some (r.root, xs.map fun x => BitVec.ofNat 7 x.val) := by
  induction xs with
  | nil => rfl
  | cons x xs ih =>
    rw [List.flatMap_cons, hb.walkBits_codeword (hx x List.mem_cons_self), ih fun y hy => hx y (List.mem_cons_of_mem _ hy)]
    rfl

end Built

/-- The codewords an encode procedure appends, by table index. -/
theorem flatMap_codewordOf (code : Vector Code 128) (xs : List SymIx) :
    ((xs.map Fin.val).flatMap fun a => codewordOf code (.encSym a)) = xs.flatMap fun x => codeword code[x] := by
  simp [List.flatMap_map, codewordOf]

/-- R156: with the codec of a BUILD, positive symbols give a stream. -/
theorem Built.encodeOutcome_eq_stream {freq : Vector Word 128} {r : BuildResult} {nodes : List Node} {k : Key}
    (hb : Built freq r nodes k) {xs : List SymIx} (hx : ∀ x ∈ xs, positive freq x) :
    encodeOutcome r.code (xs.map Fin.val) = .stream (encodedWords r.code (xs.map Fin.val)) := by
  refine if_pos fun a ha => ?_
  obtain ⟨x, hxs, rfl⟩ := List.mem_map.1 ha
  refine ⟨x.isLt, fun (hzero : r.code[x].len = 0) => ?_⟩
  have hpos := (hb.len_of_positive (hx x hxs)).1
  rw [hzero] at hpos
  exact absurd hpos (by decide)

/-- R156, R176, R177: with the codec of a BUILD both procedures over positive symbols run to a stream and its symbols. -/
theorem CodecOf.exists_encode_decode {freq : Vector Word 128} {s : State} (h : CodecOf freq s) (hc : s.cfg.wellFormed = true)
    {xs : List SymIx} (hx : ∀ x ∈ xs, positive freq x) :
    ∃ ws u out v, EncodeProcedure (xs.map Fin.val) s (.stream ws) u ∧ DecodeProcedure ws u (.symbols out) v := by
  obtain ⟨r, hr, hnode, hroot, hcode⟩ := h.exists_build
  obtain ⟨nodes, k, hb⟩ := built_of_buildTree hr
  have hl : s.LengthsLegal := fun x => by rw [State.readCode, hcode]; exact hb.len_le x
  obtain ⟨res, u, henc⟩ := exists_encodeProcedure (xs.map Fin.val) hc hl
  obtain rfl : res = .stream (encodedWords r.code (xs.map Fin.val)) := by
    rw [encodeProcedure_spec henc, hcode, hb.encodeOutcome_eq_stream hx]
  obtain ⟨hucfg, hunode, huroot, -⟩ := encodeProcedure_frame henc
  obtain ⟨hbits, hn⟩ := encodedWords_spec r.code (xs.map Fin.val)
  obtain ⟨res, v, hdec⟩ := exists_decodeProcedure (s := u) (hucfg ▸ hc) hn
  obtain rfl : res = .symbols (xs.map fun x => BitVec.ofNat 7 x.val) := by
    rw [decodeProcedure_spec hdec, hunode, huroot, hbits, flatMap_codewordOf, hnode, hroot, hb.walkBits_codewords hx,
      walkOutcome, if_pos rfl]
  exact ⟨_, u, _, v, henc, hdec⟩

/-- BUILD keeps the parameters (R50). -/
theorem execBuild_cfg {s t : State} (h : exec .build s = .next t) : t.cfg = s.cfg := by
  rw [exec] at h
  rcases execBuild_cases s with ⟨r, -, e⟩ | ⟨-, e⟩
  · rw [e, done_eq_next_iff] at h; subst h; rfl
  · rw [e, raise_eq_next_iff] at h; subst h; rfl

/-- Settles O53: the outcomes exist because no full FIFO blocks a procedure whose host pops, and `encodeProcedure_spec` and
`decodeProcedure_spec` say which they are. -/
theorem proceduresEndInTheOneOutcome : Obligations.ProceduresEndInTheOneOutcome := by
  unfold Obligations.ProceduresEndInTheOneOutcome
  refine ⟨?afterBuild, ?encodeExists, ?encodeUnknown, ?encodeUnique, ?decodeExists, ?decodeOutcome⟩
  case afterBuild =>
    intro s t xs hc ht hok hx
    exact (codecOf_of_build ht hok).exists_encode_decode (by rw [execBuild_cfg ht]; exact hc) hx
  case encodeExists => exact fun xs s hc hl => exists_encodeProcedure xs hc hl
  case encodeUnknown =>
    intro xs s t res h
    rw [encodeProcedure_spec h]
    exact encodeOutcome_eq_unknownSymbol_iff s.code xs
  case encodeUnique =>
    intro xs s s' t t' res res' hcode h h'
    rw [encodeProcedure_spec h, encodeProcedure_spec h', hcode]
  case decodeExists => exact fun ws s hc hn => exists_decodeProcedure hc hn
  case decodeOutcome =>
    intro ws s t res h
    rw [decodeProcedure_spec h]
    exact ⟨fun hw => by rw [hw]; rfl, fun cur out hw => by rw [hw]; rfl⟩

end Sys2Proof.Machine
end

section
/-! PROOFS. Decoding and encoding (spec/30_encoding.md R81 to R86, R92). A word decodes to a command exactly when it is the
encoding of that command with operands that fit; both directions of the round trip, the rows a word selects and the example
words follow from that. -/

namespace Sys2Proof

/-! ## The opcode map and the fields of a command -/

/-- R82: which operands a format requires to be 0. -/
def Format.unusedOperandsZero (f : Format) (a k : Nat) : Prop :=
  match f with
  | .f0 => a = 0 ∧ k = 0
  | .fa => k = 0
  | .fak => True

theorem fieldA_eq_zero_iff (w : Word) : fieldA w = 0 ↔ bitsA w = 0 := BitVec.toNat_inj (y := 0#8)

theorem fieldK_eq_zero_iff (w : Word) : fieldK w = 0 ↔ bitsK w = 0 := BitVec.toNat_inj (y := 0#2)

theorem Format.unusedZero_iff (f : Format) (w : Word) :
    f.unusedZero w ↔ fieldRsv w = 0 ∧ f.unusedOperandsZero (fieldA w) (fieldK w) := by
  cases f with
  | f0 => simp only [unusedZero, unusedOperandsZero, fieldA_eq_zero_iff, fieldK_eq_zero_iff, and_comm]
  | fa => simp only [unusedZero, unusedOperandsZero, fieldK_eq_zero_iff]
  | fak => simp only [unusedZero, unusedOperandsZero, and_true]

/-- R85: the opcode map and `Instr.op` with the operands say the same: a row makes `i` of operands its format allows
exactly when these are `i`'s opcode and operands. -/
theorem exists_row_iff (i : Instr) (op : Byte) (a k : Nat) :
    (∃ r ∈ opcodeMap, r.op = op ∧ r.format.unusedOperandsZero a k ∧ r.make a k = i) ↔
      i.op = op ∧ a = i.operandA ∧ k = i.operandK := by
  cases i <;> simp [opcodeMap, Format.unusedOperandsZero, Instr.op, Instr.operandA, Instr.operandK]
  all_goals exact fun _ => and_comm

/-- R90: the operands of a command fit exactly when A and K do; an operand its format lacks is 0. -/
theorem Instr.wellFormed_iff (i : Instr) : i.wellFormed = true ↔ i.operandA ≤ 255 ∧ i.operandK ≤ 3 := by
  refine ⟨Instr.wellFormed_bounds, fun ⟨ha, hk⟩ => ?_⟩
  cases i <;> simp_all [Instr.wellFormed, Instr.operandA, Instr.operandK, fitsA, fitsK]

/-! ## Decoding is the inverse of encoding -/

/-- R84: a word decodes to the command with the word's OP, A and K, where RSV is 0. -/
theorem decode_eq_ok_iff_fields (w : Word) (i : Instr) :
    decode w = .ok i ↔ fieldRsv w = 0 ∧ i.op = fieldOp w ∧ fieldA w = i.operandA ∧ fieldK w = i.operandK := by
  rw [decode_eq_ok_iff, ← exists_row_iff]
  simp only [Format.unusedZero_iff]
  constructor
  · rintro ⟨r, hr, hop, ⟨hrsv, hz⟩, hmake⟩
    exact ⟨hrsv, r, hr, hop, hz, hmake⟩
  · rintro ⟨hrsv, r, hr, hop, hz, hmake⟩
    exact ⟨r, hr, hop, ⟨hrsv, hz⟩, hmake⟩

/-- R81: the word with a command's OP, A and K and RSV 0 is the command's encoding. -/
theorem encode_eq_of_fields {w : Word} {i : Instr} (hrsv : fieldRsv w = 0) (hop : i.op = fieldOp w)
    (ha : fieldA w = i.operandA) (hk : fieldK w = i.operandK) : encode i = w := by
  have hA : BitVec.ofNat 8 (fieldA w) = bitsA w := BitVec.eq_of_toNat_eq (Nat.mod_eq_of_lt (bitsA w).isLt)
  have hK : BitVec.ofNat 2 (fieldK w) = bitsK w := BitVec.eq_of_toNat_eq (Nat.mod_eq_of_lt (bitsK w).isLt)
  calc encode i = wordOf 0 (BitVec.ofNat 2 i.operandK) (BitVec.ofNat 8 i.operandA) i.op := encode_eq_wordOf i
    _ = wordOf (fieldRsv w) (bitsK w) (bitsA w) (fieldOp w) := by rw [hop, ← ha, ← hk, hA, hK, hrsv]
    _ = w := (word_eq_fields w).symm

/-- R81 to R85: the words that decode to a command are its encoding, where its operands fit, and no other. -/
theorem decode_eq_ok_iff_encode (w : Word) (i : Instr) : decode w = .ok i ↔ i.wellFormed = true ∧ encode i = w := by
  rw [decode_eq_ok_iff_fields]
  constructor
  · rintro ⟨hrsv, hop, ha, hk⟩
    have hA : fieldA w < 256 := BitVec.isLt _
    have hK : fieldK w < 4 := BitVec.isLt _
    exact ⟨i.wellFormed_iff.2 ⟨by omega, by omega⟩, encode_eq_of_fields hrsv hop ha hk⟩
  · rintro ⟨hi, rfl⟩
    obtain ⟨hop, ha, hk, hrsv⟩ := Laws.EncodedFields.of_wellFormed i hi
    exact ⟨hrsv, hop.symm, ha, hk⟩

/-- Settles O1: the encoding of a command whose operands fit is the word that decodes to it. -/
theorem decodeOfEncode : Obligations.DecodeOfEncode :=
  fun i hi => (decode_eq_ok_iff_encode (encode i) i).2 ⟨hi, rfl⟩

/-- Settles O2: no other word decodes to a command. -/
theorem encodeOfDecode : Obligations.EncodeOfDecode :=
  fun w i => (decode_eq_ok_iff_encode w i).1

/-- Settles O5: the legal words decode because they are the encodings of commands whose operands fit. -/
theorem exampleWordsDecode : Obligations.ExampleWordsDecode := by
  have decodes {w : Word} {i : Instr} (hi : i.wellFormed = true) (hw : encode i = w) : decode w = .ok i :=
    (decode_eq_ok_iff_encode w i).2 ⟨hi, hw⟩
  unfold Obligations.ExampleWordsDecode
  refine ⟨by decide, ⟨?_, ?_, ?_, ?_, ?_, ?_, ?_, ?_, ?_, ?_⟩, by decide⟩
  all_goals exact decodes (by decide) (by decide)

/-! ## The row a CMD write runs -/

namespace Machine

theorem runCommand_of_ok {w : Word} {i : Instr} (h : decode w = .ok i) (s : State) : runCommand w s = exec i s := by
  rw [runCommand, h]

theorem runCommand_of_error {w : Word} {e : DecodeReject} (h : decode w = .error e) (s : State) :
    runCommand w s = failed .illegalCmd 0 s := by
  rw [runCommand, h]
  rfl

/-- R84, R86: a word whose OP and unused fields meet no row is illegal. -/
theorem runCommand_of_no_row {w : Word} (h : ∀ r ∈ opcodeMap, ¬ (r.op = fieldOp w ∧ r.format.unusedZero w)) (s : State) :
    runCommand w s = failed .illegalCmd 0 s := by
  obtain ⟨e, he⟩ := decode_error_of_forall h
  exact runCommand_of_error he s

/-- R84: a word matches a row under its format's mask when it has the row's OP and 0 in the fields the format does not
use. -/
theorem and_mask_eq_rowPattern_iff (r : Row) (w : Word) :
    w &&& r.format.mask = r.pattern ↔ r.op = fieldOp w ∧ r.format.unusedZero w := by
  rw [Row.pattern, and_mask_eq_pattern_iff, eq_comm]

/-- Settles O3: the row a word matches is the row of its OP. -/
theorem cmdWordSelectsRow : Obligations.CmdWordSelectsRow := by
  unfold Obligations.CmdWordSelectsRow
  simp only [Ne, and_mask_eq_rowPattern_iff]
  refine ⟨?matching, ?unmatched, ?unique, by decide⟩
  case matching =>
    rintro w s r hr ⟨hop, hz⟩
    exact runCommand_of_ok ((decode_eq_ok_iff w _).2 ⟨r, hr, hop, hz, rfl⟩) s
  case unmatched => exact fun w s h => runCommand_of_no_row h s
  case unique => exact fun w r _ r' _ h h' => h.1.trans h'.1.symm

/-- R85: the opcodes of the map lie in 0x00 to 0x0B, 0x10 to 0x14 and 0x20 to 0x24. -/
theorem opcodeMap_op_ranges : ∀ r ∈ opcodeMap,
    r.op.toNat ≤ 0x0B ∨ (0x10 ≤ r.op.toNat ∧ r.op.toNat ≤ 0x14) ∨ (0x20 ≤ r.op.toNat ∧ r.op.toNat ≤ 0x24) := by
  decide

/-- Settles O4: an illegal word meets no row, for its OP (`opcodeMap_op_ranges`), its RSV or, where the rows of its OP have
one format (`misfit_of_rows`), a field that format does not use. -/
theorem illegalWordsRaise : Obligations.IllegalWordsRaise := by
  unfold Obligations.IllegalWordsRaise
  refine ⟨?undefinedOrReserved, ?fa, ?fak, ?f0, ?nop⟩
  case undefinedOrReserved =>
    intro w s hw
    refine runCommand_of_no_row (fun r hr ⟨hop, hz⟩ => ?_) s
    have hrsv : w.extractLsb' 18 14 = 0 := ((r.format.unusedZero_iff w).1 hz).1
    have hranges := opcodeMap_op_ranges r hr
    rw [hop] at hranges
    rcases hw with hw | hw | hw | hw
    · omega
    · omega
    · omega
    · exact hw hrsv
  case fa => exact fun op hop => misfit_of_rows (by revert op; decide)
  case fak => exact fun op hop => misfit_of_rows (by revert op; decide)
  case f0 => exact fun op hop => misfit_of_rows (by revert op; decide)
  case nop =>
    intro w
    have henc : encode .nop = 0 := by decide
    rw [decode_eq_ok_iff_encode, henc, eq_comm (a := (0 : Word))]
    exact and_iff_right rfl

end Machine
end Sys2Proof
end

section
/-! PROOFS. The transactions of a host program's lines (spec/30_encoding.md R90, R91): a pseudo-instruction is an ARG line
and a command line, and emits both transactions or none. -/

namespace Sys2Proof.Machine

theorem assembleBasic_arg_of_lt {v : Nat} (h : v < 2 ^ 32) :
    assembleBasic (.arg v) = some (.busWrite 0x08 4 (BitVec.ofNat 32 v)) := if_pos h

theorem assembleBasic_arg_of_le {v : Nat} (h : 2 ^ 32 ≤ v) : assembleBasic (.arg v) = none := if_neg (by omega)

theorem assembleBasic_command_of_fits {i : Instr} (h : i.wellFormed = true) :
    assembleBasic (.command i) = some (.busWrite 0x0C 4 (encode i)) := if_pos h

theorem assembleBasic_command_of_misfit {i : Instr} (h : i.wellFormed = false) : assembleBasic (.command i) = none :=
  if_neg (by simp [h])

theorem assembleLine_basic (l : BasicLine) : assembleLine (.basic l) = (assembleBasic l).toList := by
  rw [assembleLine, expandLine]
  cases h : assembleBasic l <;> simp [h]

/-- R91: a pseudo-instruction whose operands fit gives the ARG write and the CMD write of its expansion. -/
theorem assembleLine_of_fits {l : HostLine} {v : Nat} {i : Instr} (hl : expandLine l = [.arg v, .command i])
    (hv : v < 2 ^ 32) (hi : i.operandA ≤ 255 ∧ i.operandK ≤ 3) :
    assembleLine l = [.busWrite 0x08 4 (BitVec.ofNat 32 v),
      .busWrite 0x0C 4 (BitVec.ofNat 32 (i.operandK * 65536 + i.operandA * 256 + i.op.toNat))] := by
  have hwf := i.wellFormed_iff.2 hi
  rw [assembleLine, hl, ← encode_eq_ofNat hwf]
  simp [assembleBasic_arg_of_lt hv, assembleBasic_command_of_fits hwf]

/-- A command that has no operand K has 0 in its place. -/
theorem assembleLine_of_fits_without_K {l : HostLine} {v : Nat} {i : Instr} (hl : expandLine l = [.arg v, .command i])
    (hv : v < 2 ^ 32) (ha : i.operandA ≤ 255) (hk : i.operandK = 0) :
    assembleLine l = [.busWrite 0x08 4 (BitVec.ofNat 32 v),
      .busWrite 0x0C 4 (BitVec.ofNat 32 (i.operandA * 256 + i.op.toNat))] := by
  rw [assembleLine_of_fits hl hv ⟨ha, by omega⟩, hk, Nat.zero_mul, Nat.zero_add]

/-- R90, R91: a pseudo-instruction with an operand that does not fit gives nothing. -/
theorem assembleLine_of_misfit {l : HostLine} {v : Nat} {i : Instr} (hl : expandLine l = [.arg v, .command i])
    (h : 255 < i.operandA ∨ 3 < i.operandK ∨ 2 ^ 32 ≤ v) : assembleLine l = [] := by
  rw [assembleLine, hl]
  by_cases hv : v < 2 ^ 32
  · have hi : i.wellFormed = false := by
      rw [← Bool.not_eq_true, Instr.wellFormed_iff]
      omega
    simp [assembleBasic_arg_of_lt hv, assembleBasic_command_of_misfit hi]
  · simp [assembleBasic_arg_of_le (Nat.le_of_not_lt hv)]

/-- Settles O59: each clause is a basic line, or the rule for fitting or for unfitting operands at the expansion of its
pseudo-instruction. -/
theorem hostLinesAssemble : Obligations.HostLinesAssemble := by
  unfold Obligations.HostLinesAssemble
  refine ⟨?rd, ?arg, ?command, ?setF, ?ldNode, ?ldRoot, ?ldBits, ?ldLen, ?dec, ?argMisfit, ?commandMisfit, ?setFMisfit,
    ?ldNodeMisfit, ?ldRootMisfit, ?ldBitsMisfit, ?ldLenMisfit, ?decMisfit⟩
  case rd =>
    intro n off h
    have hoff : slotOffset (slotOfName n) = off := by
      cases n <;> simpa [slotOffset, slotOfName, eq_comm] using h
    rw [assembleLine_basic, ← hoff]
    rfl
  case arg => exact fun v hv => by rw [assembleLine_basic, assembleBasic_arg_of_lt hv]; rfl
  case command => exact fun i hi => by rw [assembleLine_basic, assembleBasic_command_of_fits hi]; rfl
  case setF => exact fun s c hs hc => assembleLine_of_fits_without_K (i := .freqWr s) rfl hc hs rfl
  case ldNode => exact fun i v hi hv => assembleLine_of_fits_without_K (i := .nodeWr i) rfl hv hi rfl
  case ldRoot => exact fun r hr => assembleLine_of_fits_without_K (i := .rootWr) rfl hr (Nat.zero_le 255) rfl
  case ldBits => exact fun s k v hs hk hv => assembleLine_of_fits (i := .codeWr s k) rfl hv ⟨hs, hk⟩
  case ldLen => exact fun s n hs hn => assembleLine_of_fits_without_K (i := .codeLenWr s) rfl hn hs rfl
  case dec => exact fun n v hn hv => assembleLine_of_fits_without_K (i := .decWord n) rfl hv hn rfl
  case argMisfit => exact fun v hv => by rw [assembleLine_basic, assembleBasic_arg_of_le hv]; rfl
  case commandMisfit => exact fun i hi => by rw [assembleLine_basic, assembleBasic_command_of_misfit hi]; rfl
  case setFMisfit => exact fun s c h => assembleLine_of_misfit rfl (h.imp_right .inr)
  case ldNodeMisfit => exact fun i v h => assembleLine_of_misfit rfl (h.imp_right .inr)
  case ldRootMisfit => exact fun r h => assembleLine_of_misfit rfl (.inr (.inr h))
  case ldBitsMisfit => exact fun s k v h => assembleLine_of_misfit rfl h
  case ldLenMisfit => exact fun s n h => assembleLine_of_misfit rfl (h.imp_right .inr)
  case decMisfit => exact fun n v h => assembleLine_of_misfit rfl (h.imp_right .inr)

end Sys2Proof.Machine
end

section
/-! PROOFS. The control commands and the reset transaction (spec/40_control.md R100, R101; spec/10_state.md R51;
spec/70_reset_and_hazards.md R220). -/

namespace Sys2Proof.Machine

theorem exec_nop (s : State) : exec .nop s = .next { s with err := .ok, errInfo := 0 } := rfl

/-- R101: the completion of CLR writes the OK that the reset value of STATUS has already. -/
theorem exec_clr (s : State) : exec .clr s = .next s.cleared := rfl

/-- R220: the reset transaction. -/
theorem step_reset {s : State} {rest : List Transaction} (h : s.pending = .reset :: rest) :
    step s = .next { s.cleared with pending := rest } := by
  rw [step, h]
  rfl

theorem cleared_reset : State.reset.cleared = State.reset := rfl

/-- R23, R51: STATUS is made of elements that are cleared whatever they were, so it reads as after reset. -/
theorem statusWord_cleared (s : State) : statusWord s.cleared = 0 :=
  calc statusWord s.cleared = statusWord State.reset := rfl
    _ = 0 := by decide

/-- Settles O21: NOP is the bare completion of R8, and its opcode has the one row whose format uses no field. -/
theorem nopOnlyClearsError : Obligations.NopOnlyClearsError :=
  ⟨exec_nop, by decide, misfit_of_rows (by decide)⟩

/-- Settles O11: the listed values are those of `State.cleared`, which CLR and the reset transaction both answer. -/
theorem resetAndClrValues : Obligations.ResetAndClrValues := by
  unfold Obligations.ResetAndClrValues
  intro s c hc
  have hcleared : c = s.cleared := hc
  subst hcleared
  refine ⟨exec_clr s, by decide, misfit_of_rows (by decide), fun _ => step_reset, statusWord_cleared s, ?reset⟩
  case reset =>
    rintro rfl
    exact cleared_reset.symm

end Sys2Proof.Machine
end

section
/-! PROOFS. The commands that read and write one entry of a table, and those that only report (spec/41_builder.md R110,
R111, R120 to R126; spec/42_encoder.md R155; spec/43_decoder.md R175). -/

namespace Sys2Proof

theorem encode_of_fits {i : Instr} (ha : i.operandA ≤ 255) (hk : i.operandK ≤ 3) :
    encode i = BitVec.ofNat 32 (i.operandK * 65536 + i.operandA * 256 + i.op.toNat) :=
  encode_eq_ofNat (i.wellFormed_iff.2 ⟨ha, hk⟩)

theorem encode_of_fits_without_K {i : Instr} (ha : i.operandA ≤ 255) (hk : i.operandK = 0) :
    encode i = BitVec.ofNat 32 (i.operandA * 256 + i.op.toNat) := by
  rw [encode_of_fits ha (by omega), hk, Nat.zero_mul, Nat.zero_add]

namespace Machine

/-! ## Operands out of range -/

/-- R83: a table command whose A names a symbol raises BAD_OPERAND where it names none. -/
theorem exec_of_symbolOperand_ge {a k : Nat} (h : 128 ≤ a) {i : Instr}
    (hi : i ∈ [.freqWr a, .freqRd a, .codeRd a k, .codeWr a k, .codeLenWr a]) (s : State) :
    exec i s = failed .badOperand 0 s := by
  simp only [List.mem_cons, List.not_mem_nil, or_false] at hi
  rcases hi with rfl | rfl | rfl | rfl | rfl
  all_goals
    simp only [exec, execFreqWr, execFreqRd, execCodeRd, execCodeWr, execCodeLenWr, symbolOperand_of_ge h]
    rfl

/-- R83: so does a command whose A names a node. -/
theorem exec_of_nodeOperand_ge {a : Nat} (h : 255 ≤ a) {i : Instr} (hi : i ∈ [.nodeRd a, .nodeWr a]) (s : State) :
    exec i s = failed .badOperand 0 s := by
  simp only [List.mem_cons, List.not_mem_nil, or_false] at hi
  rcases hi with rfl | rfl
  all_goals
    simp only [exec, execNodeRd, execNodeWr, nodeOperand_of_ge h]
    rfl

/-! ## FREQ -/

/-- Settles O22: FREQ_WR on a symbol operand in range and out of range. -/
theorem freqWrStoresTheCount : Obligations.FreqWrStoresTheCount := by
  unfold Obligations.FreqWrStoresTheCount
  refine ⟨?stores, ?outOfRange, ?words, misfit_of_rows (by decide)⟩
  case stores =>
    intro a h s
    rw [exec, execFreqWr, symbolOperand_of_lt h]
    rfl
  case outOfRange => exact fun a s h => exec_of_symbolOperand_ge (k := 0) h (by simp) s
  case words => exact fun a ha => encode_of_fits_without_K (i := .freqWr a) ha rfl

/-- Settles O23: FREQ_RD on a symbol operand in range and out of range. -/
theorem freqRdReadsTheCount : Obligations.FreqRdReadsTheCount := by
  unfold Obligations.FreqRdReadsTheCount
  refine ⟨?reads, ?outOfRange, ?words, misfit_of_rows (by decide)⟩
  case reads =>
    intro a h s
    rw [exec, execFreqRd, symbolOperand_of_lt h]
    rfl
  case outOfRange => exact fun a s h => exec_of_symbolOperand_ge (k := 0) h (by simp) s
  case words => exact fun a ha => encode_of_fits_without_K (i := .freqRd a) ha rfl

/-! ## The reports -/

/-- R87: the fields of TREEINFO. -/
theorem toNat_treeInfoWord (root nleaf ncount : Byte) :
    (treeInfoWord root nleaf ncount).toNat = ncount.toNat * 65536 + nleaf.toNat * 256 + root.toNat := by
  simp only [treeInfoWord, BitVec.toNat_append]
  rw [← Nat.shiftLeft_add_eq_or_of_lt root.isLt, ← Nat.shiftLeft_add_eq_or_of_lt nleaf.isLt,
    ← Nat.shiftLeft_add_eq_or_of_lt ncount.isLt]
  simp only [Nat.shiftLeft_eq, BitVec.toNat_ofNat]
  omega

/-- Settles O24: each report is a bare `withResults`. -/
theorem infoCommandsReport : Obligations.InfoCommandsReport := by
  unfold Obligations.InfoCommandsReport
  refine ⟨?treeInfo, fun s => rfl, ?decInfo, by decide, misfit_of_rows (by decide), misfit_of_rows (by decide),
    misfit_of_rows (by decide)⟩
  case treeInfo => exact fun s => ⟨_, rfl, toNat_treeInfoWord s.root s.nleaf s.ncount⟩
  case decInfo =>
    intro s
    rw [BitVec.ofNat_toNat, BitVec.ofNat_toNat]
    rfl

/-! ## NODE and ROOT -/

/-- R87: the fields of NODEHDR. -/
theorem nodeHeader_fields (n : Node) :
    (nodeHeader n).getLsbD 31 = n.valid ∧ ((nodeHeader n).getLsbD 30 = true ↔ n.kind = .internal) ∧
      (nodeHeader n).extractLsb' 23 7 = 0 ∧ (nodeHeader n).extractLsb' 16 7 = n.weight.extractLsb' 32 7 ∧
      (nodeHeader n).extractLsb' 8 8 = n.b ∧ (nodeHeader n).extractLsb' 0 8 = n.a := by
  have bits (i : Nat) : (nodeHeader n).getLsbD i =
      (BitVec.ofBool n.valid ++ kindBit n.kind ++ 0#7 ++ n.weight.extractLsb' 32 7 ++ n.b ++ n.a).getLsbD i := rfl
  simp only [BitVec.getLsbD_append] at bits
  refine ⟨?valid, ?kind, ?zero, ?weight, ?b, BitVec.extractLsb'_append_eq_right⟩
  case valid =>
    rw [bits]
    simp
  case kind =>
    rw [bits]
    cases n.kind <;> simp [kindBit]
  all_goals unfold nodeHeader
  case b =>
    rw [BitVec.extractLsb'_append_eq_of_le (by decide)]
    exact BitVec.extractLsb'_append_eq_right
  case weight =>
    rw [BitVec.extractLsb'_append_eq_of_le (by decide), BitVec.extractLsb'_append_eq_of_le (by decide)]
    exact BitVec.extractLsb'_append_eq_right
  case zero =>
    rw [BitVec.extractLsb'_append_eq_of_le (by decide), BitVec.extractLsb'_append_eq_of_le (by decide),
      BitVec.extractLsb'_append_eq_of_le (by decide)]
    exact BitVec.extractLsb'_append_eq_right

/-- Settles O25: NODE_RD answers the low weight bits and NODEHDR of the entry. -/
theorem nodeRdReadsTheEntry : Obligations.NodeRdReadsTheEntry := by
  unfold Obligations.NodeRdReadsTheEntry
  refine ⟨?reads, ?outOfRange, ?words, misfit_of_rows (by decide)⟩
  case reads =>
    intro a h s
    refine ⟨_, nodeHeader s.node[a], ?_, rfl, nodeHeader_fields s.node[a]⟩
    rw [exec, execNodeRd, nodeOperand_of_lt h]
    rfl
  case outOfRange => exact fun a s h => exec_of_nodeOperand_ge h (by simp) s
  case words => exact fun a ha => encode_of_fits_without_K (i := .nodeRd a) ha rfl

/-- Settles O26: NODE_WR on a node operand in range and out of range. -/
theorem nodeWrStoresTheEntry : Obligations.NodeWrStoresTheEntry := by
  unfold Obligations.NodeWrStoresTheEntry
  refine ⟨?stores, ?outOfRange, ?words, misfit_of_rows (by decide)⟩
  case stores =>
    intro a h s
    rw [exec, execNodeWr, nodeOperand_of_lt h]
    rfl
  case outOfRange => exact fun a s h => exec_of_nodeOperand_ge h (by simp) s
  case words => exact fun a ha => encode_of_fits_without_K (i := .nodeWr a) ha rfl

/-- Settles O27: ROOT_WR has one case. -/
theorem rootWrSetsRootAndCursor : Obligations.RootWrSetsRootAndCursor :=
  ⟨fun _ => rfl, by decide, misfit_of_rows (by decide)⟩

/-! ## CODE -/

/-- R124: a bit of word `k` is its bit of BITS; BITS[127], which is not stored, reads 0. -/
theorem getLsbD_codeWord (c : Code) {k j : Nat} (hk : k ≤ 3) (hj : j < 32) :
    (codeWord c k).getLsbD j = c.bits.getLsbD (32 * k + j) := by
  simp only [codeWord, codeBits128, BitVec.getLsbD_extractLsb', BitVec.getLsbD_setWidth]
  simp only [hj, show 32 * k + j < 128 by omega, decide_true, Bool.true_and]

/-- The 128-bit mask of word 0. -/
theorem getLsbD_wordMask (i : Nat) : (0xFFFFFFFF#128).getLsbD i = decide (i < 32) := by
  rw [show 0xFFFFFFFF#128 = (BitVec.allOnes 32).setWidth 128 by decide, BitVec.getLsbD_setWidth, BitVec.getLsbD_allOnes]
  by_cases hi : i < 32
  · simp [hi, show i < 128 by omega]
  · simp [hi]

/-- R125: CODE_WR replaces the bits of word `k` and keeps the others. -/
theorem getLsbD_codeWithWord (c : Code) (v : Word) {k j : Nat} (hj : j < 127) :
    (codeWithWord c k v).bits.getLsbD j =
      if 32 * k ≤ j ∧ j < 32 * k + 32 then v.getLsbD (j - 32 * k) else c.bits.getLsbD j := by
  have h128 : j < 128 := by omega
  have hsub : j - 32 * k < 128 := by omega
  simp only [codeWithWord, codeBits128, BitVec.getLsbD_setWidth, BitVec.getLsbD_or, BitVec.getLsbD_and,
    BitVec.getLsbD_not, BitVec.getLsbD_shiftLeft, getLsbD_wordMask, hj, h128, hsub, decide_true, Bool.true_and]
  by_cases hlo : j < 32 * k
  · simp [hlo, show ¬ 32 * k ≤ j by omega]
  · by_cases hhi : j < 32 * k + 32
    · simp [hlo, hhi, show j - 32 * k < 32 by omega, show 32 * k ≤ j by omega]
    · simp [hlo, hhi, show ¬ j - 32 * k < 32 by omega, BitVec.getLsbD_of_ge v (j - 32 * k) (by omega)]

/-- Settles O28: CODE_RD answers the word whose bits `getLsbD_codeWord` gives. -/
theorem codeRdReadsTheWord : Obligations.CodeRdReadsTheWord := by
  unfold Obligations.CodeRdReadsTheWord
  refine ⟨?reads, ?outOfRange, ?words, misfit_of_rows (by decide)⟩
  case reads =>
    intro a k h s hk
    refine ⟨codeWord s.code[a] k, ?_, fun j hj _ => getLsbD_codeWord _ hk hj, fun h3 => ?_⟩
    · rw [exec, execCodeRd, symbolOperand_of_lt h, BitVec.ofNat_toNat]
      rfl
    · rw [getLsbD_codeWord _ hk (by decide)]
      exact BitVec.getLsbD_of_ge _ _ (by omega)
  case outOfRange => exact fun a k s h => exec_of_symbolOperand_ge (k := k) h (by simp) s
  case words => exact fun a k ha hk => encode_of_fits (i := .codeRd a k) ha hk

/-- Settles O29: CODE_WR stores the entry whose bits `getLsbD_codeWithWord` gives. -/
theorem codeWrStoresTheWord : Obligations.CodeWrStoresTheWord := by
  unfold Obligations.CodeWrStoresTheWord
  refine ⟨?stores, ?outOfRange, ?words, misfit_of_rows (by decide)⟩
  case stores =>
    intro a k h s _
    refine ⟨codeWithWord s.code[a] k s.arg, ?_, rfl, fun j hj => getLsbD_codeWithWord _ _ hj⟩
    rw [exec, execCodeWr, symbolOperand_of_lt h]
    rfl
  case outOfRange => exact fun a k s h => exec_of_symbolOperand_ge (k := k) h (by simp) s
  case words => exact fun a k ha hk => encode_of_fits (i := .codeWr a k) ha hk

theorem lengthOperand_of_le {arg : Word} (h : (arg.extractLsb' 0 8).toNat ≤ 127) :
    lengthOperand arg = some (arg.extractLsb' 0 8) := if_pos h

theorem lengthOperand_of_ge {arg : Word} (h : 128 ≤ (arg.extractLsb' 0 8).toNat) : lengthOperand arg = none :=
  if_neg (by omega)

/-- Settles O30: CODE_LEN_WR needs both its symbol and its length in range. -/
theorem codeLenWrStoresTheLength : Obligations.CodeLenWrStoresTheLength := by
  unfold Obligations.CodeLenWrStoresTheLength
  refine ⟨?stores, ?outOfRange, ?words, misfit_of_rows (by decide)⟩
  case stores =>
    intro a h s hn
    simp only [exec, execCodeLenWr, symbolOperand_of_lt h, lengthOperand_of_le hn]
    rfl
  case outOfRange =>
    intro a s h
    by_cases ha : a < 128
    · simp only [exec, execCodeLenWr, symbolOperand_of_lt ha, lengthOperand_of_ge (h.resolve_left (by omega))]
      rfl
    · exact exec_of_symbolOperand_ge (k := 0) (Nat.le_of_not_lt ha) (by simp) s
  case words => exact fun a ha => encode_of_fits_without_K (i := .codeLenWr a) ha rfl

end Machine
end Sys2Proof
end

section
/-! PROOFS. What BUILD leaves (spec/41_builder.md R112 to R119, R127): every statement starts from `exec_build_ok`, which
gives the tree (`Built`) a successful BUILD wrote, and reads the arena through `Built.nodeAt_eq`. -/

namespace Sys2Proof.Machine

/-! ## The positive symbols -/

theorem positiveSymbols_eq_filter (freq : Vector Word 128) :
    positiveSymbols freq = (List.finRange 128).filter fun x => decide (freq[x] ≠ 0) := by
  refine List.filter_congr fun x _ => ?_
  rw [decide_eq_decide, Nat.pos_iff_ne_zero, not_iff_not, ← BitVec.toNat_inj]
  rfl

theorem leafCount_eq (freq : Vector Word 128) : leafCount freq = (positiveSymbols freq).length := by
  rw [leafCount, List.countP_eq_length_filter, positiveSymbols_eq_filter]

theorem positiveSymbols_eq_nil_iff (freq : Vector Word 128) :
    positiveSymbols freq = [] ↔ ∀ x : SymIx, freq[x] = 0 := by
  simp only [List.eq_nil_iff_forall_not_mem, mem_positiveSymbols, positive, not_not]

theorem positiveSymbols_eq_singleton {freq : Vector Word 128} {x : SymIx} (hx : positive freq x)
    (h : ∀ y, positive freq y → y = x) : positiveSymbols freq = [x] := by
  rw [← List.perm_singleton, List.perm_ext_iff_of_nodup (positiveSymbols_nodup freq) (List.nodup_singleton x)]
  intro y
  rw [mem_positiveSymbols, List.mem_singleton]
  exact ⟨h y, fun hy => hy ▸ hx⟩

/-! ## The command -/

/-- R112, R117: the state a successful BUILD makes of its result. -/
def State.afterBuild (r : BuildResult) (s : State) : State :=
  { s with node := r.node, code := r.code, root := r.root, nleaf := r.nleaf, ncount := r.ncount, decCur := r.root,
           res0 := treeInfoWord r.root r.nleaf r.ncount, res1 := 0, err := .ok, errInfo := 0 }

@[simp] theorem State.afterBuild_node (r : BuildResult) (s : State) : (s.afterBuild r).node = r.node := rfl
@[simp] theorem State.afterBuild_code (r : BuildResult) (s : State) : (s.afterBuild r).code = r.code := rfl
@[simp] theorem State.afterBuild_root (r : BuildResult) (s : State) : (s.afterBuild r).root = r.root := rfl
@[simp] theorem State.afterBuild_nleaf (r : BuildResult) (s : State) : (s.afterBuild r).nleaf = r.nleaf := rfl
@[simp] theorem State.afterBuild_ncount (r : BuildResult) (s : State) : (s.afterBuild r).ncount = r.ncount := rfl
@[simp] theorem State.afterBuild_res0 (r : BuildResult) (s : State) :
    (s.afterBuild r).res0 = treeInfoWord r.root r.nleaf r.ncount := rfl

theorem exec_build_of_some {s : State} {r : BuildResult} (h : buildTree s.freq = some r) :
    exec .build s = .next (s.afterBuild r) := by
  rw [exec, execBuild, h]
  rfl

theorem exec_build_of_none {s : State} (h : buildTree s.freq = none) : exec .build s = failed .emptyAlphabet 0 s := by
  rw [exec, execBuild, h]
  rfl

/-- R112, R113: BUILD ends with OK only where it has a result, whose tree is a `Built` one. -/
theorem exec_build_ok {s t : State} (h : exec .build s = .next t) (hok : t.err = .ok) :
    ∃ r nodes k, buildTree s.freq = some r ∧ Built s.freq r nodes k ∧ t = s.afterBuild r := by
  cases hr : buildTree s.freq with
  | none =>
    rw [exec_build_of_none hr, failed] at h
    cases h
    cases hok
  | some r =>
    obtain ⟨nodes, k, hb⟩ := built_of_buildTree hr
    rw [exec_build_of_some hr] at h
    cases h
    exact ⟨r, nodes, k, rfl, hb, rfl⟩

theorem exists_built {freq : Vector Word 128} {x : SymIx} (hx : positive freq x) :
    ∃ r nodes k, buildTree freq = some r ∧ Built freq r nodes k := by
  cases hr : buildTree freq with
  | none =>
    rw [buildTree_eq_none_iff, positiveSymbols_eq_nil_iff] at hr
    exact absurd (hr x) hx
  | some r =>
    obtain ⟨nodes, k, hb⟩ := built_of_buildTree hr
    exact ⟨r, nodes, k, rfl, hb⟩

/-- Settles O31: BUILD has no result exactly where there is no positive symbol. -/
theorem buildRaisesEmptyAlphabet : Obligations.BuildRaisesEmptyAlphabet := by
  unfold Obligations.BuildRaisesEmptyAlphabet
  refine ⟨fun s hs => ?_, fun s t h he => ?_⟩
  · exact exec_build_of_none ((buildTree_eq_none_iff _).2 ((positiveSymbols_eq_nil_iff _).2 hs))
  · rw [← positiveSymbols_eq_nil_iff, ← buildTree_eq_none_iff]
    cases hr : buildTree s.freq with
    | none => rfl
    | some r =>
      rw [exec_build_of_some hr] at h
      cases h
      cases he

/-- Settles O32: the counts of a `Built` tree, in the state `afterBuild`. -/
theorem buildCompletes : Obligations.BuildCompletes := by
  unfold Obligations.BuildCompletes
  refine ⟨?completes, ?freqOnly, by decide, misfit_of_rows (by decide)⟩
  case completes =>
    rintro s ⟨x, hx⟩
    obtain ⟨r, nodes, k, hr, hb⟩ := exists_built hx
    have hroot := hb.root
    have hlen := hb.length
    refine ⟨s.afterBuild r, exec_build_of_some hr, ?_, ?_, ?_, toNat_treeInfoWord r.root r.nleaf r.ncount, rfl⟩
    · rw [State.afterBuild_root, hb.root_toNat, leafCount_eq]
      omega
    · exact hb.nleaf_toNat.trans (leafCount_eq s.freq).symm
    · rw [State.afterBuild_ncount, hb.ncount_toNat, leafCount_eq]
      omega
  case freqOnly =>
    intro s s' t t' hfreq h h' hok
    obtain ⟨r, nodes, k, hr, -, rfl⟩ := exec_build_ok h hok
    rw [exec_build_of_some (hfreq ▸ hr)] at h'
    cases h'
    exact ⟨rfl, rfl, rfl, rfl, rfl, rfl, rfl⟩

/-! ## The arena -/

namespace Built

variable {freq : Vector Word 128} {r : BuildResult} {nodes : List Node} {k : Key}

/-- The arena as the list of its entries. -/
theorem nodeAt_eq (hb : Built freq r nodes k) (i : Nat) : nodeAt r.node i = (nodes[i]?).getD Node.empty := by
  rw [hb.node_eq, nodeAt_arenaOf hb.length_le]

theorem nodeAt_of_some (hb : Built freq r nodes k) {i : Nat} {n : Node} (h : nodes[i]? = some n) :
    nodeAt r.node i = n := by
  rw [hb.nodeAt_eq, h, Option.getD_some]

theorem getElem?_nodes (hb : Built freq r nodes k) {i : Nat} (h : i < nodes.length) :
    nodes[i]? = some (nodeAt r.node i) := by
  rw [hb.nodeAt_eq, List.getElem?_eq_getElem h, Option.getD_some]

/-- R115: the leaf of the j-th positive symbol is entry j. -/
theorem getElem?_leaf (hb : Built freq r nodes k) {j : Nat} {x : SymIx} (h : (positiveSymbols freq)[j]? = some x) :
    nodes[j]? = some (leafNode freq x) := by
  have hj := (List.getElem?_eq_some_iff.1 h).1
  have hlen := hb.length
  have hn := hb.getElem?_nodes (i := j) (by omega)
  obtain ⟨y, -, hny, hy⟩ := hb.leaf_eq hn ((hb.shape.leaf j _ hn).2 hj)
  rw [hy, Option.some.injEq] at h
  rw [hn, hny, h]

/-- R117: each merge of the tree took the two least keys. -/
theorem merges_leastTwo (hb : Built freq r nodes k) {n : Nat} (hl : (positiveSymbols freq).length ≤ n)
    (hn : n < nodes.length) : leastTwo (positiveSymbols freq).length nodes n := by
  have h := mergedTree_least freq n
  rw [leavesOf_length, hb.tree] at h
  exact h hl hn

theorem isChild_iff (hb : Built freq r nodes k) {m j : Nat} (hm : m < nodes.length) :
    isChild nodes m j ↔ (nodeAt r.node m).a.toNat = j ∨ (nodeAt r.node m).b.toNat = j := by
  simp [isChild, hb.getElem?_nodes hm]

theorem inCollection_iff (hb : Built freq r nodes k) {l n j : Nat} (hn : n ≤ nodes.length) :
    inCollection r.node l n j ↔ openAt l nodes n j := by
  unfold inCollection openAt
  refine and_congr_right fun _ => forall_congr' fun m => imp_congr_right fun _ => forall_congr' fun hm => ?_
  rw [hb.isChild_iff (by omega), not_or]

theorem keyBefore_of_keyOrder (hb : Built freq r nodes k) {i j : Nat} (h : keyOrder nodes i j) :
    keyBefore r.node i j := by
  obtain ⟨p, q, hp, hq, h⟩ := h
  rwa [keyBefore, hb.nodeAt_of_some hp, hb.nodeAt_of_some hq]

end Built

theorem leafNode_eq (freq : Vector Word 128) (x : SymIx) :
    leafNode freq x = { valid := true, kind := .leaf, a := BitVec.ofNat 8 x.val, b := 0,
                        weight := BitVec.ofNat 39 freq[x].toNat } := by
  rw [leafNode, BitVec.ofNat_toNat]

/-- Settles O33: the first entries of a `Built` tree are the leaves, and what BUILD does not write is empty. -/
theorem buildPlacesLeavesInOrder : Obligations.BuildPlacesLeavesInOrder := by
  unfold Obligations.BuildPlacesLeavesInOrder
  intro s t h hok
  obtain ⟨r, nodes, k, -, hb, rfl⟩ := exec_build_ok h hok
  refine ⟨?leaves, ?empty, ?noCode⟩
  case leaves =>
    intro j x hx
    rw [← positiveSymbols_eq_filter] at hx
    rw [← leafNode_eq]
    exact hb.nodeAt_of_some (hb.getElem?_leaf hx)
  case empty =>
    intro i hi
    have hi : nodes.length ≤ i.val := hb.ncount_toNat ▸ hi
    rw [State.afterBuild_node, hb.node_eq]
    simp [arenaOf, Node.empty, List.getElem?_eq_none hi]
  case noCode => exact fun x hx => hb.code_eq_empty (not_not.2 hx)

/-- Settles O34: `Built.merges_leastTwo` and the shape of the tree, read in the arena. -/
theorem buildMergesTwoLeastKeys : Obligations.BuildMergesTwoLeastKeys := by
  unfold Obligations.BuildMergesTwoLeastKeys
  intro s t h hok n hln hn
  obtain ⟨r, nodes, k, -, hb, rfl⟩ := exec_build_ok h hok
  rw [leafCount_eq] at hln ⊢
  have hn : n < nodes.length := hb.ncount_toNat ▸ hn
  obtain ⟨e, he, hx, hy, hleastx, hleasty⟩ := hb.merges_leastTwo hln hn
  obtain ⟨-, -, hab, u, v, hu, hv, hw⟩ := hb.shape.children n e he hln
  have hin (j : Nat) := hb.inCollection_iff (l := (positiveSymbols s.freq).length) (j := j) hn.le
  simp only [State.afterBuild_node, hb.nodeAt_of_some he, hin]
  refine ⟨hb.shape.valid e (List.mem_of_getElem? he), (hb.shape.internal_iff he).2 hln, e.a.toNat, e.b.toNat, rfl, rfl,
    fun hxy => hab (BitVec.eq_of_toNat_eq hxy), hx, hy, fun j hj hne => hb.keyBefore_of_keyOrder (hleastx j hj hne),
    fun j hj hne hne' => hb.keyBefore_of_keyOrder (hleasty j hj hne hne'), ?_⟩
  rw [hb.nodeAt_of_some hu, hb.nodeAt_of_some hv, hw]

/-- Settles O35: a symbol's code is that of its leaf's path, which is shorter than the number of leaves. -/
theorem buildCodesArePaths : Obligations.BuildCodesArePaths := by
  unfold Obligations.BuildCodesArePaths
  intro s t h hok h2 x hx
  obtain ⟨r, nodes, k, -, hb, rfl⟩ := exec_build_ok h hok
  simp only [State.afterBuild_node, State.afterBuild_root, State.afterBuild_code, leafCount_eq] at h2 ⊢
  obtain ⟨bs, j, hw, hj, hlt, hne⟩ := hb.exists_path hx
  have hpos := List.length_pos_of_ne_nil (hne h2)
  have hle := hb.le
  have hcode : r.code[x] = codeOfPath bs := hb.code_eq h2 hw hj
  have hlen : (codeOfPath bs).len.toNat = bs.length := Nat.mod_eq_of_lt (by omega)
  refine ⟨?_, ?_, by omega, ?_, leafNode s.freq x, ?_, rfl, rfl, Nat.mod_eq_of_lt (by omega)⟩
  · rw [hcode]; omega
  · rw [hcode]; omega
  · rw [hcode, hlen]
    exact lt_of_le_of_lt (Nat.mod_le _ _) (pathValue_lt bs)
  · show followPath _ _ (codeword r.code[x]) = _
    rw [hb.node_eq, hb.root_toNat, hb.codeword_eq h2 hw hj]
    exact followPath_arenaOf hb.length_le hw hj

/-- Settles O36: the `Built` tree of one leaf. -/
theorem buildSingleSymbol : Obligations.BuildSingleSymbol := by
  unfold Obligations.BuildSingleSymbol
  intro s x hx hsole
  obtain ⟨r, nodes, k, hr, hb⟩ := exists_built hx
  have hpos := positiveSymbols_eq_singleton hx hsole
  have hone : (positiveSymbols s.freq).length = 1 := by rw [hpos]; rfl
  have hlen : nodes.length = 1 := by have := hb.length; omega
  have hroot : r.root = 0 := BitVec.eq_of_toNat_eq (by have := hb.root; rw [hb.root_toNat]; show k.idx = 0; omega)
  have hnleaf : r.nleaf = 1 := BitVec.eq_of_toNat_eq (by rw [hb.nleaf_toNat]; exact hone)
  have hncount : r.ncount = 1 := BitVec.eq_of_toNat_eq (by rw [hb.ncount_toNat]; exact hlen)
  refine ⟨s.afterBuild r, exec_build_of_some hr, rfl, hroot, hnleaf, hncount, ?leaf, ?empty, hb.code_eq_sole hpos, ?info⟩
  case leaf =>
    rw [← leafNode_eq]
    exact hb.nodeAt_of_some (hb.getElem?_leaf (by rw [hpos]; rfl))
  case empty =>
    intro i hi
    rw [State.afterBuild_node, hb.nodeAt_eq, List.getElem?_eq_none (by omega), Option.getD_none]
    rfl
  case info =>
    rw [State.afterBuild_res0, hroot, hnleaf, hncount]
    decide

/-- Settles O37: the shape of the finished tree, whose collection is the root alone, so any other entry has a parent. -/
theorem buildTreeIsStrict : Obligations.BuildTreeIsStrict := by
  unfold Obligations.BuildTreeIsStrict
  intro s t h hok
  obtain ⟨r, nodes, k, -, hb, rfl⟩ := exec_build_ok h hok
  have hlen := hb.length
  have hroot := hb.root
  simp only [State.afterBuild_node, State.afterBuild_root, State.afterBuild_ncount, State.afterBuild_nleaf, hb.root_toNat,
    hb.ncount_toNat, hb.nleaf_toNat]
  refine ⟨by omega, fun i hi => ?_, fun i hi hne => ?_⟩
  · have hn := hb.getElem?_nodes hi
    refine ⟨hb.shape.valid _ (List.mem_of_getElem? hn), hb.shape.leaf i _ hn, fun hk => ?_⟩
    obtain ⟨ha, hb', hab, -⟩ := hb.shape.children i _ hn ((hb.shape.internal_iff hn).1 hk)
    exact ⟨ha, hb', hab⟩
  · have hopen : ¬ inKeys [k] i := by simpa [inKeys] using Ne.symm hne
    rw [hb.shape.open_iff i hi] at hopen
    push Not at hopen
    obtain ⟨p, hp, hchild⟩ := hopen
    have hpl := isChild_lt hchild
    refine ⟨p, ⟨hpl, (hb.shape.internal_iff (hb.getElem?_nodes hpl)).2 hp, (hb.isChild_iff hpl).1 hchild⟩, ?_⟩
    rintro q ⟨hq, hqk, hqc⟩
    have hql := (hb.shape.internal_iff (hb.getElem?_nodes hq)).1 hqk
    exact hb.shape.parent i q p hql hp ((hb.isChild_iff hq).2 hqc) hchild

/-- R127 (a): of two different positive symbols, neither's codeword begins the other's: the path to a leaf is no part of
another path. -/
theorem Built.codewords_prefixFree {freq : Vector Word 128} {r : BuildResult} {nodes : List Node} {k : Key}
    (hb : Built freq r nodes k) : prefixFree freq fun x => codeword r.code[x] := by
  rintro x y hx hy hne ⟨rest, hrest⟩
  by_cases h2 : 2 ≤ (positiveSymbols freq).length
  · obtain ⟨bs, j, hw, hj, -, -⟩ := hb.exists_path hx
    obtain ⟨bs', j', hw', hj', -, -⟩ := hb.exists_path hy
    have hrest : bs ++ rest = bs' := by rwa [← hb.codeword_eq h2 hw hj, ← hb.codeword_eq h2 hw' hj']
    rw [← hrest] at hw'
    obtain ⟨-, rfl⟩ := hb.shape.walkIx_leaf_prefix ((hb.shape.leaf j _ hj).1 rfl) hw hw'
    rw [hj, Option.some.injEq] at hj'
    exact hne (by rw [← leafIx_leafNode freq x, hj', leafIx_leafNode])
  · have hs := hb.positiveSymbols_sole hx (by omega)
    rw [← mem_positiveSymbols, hs, List.mem_singleton] at hy
    exact hne hy.symm

/-- Settles O38: the code table of a successful BUILD is that of a `Built` tree (`Built.codewords_prefixFree`). -/
theorem buildCodesArePrefixFree : Obligations.BuildCodesArePrefixFree := by
  unfold Obligations.BuildCodesArePrefixFree
  intro s t h hok
  obtain ⟨r, nodes, k, -, hb, rfl⟩ := exec_build_ok h hok
  exact hb.codewords_prefixFree

end Sys2Proof.Machine
end

section
/-! PROOFS. BUILD's code costs least (spec/41_builder.md R127 (b)): it costs the sum of the merged weights, and a
`prefixFree` code is uniquely decodable, so its lengths are within Kraft's inequality and `mergedTree_lower_bound`
applies. -/

namespace Sys2Proof.Machine

open InformationTheory (UniquelyDecodable)

/-! ## The cost over the positive symbols -/

/-- The positive symbols' counts with the lengths of their codewords. -/
def symbolLengths (freq : Vector Word 128) (code : SymIx → List Bool) : List (Nat × Nat) :=
  (positiveSymbols freq).map fun x => (freq[x].toNat, (code x).length)

/-- A symbol with count 0 costs nothing. -/
theorem codingCost_eq (freq : Vector Word 128) (code : SymIx → List Bool) :
    codingCost freq code = lengthCost (symbolLengths freq code) := by
  rw [lengthCost, symbolLengths, List.map_map, codingCost, positiveSymbols]
  induction List.finRange 128 with
  | nil => rfl
  | cons x xs ih =>
    by_cases hx : 0 < freq[x].toNat
    · rw [List.filter_cons_of_pos (by simpa using hx), List.map_cons, List.map_cons, List.sum_cons, List.sum_cons, ih]
      rfl
    · rw [List.filter_cons_of_neg (by simpa using hx), List.map_cons, List.sum_cons, ih, Nat.eq_zero_of_not_pos hx,
        Nat.zero_mul, Nat.zero_add]

theorem symbolLengths_fst (freq : Vector Word 128) (code : SymIx → List Bool) :
    (symbolLengths freq code).map Prod.fst = (leavesOf freq).map fun n => n.weight.toNat := by
  rw [symbolLengths, leavesOf, List.map_map, List.map_map]
  exact List.map_congr_left fun x _ => (leafNode_weight freq x).symm

/-! ## Kraft's inequality -/

/-- Non-empty words of which none begins another can be told apart in any concatenation: two concatenations that agree
begin with the same word. -/
theorem uniquelyDecodable_of_prefixFree {S : Set (List Bool)} (hne : [] ∉ S)
    (hpf : ∀ u ∈ S, ∀ v ∈ S, u <+: v → u = v) : UniquelyDecodable S := by
  intro us vs hus hvs h
  induction us generalizing vs with
  | nil =>
    cases vs with
    | nil => rfl
    | cons v vs =>
      have hv : v = [] := (List.append_eq_nil_iff.1 h.symm).1
      exact absurd (hv ▸ hvs v List.mem_cons_self) hne
  | cons u us ih =>
    have hu := hus u List.mem_cons_self
    cases vs with
    | nil =>
      have hu' : u = [] := (List.append_eq_nil_iff.1 h).1
      exact absurd (hu' ▸ hu) hne
    | cons v vs =>
      have hv := hvs v List.mem_cons_self
      have hpre : u <+: v ++ vs.flatten := ⟨us.flatten, h⟩
      have huv : u = v := (List.prefix_or_prefix_of_prefix hpre (List.prefix_append v _)).elim (hpf u hu v hv)
        fun hvu => (hpf v hv u hu hvu).symm
      subst huv
      rw [ih vs (fun w hw => hus w (List.mem_cons_of_mem _ hw)) (fun w hw => hvs w (List.mem_cons_of_mem _ hw))
        (List.append_cancel_left h)]

/-- Kraft's inequality for the words of a finite uniquely decodable code, at a scale `m` no length exceeds. -/
theorem kraft_sum_le {S : Finset (List Bool)} (h : UniquelyDecodable (S : Set (List Bool))) {m : Nat}
    (hm : ∀ w ∈ S, w.length ≤ m) : ∑ w ∈ S, 2 ^ (m - w.length) ≤ 2 ^ m := by
  have hk := InformationTheory.kraft_mcmillan_inequality h
  have hscale : ∑ w ∈ S, (2 : ℝ) ^ (m - w.length) = 2 ^ m * ∑ w ∈ S, (1 / Fintype.card Bool : ℝ) ^ w.length := by
    rw [Finset.mul_sum]
    refine Finset.sum_congr rfl fun w hw => ?_
    rw [Fintype.card_bool, pow_sub₀ _ two_ne_zero (hm w hw)]
    simp
  have hreal : ∑ w ∈ S, (2 : ℝ) ^ (m - w.length) ≤ 2 ^ m := by
    rw [hscale]
    exact mul_le_of_le_one_right (by positivity) hk
  exact_mod_cast hreal

/-- The codewords of the positive symbols. -/
def positiveCodewords (freq : Vector Word 128) (code : SymIx → List Bool) : Finset (List Bool) :=
  (positiveSymbols freq).toFinset.image code

theorem mem_positiveCodewords {freq : Vector Word 128} {code : SymIx → List Bool} {w : List Bool} :
    w ∈ positiveCodewords freq code ↔ ∃ x, positive freq x ∧ code x = w := by
  simp [positiveCodewords, mem_positiveSymbols]

/-- Two positive symbols do not share a codeword of a `prefixFree` code. -/
theorem prefixFree.eq_of_prefix {freq : Vector Word 128} {code : SymIx → List Bool} (hpf : prefixFree freq code)
    {x y : SymIx} (hx : positive freq x) (hy : positive freq y) (h : code x <+: code y) : x = y := by
  by_contra hxy
  exact hpf x y hx hy hxy h

theorem prefixFree.uniquelyDecodable {freq : Vector Word 128} {code : SymIx → List Bool} (hpf : prefixFree freq code)
    (hne : ∀ x, positive freq x → code x ≠ []) : UniquelyDecodable (positiveCodewords freq code : Set (List Bool)) := by
  refine uniquelyDecodable_of_prefixFree (fun h => ?_) fun u hu v hv huv => ?_
  · obtain ⟨x, hx, hxe⟩ := mem_positiveCodewords.1 h
    exact hne x hx hxe
  · obtain ⟨x, hx, rfl⟩ := mem_positiveCodewords.1 hu
    obtain ⟨y, hy, rfl⟩ := mem_positiveCodewords.1 hv
    rw [hpf.eq_of_prefix hx hy huv]

/-- R127: the lengths of a `prefixFree` code with non-empty codewords are within Kraft's inequality. -/
theorem exists_kraftAt {freq : Vector Word 128} {code : SymIx → List Bool} (hne : ∀ x, positive freq x → code x ≠ [])
    (hpf : prefixFree freq code) : ∃ m, kraftAt m (symbolLengths freq code) := by
  obtain ⟨m, hm⟩ : ∃ m, ∀ w ∈ positiveCodewords freq code, w.length ≤ m :=
    ⟨_, fun _ hw => Finset.le_sup (f := List.length) hw⟩
  refine ⟨m, fun e he => ?_, ?_⟩
  · obtain ⟨x, hx, rfl⟩ := List.mem_map.1 he
    exact hm _ (mem_positiveCodewords.2 ⟨x, mem_positiveSymbols.1 hx, rfl⟩)
  · have hinj : Set.InjOn code (positiveSymbols freq).toFinset := by
      intro x hx y hy hxy
      rw [Finset.mem_coe, List.mem_toFinset, mem_positiveSymbols] at hx hy
      exact hpf.eq_of_prefix hx hy (hxy ▸ List.prefix_rfl)
    calc ((symbolLengths freq code).map fun e => 2 ^ (m - e.2)).sum
      _ = ∑ x ∈ (positiveSymbols freq).toFinset, 2 ^ (m - (code x).length) := by
          rw [List.sum_toFinset _ (positiveSymbols_nodup freq), symbolLengths, List.map_map]
          rfl
      _ = ∑ w ∈ positiveCodewords freq code, 2 ^ (m - w.length) :=
          (Finset.sum_image (f := fun w => 2 ^ (m - w.length)) hinj).symm
      _ ≤ 2 ^ m := kraft_sum_le (hpf.uniquelyDecodable hne) hm

/-! ## The cost of BUILD's code -/

/-- The depth of an entry: the length of the one path that reaches it. -/
theorem MergeShape.exists_depth {l : Nat} {nodes : List Node} {p : List Key} (hs : MergeShape l nodes p) (i : Nat) :
    ∃ depth : Nat → Nat, ∀ j bs, walkIx nodes i bs = some j → depth j = bs.length := by
  have hlen (j : Nat) : ∃ d, ∀ bs, walkIx nodes i bs = some j → d = bs.length := by
    by_cases h : ∃ bs, walkIx nodes i bs = some j
    · obtain ⟨bs, hbs⟩ := h
      exact ⟨bs.length, fun cs hcs => by rw [hs.walkIx_unique hbs hcs]⟩
    · exact ⟨0, fun bs hbs => absurd ⟨bs, hbs⟩ h⟩
  choose depth hd using hlen
  exact ⟨depth, hd⟩

namespace Built

variable {freq : Vector Word 128} {r : BuildResult} {nodes : List Node} {k : Key}

/-- A child lies one deeper than its parent. -/
theorem depth_children (hb : Built freq r nodes k) {depth : Nat → Nat}
    (hd : ∀ j bs, walkIx nodes k.idx bs = some j → depth j = bs.length) {i : Nat} {n : Node} (hn : nodes[i]? = some n)
    (hl : (positiveSymbols freq).length ≤ i) : depth n.a.toNat = depth i + 1 ∧ depth n.b.toNat = depth i + 1 := by
  obtain ⟨bs, hbs⟩ := hb.shape.reached (List.getElem?_eq_some_iff.1 hn).1
  have hchild (b : Bool) : depth (if b then n.b.toNat else n.a.toNat) = depth i + 1 := by
    rw [hd i bs hbs, hd _ (bs ++ [b]) (by
      rw [walkIx_append, hbs, Option.bind_some, walkIx_single hn ((hb.shape.internal_iff hn).2 hl)]), List.length_append,
      List.length_singleton]
  exact ⟨hchild false, hchild true⟩

/-- R118: with two symbols or more the code costs the sum of the merged weights. -/
theorem codingCost_eq_mergedWeight (hb : Built freq r nodes k) (h2 : 2 ≤ (positiveSymbols freq).length) :
    codingCost freq (fun x => codeword r.code[x]) = mergedWeight (positiveSymbols freq).length nodes := by
  obtain ⟨depth, hd⟩ := hb.shape.exists_depth k.idx
  have hcost := mergedTree_cost freq depth
  rw [hb.tree, leavesOf_length] at hcost
  have hroot : depth k.idx = 0 := hd k.idx [] rfl
  have hleaf : (symbolLengths freq fun x => codeword r.code[x]).map (fun e => e.1 * e.2) =
      (leavesOf freq).zipIdx.map fun e => e.1.weight.toNat * depth e.2 := by
    refine List.ext_getElem (by simp [symbolLengths, leavesOf]) fun i h1 h2' => ?_
    have hi : i < (positiveSymbols freq).length := by simpa [symbolLengths] using h1
    have hx := mem_positiveSymbols.1 (List.getElem_mem hi)
    have hj := hb.getElem?_leaf (List.getElem?_eq_getElem hi)
    obtain ⟨bs, hbs⟩ := hb.shape.reached (List.getElem?_eq_some_iff.1 hj).1
    have hcw := hb.codeword_eq h2 hbs hj
    simp only [symbolLengths, leavesOf, List.getElem_map, List.getElem_zipIdx, Nat.zero_add, leafNode_weight, hd i bs hbs,
      hcw]
  rw [codingCost_eq, lengthCost, hleaf, hcost fun i n hn hl => hb.depth_children hd hn hl]
  simp [hroot]

/-- R119, R127 (b): a sole symbol's codeword is one bit long. -/
theorem codingCost_le_of_sole (hb : Built freq r nodes k) {x : SymIx} (hx : positiveSymbols freq = [x])
    {other : SymIx → List Bool} (hne : other x ≠ []) :
    codingCost freq (fun x => codeword r.code[x]) ≤ codingCost freq other := by
  simp only [codingCost_eq, symbolLengths, hx, List.map_singleton, lengthCost, List.sum_singleton, hb.code_eq_sole hx]
  exact Nat.mul_le_mul_left _ (List.length_pos_of_ne_nil hne)

/-- R127 (b): no `prefixFree` code with non-empty codewords costs less. -/
theorem codingCost_le (hb : Built freq r nodes k) {other : SymIx → List Bool}
    (hne : ∀ x, positive freq x → other x ≠ []) (hpf : prefixFree freq other) :
    codingCost freq (fun x => codeword r.code[x]) ≤ codingCost freq other := by
  by_cases h2 : 2 ≤ (positiveSymbols freq).length
  · obtain ⟨m, hk⟩ := exists_kraftAt hne hpf
    have hbound := mergedTree_lower_bound freq (.of_eq (symbolLengths_fst freq other)) hk
    rw [leavesOf_length, hb.tree] at hbound
    rw [hb.codingCost_eq_mergedWeight h2, codingCost_eq]
    exact hbound
  · have hpos := hb.pos
    obtain ⟨x, hx⟩ := List.length_eq_one_iff.1 (by omega : (positiveSymbols freq).length = 1)
    exact hb.codingCost_le_of_sole hx (hne x (mem_positiveSymbols.1 (by simp [hx])))

end Built

/-- Settles O39: the code table of a successful BUILD is that of a `Built` tree (`Built.codingCost_le`). -/
theorem buildCodesAreOptimal : Obligations.BuildCodesAreOptimal := by
  unfold Obligations.BuildCodesAreOptimal
  intro s t h hok other hne hpf
  obtain ⟨r, nodes, k, -, hb, rfl⟩ := exec_build_ok h hok
  exact hb.codingCost_le hne hpf

end Sys2Proof.Machine
end

section
/-! PROOFS. The encoder commands (spec/42_encoder.md R151 to R154), the stream an encoder's run leaves (R157), and DEC_RESET
(spec/43_decoder.md R173), which starts a stream as ENC_RESET does. -/

namespace Sys2Proof.Machine

/-! ## ENC_SYM -/

/-- R151: a known symbol with room in OUTQ. -/
theorem exec_encSym_of_room {a : Nat} (h : a < 128) {s : State} (hl : s.code[a].len ≠ 0)
    (hroom : s.outq.length + wordsCompleted s s.code[a].len.toNat ≤ s.cfg.depthOut) :
    exec (.encSym a) s = done ((appendCode s.code[a] s).withResults (s.code[a].len.setWidth 32)
      (BitVec.ofNat 32 (wordsCompleted s s.code[a].len.toNat))) := by
  rw [exec, execEncSym, symbolOperand_of_lt h]
  exact (if_neg hl).trans (if_neg (Nat.not_lt.2 hroom))

/-- R151, R202: a symbol that is none, or has no codeword, whatever the room. -/
theorem exec_encSym_of_unknown {a : Nat} {s : State} (hl : ∀ h : a < 128, s.code[a].len = 0) :
    exec (.encSym a) s = failed .unknownSymbol 0 s := by
  rw [exec, execEncSym]
  by_cases h : a < 128
  · rw [symbolOperand_of_lt h]
    exact if_pos (hl h)
  · rw [symbolOperand_of_ge (Nat.le_of_not_lt h)]
    rfl

/-- R151: a known symbol without room in OUTQ. -/
theorem exec_encSym_of_full {a : Nat} (h : a < 128) {s : State} (hl : s.code[a].len ≠ 0)
    (hfull : s.cfg.depthOut < s.outq.length + wordsCompleted s s.code[a].len.toNat) :
    exec (.encSym a) s = failed .outFull 0 s := by
  rw [exec, execEncSym, symbolOperand_of_lt h]
  exact (if_neg hl).trans (if_pos hfull)

/-- R151: `ENC_TOTAL <- (ENC_TOTAL + LEN) mod 2^32`. -/
theorem toNat_appendCode_encTotal (c : Code) (s : State) :
    (appendCode c s).encTotal.toNat = (s.encTotal.toNat + c.len.toNat) % 2 ^ 32 := by
  simp [appendCode]

/-- RES1 holds the number of words any LEN can complete. -/
theorem toNat_ofNat_wordsCompleted (s : State) (len : Byte) :
    (BitVec.ofNat 32 (wordsCompleted s len.toNat)).toNat = (s.fill.toNat + len.toNat) / 32 := by
  have hfill := s.fill.isLt
  have hlen := len.isLt
  rw [BitVec.toNat_ofNat, wordsCompleted]
  exact Nat.mod_eq_of_lt (by omega)

/-- Settles O40: ENC_SYM with room answers `appendCode`, and `appendCode_spec` says what that does to the stream. -/
theorem encSymAppendsTheCodeword : Obligations.EncSymAppendsTheCodeword := by
  unfold Obligations.EncSymAppendsTheCodeword
  intro a h s hl hroom
  obtain ⟨hstream, hfill, -, pushed, houtq, hcount, hfull⟩ := appendCode_spec s.code[a] s
  exact ⟨_, pushed, exec_encSym_of_room h hl hroom, houtq, hcount, hfull, hstream, hfill,
    toNat_appendCode_encTotal _ _, BitVec.toNat_setWidth_of_le (by decide), toNat_ofNat_wordsCompleted _ _, rfl⟩

/-- Settles O41: the three ways ENC_SYM can end decide its errors. -/
theorem encSymErrors : Obligations.EncSymErrors := by
  unfold Obligations.EncSymErrors
  refine ⟨?noSymbol, ?noCodeword, ?noRoom, ?words, misfit_of_rows (by decide)⟩
  case noSymbol => exact fun a s ha => exec_encSym_of_unknown fun h => absurd h (Nat.not_lt.2 ha)
  case noCodeword => exact fun a _ s hl => exec_encSym_of_unknown fun _ => hl
  case noRoom => exact fun a h s hl hfull => exec_encSym_of_full h hl hfull
  case words => exact fun a ha => encode_of_fits_without_K (i := .encSym a) ha rfl

/-! ## ENC_FLUSH, the resets and OUT_POP -/

/-- R150, R152: the bits ENC_FLUSH pushes leave PACK for OUTQ, so the stream stays as it was, also where it fails. -/
theorem streamBits_encFlush {s t : State} (h : exec .encFlush s = .next t) : streamBits t = streamBits s := by
  rcases exec_inversion h with ⟨_, _, _, _, _, rfl, _⟩ | ⟨hi, _⟩ | ⟨u, rfl, _⟩
  · rfl
  · cases hi
  · obtain ⟨-, hstream, -⟩ := execEncoder_of_ok (.inr rfl) h rfl
    exact hstream.trans (List.append_nil _)

/-- Settles O42: one clause per branch of ENC_FLUSH, and `streamBits_encFlush`. -/
theorem encFlushPushesThePartialWord : Obligations.EncFlushPushesThePartialWord := by
  unfold Obligations.EncFlushPushesThePartialWord
  refine ⟨?nothing, ?pushes, ?full, fun s t h => streamBits_encFlush h, by decide, misfit_of_rows (by decide)⟩
  case nothing => exact fun s h0 => if_pos h0
  case pushes =>
    intro s h0 hroom
    rw [BitVec.ofNat_toNat, BitVec.ofNat_toNat]
    exact (if_neg h0).trans (if_neg hroom)
  case full => exact fun s h0 hfull => (if_neg h0).trans (if_pos hfull)

/-- Settles O43: each reset has one case. -/
theorem streamResets : Obligations.StreamResets :=
  ⟨fun _ => rfl, fun _ => rfl, by decide, misfit_of_rows (by decide), misfit_of_rows (by decide)⟩

/-- Settles O44: OUT_POP on a queue with an oldest entry and on an empty one. -/
theorem outPopRemovesTheOldestWord : Obligations.OutPopRemovesTheOldestWord := by
  unfold Obligations.OutPopRemovesTheOldestWord
  refine ⟨?pops, ?empty, by decide, misfit_of_rows (by decide)⟩
  case pops =>
    intro s e rest hq
    rw [exec, execOutPop, hq, BitVec.ofNat_toNat]
    rfl
  case empty =>
    intro s hq
    rw [exec, execOutPop, hq]
    rfl

/-! ## The stream of a run -/

/-- R157: as many bits as the lengths say. -/
theorem length_flatMap_codeword (code : Vector Code 128) (xs : List SymIx) :
    (xs.flatMap fun x => codeword code[x]).length = (xs.map fun x => code[x].len.toNat).sum := by
  simp only [List.length_flatMap, length_codeword]

/-- Settles O45: `encodeRun_spec` for a run that sends all its commands, each the ENC_SYM of a symbol. -/
theorem encodedStreamIsTheCodewords : Obligations.EncodedStreamIsTheCodewords := by
  unfold Obligations.EncodedStreamIsTheCodewords
  intro xs s t ws hrun
  have hsyms : (xs.map fun x => Instr.encSym x.val) = (xs.map Fin.val).map .encSym := List.map_map.symm
  rw [hsyms] at hrun
  obtain ⟨sent, hsent, -, hstream, htotal, -, hframe⟩ := encodeRun_spec hrun (encoderOnly_map _)
  rw [List.append_nil] at hsent
  rw [← hsent, List.flatMap_map, flatMap_codewordOf] at hstream htotal
  rw [length_flatMap_codeword] at htotal
  refine ⟨hstream, ?_, htotal, by rw [hframe]⟩
  rw [hstream, List.length_append, length_flatMap_codeword]

end Sys2Proof.Machine
end

section
/-! PROOFS. The decoder commands (spec/43_decoder.md R170 to R174): one bit of the state machine, the bits of one DEC_WORD
and of two in a row, DEC_END and SYM_POP. -/

namespace Sys2Proof.Machine

/-! ## One bit (R170) -/

/-- R41: NULL names no entry. -/
theorem validNode_null (node : Vector Node 255) : validNode node 0xFF#8 = none := by
  have h : node[(0xFF#8).toNat]? = none := Vector.getElem?_eq_none (by decide)
  rw [validNode, h]

theorem validNode_of_empty {node : Vector Node 255} {i : Byte} (h : i.toNat < 255) (hv : node[i.toNat].valid = false) :
    validNode node i = none := by
  simp [validNode, h, hv]

theorem validNode_of_valid {node : Vector Node 255} {i : Byte} (h : i.toNat < 255) (hv : node[i.toNat].valid = true) :
    validNode node i = some node[i.toNat] := by
  simp [validNode, h, hv]

/-- R41: A[6:0]. -/
theorem leafSymbol_eq_extract (n : Node) : leafSymbol n = n.a.extractLsb' 0 7 := by
  ext i
  simp [leafSymbol]

section DecStep

variable {node : Vector Node 255} {root cur : Byte} {bit : Bool} {n m : Node}

theorem decStep_of_missing (h : validNode node cur = none) : decStep node root cur bit = .malformed := by
  rw [decStep, h]

theorem decStep_of_leaf (h : validNode node cur = some n) (hk : n.kind = .leaf) :
    decStep node root cur bit = if cur = root ∧ bit = false then .emit (leafSymbol n) root else .malformed := by
  simp only [decStep, h, hk]

theorem decStep_of_missing_child (h : validNode node cur = some n) (hk : n.kind = .internal)
    (hc : validNode node (if bit then n.b else n.a) = none) : decStep node root cur bit = .malformed := by
  simp only [decStep, h, hk, hc]

theorem decStep_of_leaf_child (h : validNode node cur = some n) (hk : n.kind = .internal)
    (hc : validNode node (if bit then n.b else n.a) = some m) (hm : m.kind = .leaf) :
    decStep node root cur bit = .emit (leafSymbol m) root := by
  simp only [decStep, h, hk, hc, hm]

theorem decStep_of_internal_child (h : validNode node cur = some n) (hk : n.kind = .internal)
    (hc : validNode node (if bit then n.b else n.a) = some m) (hm : m.kind = .internal) :
    decStep node root cur bit = .move (if bit then n.b else n.a) := by
  simp only [decStep, h, hk, hc, hm]

end DecStep

/-- Settles O47: the entry the cursor names, and at an internal one the entry of the child, decide the step. -/
theorem decStepCases : Obligations.DecStepCases := by
  unfold Obligations.DecStepCases
  intro node root cur bit
  refine ⟨?null, fun h => ⟨?empty, ?rootLeaf, ?otherLeaf, ?internal⟩⟩
  case null =>
    rintro rfl
    exact decStep_of_missing (validNode_null node)
  case empty => exact fun hv => decStep_of_missing (validNode_of_empty h hv)
  case rootLeaf =>
    intro hv hk hroot hbit
    rw [decStep_of_leaf (validNode_of_valid h hv) hk, if_pos ⟨hroot, hbit⟩, leafSymbol_eq_extract]
  case otherLeaf =>
    intro hv hk hother
    have hnot : ¬ (cur = root ∧ bit = false) := by rwa [not_and_or, Bool.not_eq_false]
    rw [decStep_of_leaf (validNode_of_valid h hv) hk, if_neg hnot]
  case internal =>
    rintro hv hk c rfl
    have hcur := validNode_of_valid h hv
    refine ⟨fun hnull => ?_, fun hc => ⟨fun hcv => ?_, fun hcv hck => ?_, fun hcv hck => ?_⟩⟩
    · exact decStep_of_missing_child hcur hk (by rw [hnull, validNode_null])
    · exact decStep_of_missing_child hcur hk (validNode_of_empty hc hcv)
    · rw [decStep_of_leaf_child hcur hk (validNode_of_valid hc hcv) hck, leafSymbol_eq_extract]
    · exact decStep_of_internal_child hcur hk (validNode_of_valid hc hcv) hck

/-! ## DEC_WORD (R171) -/

/-- R83, R171: a bit count out of range. -/
theorem exec_decWord_of_badCount {a : Nat} (h : a < 1 ∨ 32 < a) (s : State) :
    exec (.decWord a) s = failed .badOperand 0 s := by
  have hc : bitCountOperand a = none := if_neg (by omega)
  rw [exec, execDecWord, hc]
  rfl

section Count

variable {a : Nat} {s : State}

theorem bitCountOperand_of_count (h1 : 1 ≤ a) (h32 : a ≤ 32) : bitCountOperand a = some a := if_pos ⟨h1, h32⟩

/-- R171: a walk over all the bits whose symbols fit. -/
theorem exec_decWord_of_walk {cur : Byte} {out : List Symbol} (h1 : 1 ≤ a) (h32 : a ≤ 32)
    (hw : walkBits s.node s.root s.decCur (argBits s.arg a) = some (cur, out))
    (hq : s.symq.length + out.length ≤ s.cfg.depthSym) :
    exec (.decWord a) s = .next { s with decCur := cur, symq := s.symq ++ out, res0 := BitVec.ofNat 32 out.length,
                                         res1 := BitVec.ofNat 32 cur.toNat, err := .ok, errInfo := 0 } := by
  simp only [exec, execDecWord, bitCountOperand_of_count h1 h32, decBits_ok_of_walk _ 0 0 _ _ _ _ hw hq, Nat.zero_add,
    BitVec.ofNat_toNat]
  rfl

/-- R171: past a walk over its first `i` bits the word is at bit `i`. -/
theorem decBits_argBits_of_walk {i : Nat} {cur : Byte} {out : List Symbol} (hi : i < a)
    (hw : walkBits s.node s.root s.decCur (argBits s.arg i) = some (cur, out))
    (hq : s.symq.length + out.length ≤ s.cfg.depthSym) :
    decBits s.node s.root s.cfg.depthSym (argBits s.arg a) 0 s.decCur s.symq 0 =
      decBits s.node s.root s.cfg.depthSym (s.arg.getLsbD (31 - i) :: (argBits s.arg a).drop (i + 1)) i cur
        (s.symq ++ out) out.length := by
  conv_lhs => rw [argBits_split s.arg hi]
  rw [decBits_append_of_walk _ _ 0 0 _ _ _ _ hw hq, length_argBits, Nat.zero_add, Nat.zero_add]

/-- R171: a bit that cannot descend the tree. -/
theorem exec_decWord_of_malformed {i : Nat} {cur : Byte} {out : List Symbol} (h1 : 1 ≤ a) (h32 : a ≤ 32) (hi : i < a)
    (hw : walkBits s.node s.root s.decCur (argBits s.arg i) = some (cur, out))
    (hq : s.symq.length + out.length ≤ s.cfg.depthSym)
    (hd : decStep s.node s.root cur (s.arg.getLsbD (31 - i)) = .malformed) :
    exec (.decWord a) s = failed .malformedTree (BitVec.ofNat 5 i) s := by
  simp only [exec, execDecWord, bitCountOperand_of_count h1 h32, decBits_argBits_of_walk hi hw hq, decBits, hd]
  rfl

/-- R171: a bit that emits a symbol into a full SYMQ. -/
theorem exec_decWord_of_full {i : Nat} {cur c : Byte} {out : List Symbol} {x : Symbol} (h1 : 1 ≤ a) (h32 : a ≤ 32)
    (hi : i < a) (hw : walkBits s.node s.root s.decCur (argBits s.arg i) = some (cur, out))
    (hq : s.symq.length + out.length = s.cfg.depthSym)
    (hd : decStep s.node s.root cur (s.arg.getLsbD (31 - i)) = .emit x c) :
    exec (.decWord a) s = failed .symFull (BitVec.ofNat 5 i) s := by
  have hfull : (s.symq ++ out).length = s.cfg.depthSym := by rw [List.length_append, hq]
  simp only [exec, execDecWord, bitCountOperand_of_count h1 h32, decBits_argBits_of_walk hi hw hq.le, decBits, hd,
    if_pos hfull]
  rfl

/-- R171: a DEC_WORD that ends with OK has walked its bits and queued their symbols. -/
theorem exec_decWord_of_ok {t : State} (h : exec (.decWord a) s = .next t) (hok : t.err = .ok) :
    ∃ out, walkBits s.node s.root s.decCur (argBits s.arg a) = some (t.decCur, out) ∧
      t = { s with decCur := t.decCur, symq := s.symq ++ out, res0 := t.res0, res1 := t.res1, err := .ok, errInfo := 0 } := by
  rcases exec_inversion h with ⟨_, _, _, hne, _, rfl, _⟩ | ⟨hi, _⟩ | ⟨_, rfl, cur, q, m, hbits, rfl⟩
  · exact absurd hok hne
  · cases hi
  · obtain ⟨out, hw, rfl⟩ := walkBits_of_decBits _ _ _ _ _ _ _ _ hbits
    exact ⟨out, hw, rfl⟩

end Count

/-- Settles O48: one lemma per way DEC_WORD can end; `argBits` is the statement's list of bits. -/
theorem decWordWalksTheBits : Obligations.DecWordWalksTheBits := by
  unfold Obligations.DecWordWalksTheBits
  refine ⟨?badCount, ?walks, ?malformed, ?full, ?words, misfit_of_rows (by decide)⟩
  case badCount => exact fun a s h => exec_decWord_of_badCount h s
  case walks => exact fun a s cur out h1 h32 hw hq => exec_decWord_of_walk h1 h32 hw hq
  case malformed => exact fun a i s cur out h1 h32 hi hw hq hd => exec_decWord_of_malformed h1 h32 hi hw hq hd
  case full => exact fun a i s cur c out x h1 h32 hi hw hq hd => exec_decWord_of_full h1 h32 hi hw hq hd
  case words => exact fun a ha => encode_of_fits_without_K (i := .decWord a) ha rfl

/-- A walk over two strings goes through where the two walks do, and its symbols are theirs. -/
theorem walkBits_append_eq_some_iff {node : Vector Node 255} {root cur c : Byte} {xs ys : List Bool} {out : List Symbol} :
    walkBits node root cur (xs ++ ys) = some (c, out) ↔
      ∃ m out₁ out₂, walkBits node root cur xs = some (m, out₁) ∧ walkBits node root m ys = some (c, out₂) ∧
        out = out₁ ++ out₂ := by
  rw [walkBits_append]
  constructor
  · intro h
    obtain ⟨⟨m, out₁⟩, h₁, h⟩ := Option.bind_eq_some_iff.1 h
    obtain ⟨⟨c', out₂⟩, h₂, hend⟩ := Option.map_eq_some_iff.1 h
    obtain ⟨rfl, rfl⟩ := Prod.mk.inj hend
    exact ⟨m, out₁, out₂, h₁, h₂, rfl⟩
  · rintro ⟨m, out₁, out₂, h₁, h₂, rfl⟩
    rw [h₁, Option.bind_some, h₂, Option.map_some]

/-- Settles O49: the walk over two words is the walk over the first and then over the second (`walkBits_append_eq_some_iff`). -/
theorem walkContinuesAcrossWords : Obligations.WalkContinuesAcrossWords := by
  unfold Obligations.WalkContinuesAcrossWords
  refine ⟨?walked, ?goesThrough⟩
  case walked =>
    intro a b v s t u ht htok hu huok
    obtain ⟨out, hw, hts⟩ := exec_decWord_of_ok ht htok
    obtain ⟨out', hw', hus⟩ := exec_decWord_of_ok hu huok
    have hsecond : walkBits s.node s.root t.decCur (argBits v b) = some (u.decCur, out') := by
      rw [hts] at hw'
      exact hw'
    refine ⟨out ++ out', walkBits_append_eq_some_iff.2 ⟨_, _, _, hw, hsecond, rfl⟩, ?_⟩
    rw [hus, hts, List.append_assoc]
  case goesThrough =>
    intro a b v s cur syms ha1 ha32 hb1 hb32 hw hq
    obtain ⟨c, out, out', hfirst, hsecond, rfl⟩ := walkBits_append_eq_some_iff.1 hw
    rw [List.length_append, ← Nat.add_assoc] at hq
    refine ⟨_, BitVec.ofNat 32 out'.length, exec_decWord_of_walk ha1 ha32 hfirst (Nat.le_of_add_right_le hq), rfl, ?_⟩
    rw [exec_decWord_of_walk hb1 hb32 hsecond (by rwa [List.length_append]), List.append_assoc]

/-! ## DEC_END and SYM_POP -/

theorem exec_decEnd_of_root {s : State} (h : s.decCur = s.root) :
    exec .decEnd s = .next { s with err := .ok, errInfo := 0 } := if_pos h

theorem exec_decEnd_of_inside {s : State} (h : s.decCur ≠ s.root) :
    exec .decEnd s = .next { s with decCur := s.root, err := .truncatedStream, errInfo := 0 } := if_neg h

/-- Settles O50: DEC_END at the root and elsewhere. -/
theorem decEndReportsTruncation : Obligations.DecEndReportsTruncation :=
  ⟨fun _ => exec_decEnd_of_root, fun _ => exec_decEnd_of_inside, by decide, misfit_of_rows (by decide)⟩

/-- Settles O51: SYM_POP on a queue with an oldest symbol and on an empty one. -/
theorem symPopRemovesTheOldestSymbol : Obligations.SymPopRemovesTheOldestSymbol := by
  unfold Obligations.SymPopRemovesTheOldestSymbol
  refine ⟨?pops, ?empty, by decide, misfit_of_rows (by decide)⟩
  case pops =>
    intro s x rest hq
    rw [exec, execSymPop, hq, BitVec.ofNat_toNat]
    rfl
  case empty =>
    intro s hq
    rw [exec, execSymPop, hq]
    rfl

end Sys2Proof.Machine
end

section
/-! PROOFS. What keeps the codec of a BUILD (spec/43_decoder.md R177): every command but those R177 excludes, every step that
runs none of these and is no reset, and both procedures. -/

namespace Sys2Proof.Machine

/-! ## Commands -/

/-- The tree and the code table are the same. -/
def State.SameCodec (s t : State) : Prop := t.node = s.node ∧ t.root = s.root ∧ t.code = s.code

theorem CodecOf.of_sameCodec {freq : Vector Word 128} {s t : State} (h : CodecOf freq s) (hst : s.SameCodec t) :
    CodecOf freq t :=
  h.of_tables hst.1 hst.2.1 hst.2.2

/-- R177: a command that does not replace the codec leaves NODE, ROOT and CODE. -/
theorem sameCodec_of_effect {i : Instr} {s u : State} (hi : replacesCodec i = false) (h : Effect i s u) :
    s.SameCodec u := by
  cases i
  case clr | build | nodeWr | rootWr | codeWr | codeLenWr => cases hi
  case nop | encReset | decReset => obtain rfl := h; exact ⟨rfl, rfl, rfl⟩
  case freqWr | freqRd | treeInfo => obtain ⟨_, rfl⟩ := h; exact ⟨rfl, rfl, rfl⟩
  case nodeRd | codeRd | encInfo | decInfo => obtain ⟨_, _, rfl⟩ := h; exact ⟨rfl, rfl, rfl⟩
  case encSym => obtain ⟨_, _, _, _, _, rfl⟩ := h; exact ⟨rfl, rfl, rfl⟩
  case encFlush => rcases h with ⟨_, rfl⟩ | ⟨_, _, rfl⟩ <;> exact ⟨rfl, rfl, rfl⟩
  case outPop | symPop => obtain ⟨_, _, _, _, _, rfl⟩ := h; exact ⟨rfl, rfl, rfl⟩
  case decWord => obtain ⟨_, _, _, _, rfl⟩ := h; exact ⟨rfl, rfl, rfl⟩
  case decEnd => obtain ⟨_, rfl⟩ := h; exact ⟨rfl, rfl, rfl⟩

theorem sameCodec_of_exec {i : Instr} {s t : State} (hi : replacesCodec i = false) (h : exec i s = .next t) :
    s.SameCodec t := by
  rcases exec_inversion h with ⟨_, _, _, _, _, rfl, _⟩ | ⟨_, _, rfl⟩ | ⟨u, rfl, hu⟩
  · exact ⟨rfl, rfl, rfl⟩
  · exact ⟨rfl, rfl, rfl⟩
  · obtain ⟨hnode, hroot, hcode⟩ := sameCodec_of_effect hi hu
    exact ⟨hnode, hroot, hcode⟩

theorem CodecOf.of_exec {freq : Vector Word 128} {i : Instr} {s t : State} (h : CodecOf freq s)
    (hi : replacesCodec i = false) (ht : exec i s = .next t) : CodecOf freq t :=
  h.of_sameCodec (sameCodec_of_exec hi ht)

/-! ## Steps -/

/-- R64: the offset and width of a CMD access. -/
theorem slotOfAccess_eq_cmd {off bytes : Nat} (h : slotOfAccess off bytes = some .cmd) : off = 0x0C ∧ bytes = 4 := by
  unfold slotOfAccess at h
  split at h
  · next hacc =>
    obtain ⟨rfl, hmod, hle⟩ := hacc
    obtain ⟨q, rfl⟩ := Nat.dvd_of_mod_eq_zero hmod
    rw [Nat.mul_div_cancel_left q (by decide)] at h
    have hq : q ≤ 7 := by omega
    have hcmd : ∀ q ≤ 7, some (slotOfAddr (BitVec.ofNat 3 q)) = some Slot.cmd → q = 3 := by decide
    obtain rfl := hcmd q hq h
    exact ⟨rfl, rfl⟩
  · cases h

/-- R63, R65, R66: only a CMD write changes more than ARG and STATUS of the block, and then by the command it runs. -/
theorem sameCodec_or_command_of_step {s t : State} (h : step s = .next t) (hr : ∀ rest, s.pending ≠ .reset :: rest) :
    s.SameCodec t ∨ ∃ w rest i, s.pending = .busWrite 0x0C 4 w :: rest ∧ decode w = .ok i ∧
      exec i { s with pending := rest } = .next t := by
  unfold step at h
  split at h
  · cases h; exact .inl ⟨rfl, rfl, rfl⟩
  · next tr rest hp =>
    cases tr with
    | reset => exact absurd hp (hr rest)
    | busRead off bytes =>
      simp only [runTransaction] at h
      split at h
      · cases h; exact .inl ⟨rfl, rfl, rfl⟩
      · cases h
    | busWrite off bytes w =>
      simp only [runTransaction] at h
      split at h
      · next slot hslot =>
        cases slot
        case cmd =>
          obtain ⟨rfl, rfl⟩ := slotOfAccess_eq_cmd hslot
          cases hw : decode w with
          | ok i => exact .inr ⟨w, rest, i, hp, hw, by rwa [writeSlot, runCommand_of_ok hw] at h⟩
          | error e =>
            rw [writeSlot, runCommand_of_error hw] at h
            cases h
            exact .inl ⟨rfl, rfl, rfl⟩
        all_goals
          cases h
          exact .inl ⟨rfl, rfl, rfl⟩
      · cases h

/-! ## Procedures -/

section

variable {freq : Vector Word 128} {s t : State}

theorem CodecOf.of_encodeRun {is left : List Instr} {ws : List OutEntry} (h : CodecOf freq s) (hi : EncoderOnly is)
    (hrun : EncodeRun is s ws left t) : CodecOf freq t := by
  obtain ⟨-, -, -, -, -, -, hframe⟩ := encodeRun_spec hrun hi
  exact h.of_tables (by rw [hframe]) (by rw [hframe]) (by rw [hframe])

theorem CodecOf.of_decodeRun {ws left : List OutEntry} {out : List Symbol} (h : CodecOf freq s)
    (hrun : DecodeRun ws s out left t) : CodecOf freq t := by
  obtain ⟨-, -, -, -, -, hframe⟩ := decodeRun_spec hrun
  exact h.of_tables (by rw [hframe]) (by rw [hframe]) (by rw [hframe])

theorem CodecOf.of_encodeProcedure {xs : List Nat} {res : EncodeOutcome} (h : CodecOf freq s)
    (hp : EncodeProcedure xs s res t) : CodecOf freq t := by
  cases hp with
  | complete hr hrun hpop _ =>
    exact ((h.of_exec rfl hr).of_encodeRun (encoderOnly_encodeCommands xs) hrun).of_exec rfl hpop
  | rejected hr hrun hf _ ht =>
    exact (((h.of_exec rfl hr).of_encodeRun (encoderOnly_map xs) hrun).of_exec rfl hf).of_exec rfl ht

theorem CodecOf.of_decodesTo {ws : List OutEntry} {e : ErrCode} {out : List Symbol} (h : CodecOf freq s)
    (hd : DecodesTo ws s e out t) : CodecOf freq t := by
  cases hd with
  | popsBefore hr hrun hpop _ hend _ => exact (((h.of_exec rfl hr).of_decodeRun hrun).of_exec rfl hpop).of_exec rfl hend
  | popsAfter hr hrun hend _ hlate hpop _ =>
    exact ((((h.of_exec rfl hr).of_decodeRun hrun).of_exec rfl hend).of_decodeRun hlate).of_exec rfl hpop
  | noWords hr hend _ => exact (h.of_exec rfl hr).of_exec rfl hend

theorem CodecOf.of_decodeProcedure {ws : List OutEntry} {res : DecodeOutcome} (h : CodecOf freq s)
    (hp : DecodeProcedure ws s res t) : CodecOf freq t := by
  cases hp with
  | complete hd => exact h.of_decodesTo hd
  | truncated hd => exact h.of_decodesTo hd
  | @rejected e _ _ u _ _ hr hrun ht _ =>
    have harg : CodecOf freq { u with arg := e.data } :=
      ((h.of_exec rfl hr).of_decodeRun hrun).of_sameCodec ⟨rfl, rfl, rfl⟩
    exact harg.of_exec rfl ht

end

end Sys2Proof.Machine
end

section
/-! PROOFS. The guarantees of R177 (spec/43_decoder.md) over the codec of a BUILD: an encoding decodes to its symbols, a
first part of it that ends inside a codeword is truncated, and which bits are malformed. Each starts from the walk over the bits
(`decodeProcedure_spec`). -/

namespace Sys2Proof.Machine

/-! ## Walks over an encoding -/

/-- What a codec is, in terms of the finished tree. -/
theorem CodecOf.exists_built {freq : Vector Word 128} {s : State} (h : CodecOf freq s) :
    ∃ r nodes k, buildTree freq = some r ∧ Built freq r nodes k ∧ s.node = r.node ∧ s.root = r.root ∧ s.code = r.code := by
  obtain ⟨r, hr, hnode, hroot, hcode⟩ := h.exists_build
  obtain ⟨nodes, k, hb⟩ := built_of_buildTree hr
  exact ⟨r, nodes, k, hr, hb, hnode, hroot, hcode⟩

section

variable {freq : Vector Word 128} {s u : State}

/-- R112, R127 (e): the counts determine the code table. -/
theorem CodecOf.code_eq (hs : CodecOf freq s) (hu : CodecOf freq u) : s.code = u.code := by
  obtain ⟨r, hr, -, -, hcode⟩ := hs.exists_build
  obtain ⟨r', hr', -, -, hcode'⟩ := hu.exists_build
  rw [hr, Option.some.injEq] at hr'
  rw [hcode, hr', hcode']

/-- R114: only a positive symbol has a codeword. -/
theorem CodecOf.positive_of_len (h : CodecOf freq s) {x : SymIx} (hx : s.code[x].len ≠ 0) : positive freq x := by
  obtain ⟨r, nodes, k, -, hb, -, -, hcode⟩ := h.exists_built
  by_contra hzero
  rw [hcode, hb.code_eq_empty hzero] at hx
  exact hx rfl

theorem CodecOf.walkBits_codewords (h : CodecOf freq s) {xs : List SymIx} (hx : ∀ x ∈ xs, positive freq x) :
    walkBits s.node s.root s.root (xs.flatMap fun x => codeword s.code[x]) =
      some (s.root, xs.map fun x => BitVec.ofNat 7 x.val) := by
  obtain ⟨r, nodes, k, -, hb, hnode, hroot, hcode⟩ := h.exists_built
  rw [hnode, hroot, hcode]
  exact hb.walkBits_codewords hx

theorem CodecOf.walkBits_inside (h : CodecOf freq s) {x : SymIx} (hx : positive freq x) {pre suf : List Bool}
    (hcut : pre ++ suf = codeword s.code[x]) (hpre : pre ≠ []) (hsuf : suf ≠ []) :
    ∃ c, c ≠ s.root ∧ walkBits s.node s.root s.root pre = some (c, []) := by
  obtain ⟨r, nodes, k, -, hb, hnode, hroot, hcode⟩ := h.exists_built
  rw [hnode, hroot]
  rw [hcode] at hcut
  exact hb.walkBits_inside hx hcut hpre hsuf

end

/-! ## Encoding, then decoding -/

/-- R177 (a): the words of an encode procedure are an encoding of positive symbols. -/
theorem CodecOf.queueBits_of_encodeProcedure {freq : Vector Word 128} {s t : State} {xs : List SymIx}
    {ws : List OutEntry} (h : CodecOf freq s) (hp : EncodeProcedure (xs.map Fin.val) s (.stream ws) t) :
    (∀ x ∈ xs, positive freq x) ∧ queueBits ws = xs.flatMap fun x => codeword s.code[x] := by
  have hout := encodeProcedure_spec hp
  unfold encodeOutcome at hout
  split at hout
  · next hknown =>
    obtain rfl := EncodeOutcome.stream.inj hout
    refine ⟨fun x hx => ?_, by rw [(encodedWords_spec _ _).1, flatMap_codewordOf]⟩
    obtain ⟨_, hlen⟩ := hknown x (List.mem_map_of_mem hx)
    exact h.positive_of_len hlen
  · cases hout

/-- Settles O52: an encode procedure's words are the codewords, and from the root these emit their symbols. -/
theorem encodeThenDecodeRoundTrips : Obligations.EncodeThenDecodeRoundTrips := by
  unfold Obligations.EncodeThenDecodeRoundTrips
  refine ⟨?steps, ?procedures, ?roundTrip⟩
  case steps =>
    intro freq s t hs h hreset hcmd
    rcases sameCodec_or_command_of_step h hreset with hsame | ⟨w, rest, i, hp, hw, hexec⟩
    · exact hs.of_sameCodec hsame
    · have hrest : CodecOf freq { s with pending := rest } := hs.of_sameCodec ⟨rfl, rfl, rfl⟩
      exact hrest.of_exec (hcmd w rest i hp hw) hexec
  case procedures =>
    rintro freq s t hs (⟨xs, res, henc⟩ | ⟨ws, res, hdec⟩)
    · exact hs.of_encodeProcedure henc
    · exact hs.of_decodeProcedure hdec
  case roundTrip =>
    intro freq s t u v xs ws res hs henc hu hdec
    obtain ⟨hx, hbits⟩ := hs.queueBits_of_encodeProcedure henc
    rw [decodeProcedure_spec hdec, hbits, hs.code_eq hu, hu.walkBits_codewords hx, walkOutcome, if_pos rfl]

/-! ## Truncation -/

/-- The first part of a concatenation ends between two of the strings, or strictly inside one of them. -/
theorem exists_cut_of_append_eq_flatMap {α β : Type} (f : α → List β) {xs : List α} {bits rest : List β}
    (h : bits ++ rest = xs.flatMap f) :
    (∃ k ≤ xs.length, bits = (xs.take k).flatMap f) ∨
      ∃ (k : Nat) (x : α) (pre suf : List β), xs[k]? = some x ∧ pre ++ suf = f x ∧ pre ≠ [] ∧ suf ≠ [] ∧
        bits = (xs.take k).flatMap f ++ pre := by
  induction xs generalizing bits with
  | nil => exact .inl ⟨0, Nat.le_refl 0, (List.append_eq_nil_iff.1 h).1⟩
  | cons x xs ih =>
    rw [List.flatMap_cons, List.append_eq_append_iff] at h
    rcases h with ⟨suf, hx, -⟩ | ⟨bits', rfl, hrest⟩
    · by_cases hpre : bits = []
      · exact .inl ⟨0, Nat.zero_le _, by rw [hpre]; rfl⟩
      · by_cases hsuf : suf = []
        · exact .inl ⟨1, by simp, by simp [hx, hsuf]⟩
        · exact .inr ⟨0, x, bits, suf, rfl, hx.symm, hpre, hsuf, rfl⟩
    · rcases ih hrest.symm with ⟨k, hk, rfl⟩ | ⟨k, y, pre, suf, hy, hf, hpre, hsuf, rfl⟩
      · exact .inl ⟨k + 1, Nat.succ_le_succ hk, rfl⟩
      · exact .inr ⟨k + 1, y, pre, suf, hy, hf, hpre, hsuf, by
          rw [List.take_succ_cons, List.flatMap_cons, List.append_assoc]⟩

/-- R177 (b): the first bits of an encoding are the codewords of its first symbols, or end inside the next codeword; there
the walk has emitted those symbols and is not at the root. -/
theorem CodecOf.walkBits_first_bits {freq : Vector Word 128} {s : State} (h : CodecOf freq s) {xs : List SymIx}
    {bits rest : List Bool} (hx : ∀ x ∈ xs, positive freq x)
    (hbits : bits ++ rest = xs.flatMap fun x => codeword s.code[x]) :
    (∃ k ≤ xs.length, bits = (xs.take k).flatMap fun x => codeword s.code[x]) ∨
      ∃ c k, c ≠ s.root ∧ k < xs.length ∧
        walkBits s.node s.root s.root bits = some (c, (xs.take k).map fun x => BitVec.ofNat 7 x.val) ∧
        ((xs.take k).flatMap fun x => codeword s.code[x]) <+: bits ∧
        bits <+: ((xs.take (k + 1)).flatMap fun x => codeword s.code[x]) := by
  refine (exists_cut_of_append_eq_flatMap _ hbits).imp_right ?_
  rintro ⟨k, x, pre, suf, hxk, hcode, hpre, hsuf, rfl⟩
  obtain ⟨c, hc, hinside⟩ := h.walkBits_inside (hx x (List.mem_of_getElem? hxk)) hcode hpre hsuf
  have hwhole := h.walkBits_codewords fun y (hy : y ∈ xs.take k) => hx y (List.mem_of_mem_take hy)
  refine ⟨c, k, hc, (List.getElem?_eq_some_iff.1 hxk).1,
    walkBits_append_eq_some_iff.2 ⟨_, _, _, hwhole, hinside, (List.append_nil _).symm⟩, List.prefix_append _ _, suf, ?_⟩
  rw [List.append_assoc, hcode, List.take_add_one, hxk, Option.toList_some, List.flatMap_append, List.flatMap_singleton]

/-- Settles O54: on a boundary between codewords the walk is at the root (`CodecOf.walkBits_codewords`), inside a codeword it
is elsewhere (`CodecOf.walkBits_first_bits`). -/
theorem truncationIsDetected : Obligations.TruncationIsDetected := by
  unfold Obligations.TruncationIsDetected
  intro freq t xs bits rest ht hx hbits
  have hboundary : ∀ k, bits = ((xs.take k).flatMap fun x => codeword t.code[x]) →
      walkBits t.node t.root t.root bits = some (t.root, (xs.take k).map fun x => BitVec.ofNat 7 x.val) := by
    rintro k rfl
    exact ht.walkBits_codewords fun x hk => hx x (List.mem_of_mem_take hk)
  rcases ht.walkBits_first_bits hx hbits with ⟨k, hk, hcut⟩ | ⟨c, k, hc, hk, hwalk, hlow, hhigh⟩
  · refine ⟨t.root, _, hboundary k hcut, ⟨fun _ => ⟨k, hk, hcut⟩, fun _ => rfl⟩, fun hc => absurd rfl hc,
      fun ws res v hws hdec => ⟨fun k' _ hcut' => ?_, fun hno => absurd hcut (hno k hk)⟩⟩
    rw [decodeProcedure_spec hdec, hws, hboundary k' hcut', walkOutcome, if_pos rfl]
  · have hno : ∀ k', bits ≠ (xs.take k').flatMap fun x => codeword t.code[x] := by
      intro k' hcut'
      rw [hboundary k' hcut', Option.some.injEq, Prod.mk.injEq] at hwalk
      exact hc hwalk.1.symm
    refine ⟨c, _, hwalk, ⟨fun h => absurd h hc, fun ⟨k', _, hcut'⟩ => absurd hcut' (hno k')⟩,
      exec_decEnd_of_inside (s := { t with decCur := c }),
      fun ws res v hws hdec => ⟨fun k' _ hcut' => absurd hcut' (hno k'), fun _ => ⟨k, hk, hlow, hhigh, ?_⟩⟩⟩
    rw [decodeProcedure_spec hdec, hws, hwalk, walkOutcome, if_neg hc]

/-! ## Malformed bits -/

/-- R176: a decode procedure is malformed where the walk over the stream is. -/
theorem malformed_iff_of_decodeProcedure {ws : List OutEntry} {s v : State} {res : DecodeOutcome}
    (h : DecodeProcedure ws s res v) : res = .malformed ↔ walkBits s.node s.root s.root (queueBits ws) = none := by
  rw [decodeProcedure_spec h]
  cases walkBits s.node s.root s.root (queueBits ws) with
  | none => exact ⟨fun _ => rfl, fun _ => rfl⟩
  | some r =>
    simp only [walkOutcome, reduceCtorEq, iff_false]
    split <;> nofun

namespace Built

variable {freq : Vector Word 128} {r : BuildResult} {nodes : List Node} {k : Key}

/-- R170, R177 (c): with two leaves or more the cursor never leaves the internal entries, at which every bit has a child. -/
theorem walkBits_ne_none (hb : Built freq r nodes k) (h2 : 2 ≤ (positiveSymbols freq).length) (bits : List Bool) {i : Byte}
    (hi : (positiveSymbols freq).length ≤ i.toNat) (hil : i.toNat < nodes.length) :
    walkBits r.node r.root i bits ≠ none := by
  have hroot := hb.root
  have hlen := hb.length
  have hle := hb.length_le
  have hri := hb.root_toNat
  induction bits generalizing i with
  | nil => nofun
  | cons b bits ih =>
    obtain ⟨n, hn⟩ : ∃ n, nodes[i.toNat]? = some n := ⟨_, List.getElem?_eq_getElem hil⟩
    have hw := walkIx_single hn ((hb.shape.internal_iff hn).2 hi) b
    obtain ⟨j, hj⟩ : ∃ j : Byte, j.toNat = if b then n.b.toNat else n.a.toNat :=
      ⟨if b then n.b else n.a, by cases b <;> rfl⟩
    rw [← hj] at hw
    obtain ⟨hleaf, hinternal⟩ := walkBits_path hb hi hil hw
    have hji := (hb.shape.walkIx_bound hw).1
    by_cases hjl : j.toNat < (positiveSymbols freq).length
    · obtain ⟨x, -, hwalk⟩ := hleaf bits hjl
      rw [← List.singleton_append, hwalk, Ne, Option.map_eq_none_iff]
      exact ih (by omega) (by omega)
    · rw [← List.singleton_append, walkBits_append, hinternal (by omega), Option.bind_some, Ne, Option.map_eq_none_iff]
      exact ih (i := j) (by omega) (by omega)

/-- R170, R177 (c): a leaf root emits its symbol for each 0 and is malformed for a 1. -/
theorem walkBits_eq_none_iff_of_sole (hb : Built freq r nodes k) (h1 : (positiveSymbols freq).length = 1)
    (bits : List Bool) : walkBits r.node r.root r.root bits = none ↔ true ∈ bits := by
  obtain ⟨x, hs⟩ := List.length_eq_one_iff.1 h1
  have hroot : r.root.toNat = 0 := by have := hb.root; have := hb.root_toNat; omega
  have hn : nodes[r.root.toNat]? = some (leafNode freq x) := by rw [hroot]; exact hb.getElem?_leaf (by rw [hs]; rfl)
  have hv : validNode r.node r.root = some (leafNode freq x) := by
    rw [hb.node_eq]
    exact validNode_arenaOf hn (hb.shape.valid _ (List.mem_of_getElem? hn)) hb.length_le
  induction bits with
  | nil => simp [walkBits]
  | cons b bits ih =>
    rw [walkBits, decStep_of_leaf hv rfl]
    cases b
    · simp [ih]
    · simp

end Built

/-- R43, R170: at NULL every bit is malformed. -/
theorem walkBits_null (node : Vector Node 255) (root : Byte) (b : Bool) (bits : List Bool) :
    walkBits node root 0xFF#8 (b :: bits) = none := by
  rw [walkBits, decStep_of_missing (validNode_null node)]

/-- Settles O55: two leaves or more, one leaf, no tree. -/
theorem malformedOnlyAtALeafRootOrWithoutATree : Obligations.MalformedOnlyAtALeafRootOrWithoutATree := by
  unfold Obligations.MalformedOnlyAtALeafRootOrWithoutATree
  refine ⟨?twoLeaves, ?oneLeaf, walkBits_null, ?noTree⟩
  case twoLeaves =>
    intro freq t ht h2
    obtain ⟨r, nodes, k, -, hb, hnode, hroot, -⟩ := ht.exists_built
    rw [leafCount_eq] at h2
    have hwalk : ∀ bits, walkBits t.node t.root t.root bits ≠ none := by
      have hri := hb.root_toNat; have hidx := hb.root; have hlen := hb.length
      rw [hnode, hroot]
      exact fun bits => hb.walkBits_ne_none h2 bits (by omega) (by omega)
    exact ⟨hwalk, fun ws res v hdec => mt (malformed_iff_of_decodeProcedure hdec).1 (hwalk _)⟩
  case oneLeaf =>
    intro freq t ht h1
    obtain ⟨r, nodes, k, -, hb, hnode, hroot, -⟩ := ht.exists_built
    rw [leafCount_eq] at h1
    have hwalk : ∀ bits, walkBits t.node t.root t.root bits = none ↔ true ∈ bits := by
      rw [hnode, hroot]
      exact hb.walkBits_eq_none_iff_of_sole h1
    exact ⟨hwalk, fun ws res v hdec => (malformed_iff_of_decodeProcedure hdec).trans (hwalk _)⟩
  case noTree =>
    intro ws s v res hroot hne hdec
    obtain ⟨b, bits, hbits⟩ := List.exists_cons_of_ne_nil hne
    rw [malformed_iff_of_decodeProcedure hdec, hroot, hbits, walkBits_null]

end Sys2Proof.Machine
end

section
/-! PROOFS. The error entry (spec/60_exceptions.md R203): a raised error undoes the command, for each command and for each
CMD word. -/

namespace Sys2Proof.Machine

/-- R203, R204: of the three ends of a command, DEC_END's report and `done` leave TRUNCATED_STREAM and OK in ERR, so the
command ended in `raise`. -/
theorem eq_withStatus_of_exec_raised {i : Instr} {s t : State} (h : exec i s = .next t) (hok : t.err ≠ .ok)
    (htr : t.err ≠ .truncatedStream) : t = s.withStatus t.err t.errInfo := by
  rcases exec_inversion h with ⟨_, _, _, _, _, rfl, _⟩ | ⟨_, _, rfl⟩ | ⟨u, rfl, _⟩
  · rfl
  · exact absurd rfl htr
  · exact absurd (u.withStatus_err .ok 0) hok

/-- R84: a CMD word that is no command raises ILLEGAL_CMD, every other one runs its command. -/
theorem eq_withStatus_of_runCommand_raised {w : Word} {s t : State} (h : runCommand w s = .next t) (hok : t.err ≠ .ok)
    (htr : t.err ≠ .truncatedStream) : t = s.withStatus t.err t.errInfo := by
  cases hd : decode w with
  | ok i =>
    rw [runCommand_of_ok hd] at h
    exact eq_withStatus_of_exec_raised h hok htr
  | error e =>
    rw [runCommand_of_error hd] at h
    cases h
    rfl

/-- Settles O12: `State.withStatus` writes ERR and ERR_INFO alone. -/
theorem raisedErrorsUndoTheCommand : Obligations.RaisedErrorsUndoTheCommand :=
  ⟨fun _ _ _ => eq_withStatus_of_exec_raised, fun _ _ _ => eq_withStatus_of_runCommand_raised⟩

end Sys2Proof.Machine
end

section
/-! PROOFS. Who writes which element of the state (spec/10_state.md R21, R40 to R47): one table of what each command may
write, tied to `exec` by `same_of_exec`; the statements about writers read the table. -/

namespace Sys2Proof.Machine

/-- R20: the elements of the state by who writes them: NLEAF and NCOUNT, PACK and FILL, RES0 and RES1, and what is not the
block's (`host`: the parameters and the host agent's lists) always go together. ERR and ERR_INFO, which every command writes,
are left out. -/
inductive Element where
  | host | arg | results | freq | node | code | root | counts | packer | encTotal | outq | decCur | symq

/-- The element is the same in both states. -/
def Element.Same (x : Element) (s t : State) : Prop :=
  match x with
  | .host => t.cfg = s.cfg ∧ t.pending = s.pending ∧ t.reads = s.reads
  | .arg => t.arg = s.arg
  | .results => t.res0 = s.res0 ∧ t.res1 = s.res1
  | .freq => t.freq = s.freq
  | .node => t.node = s.node
  | .code => t.code = s.code
  | .root => t.root = s.root
  | .counts => t.nleaf = s.nleaf ∧ t.ncount = s.ncount
  | .packer => t.pack = s.pack ∧ t.fill = s.fill
  | .encTotal => t.encTotal = s.encTotal
  | .outq => t.outq = s.outq
  | .decCur => t.decCur = s.decCur
  | .symq => t.symq = s.symq

/-- The elements a command may write. -/
def writes : Instr → List Element
  | .nop => []
  | .clr => [.arg, .results, .freq, .node, .code, .root, .counts, .packer, .encTotal, .outq, .decCur, .symq]
  | .freqWr _ => [.freq]
  | .freqRd _ => [.results]
  | .build => [.results, .node, .code, .root, .counts, .decCur]
  | .treeInfo => [.results]
  | .nodeRd _ => [.results]
  | .nodeWr _ => [.node]
  | .rootWr => [.root, .decCur]
  | .codeRd _ _ => [.results]
  | .codeWr _ _ => [.code]
  | .codeLenWr _ => [.code]
  | .encSym _ => [.results, .packer, .encTotal, .outq]
  | .encFlush => [.results, .packer, .outq]
  | .encReset => [.packer, .encTotal, .outq]
  | .outPop => [.results, .outq]
  | .encInfo => [.results]
  | .decWord _ => [.results, .decCur, .symq]
  | .decEnd => [.decCur]
  | .decReset => [.decCur, .symq]
  | .symPop => [.results, .symq]
  | .decInfo => [.results]

section Frame

variable {x : Element} {i : Instr} {s t u : State}

theorem Element.Same.refl (x : Element) (s : State) : x.Same s s := by
  cases x <;> simp [Element.Same]

theorem Element.Same.withStatus (h : x.Same s u) (e : ErrCode) (n : BitVec 5) : x.Same s (u.withStatus e n) := by
  cases x <;> exact h

/-- An effect leaves what its command does not write. -/
theorem same_of_effect (h : Effect i s u) (hx : x ∉ writes i) : x.Same s u := by
  cases i
  case nop | clr | encReset | decReset => obtain rfl := h; cases x <;> simp_all [writes, Element.Same]
  case freqWr | freqRd | treeInfo | rootWr => obtain ⟨_, rfl⟩ := h; cases x <;> simp_all [writes, Element.Same]
  case nodeRd | nodeWr | codeRd | codeWr | encInfo | decInfo =>
    obtain ⟨_, _, rfl⟩ := h
    cases x <;> simp_all [writes, Element.Same]
  case build => obtain ⟨_, _, rfl⟩ := h; cases x <;> simp_all [writes, Element.Same]
  case codeLenWr => obtain ⟨_, _, _, rfl⟩ := h; cases x <;> simp_all [writes, Element.Same]
  case encSym => obtain ⟨_, _, _, _, _, rfl⟩ := h; cases x <;> simp_all [writes, Element.Same, appendCode]
  case encFlush => rcases h with ⟨_, rfl⟩ | ⟨_, _, rfl⟩ <;> cases x <;> simp_all [writes, Element.Same]
  case outPop | symPop => obtain ⟨_, _, _, _, _, rfl⟩ := h; cases x <;> simp_all [writes, Element.Same]
  case decWord => obtain ⟨_, _, _, _, rfl⟩ := h; cases x <;> simp_all [writes, Element.Same]
  case decEnd => obtain ⟨_, rfl⟩ := h; exact .refl x u

/-- R203, R204: a command that ends in an error leaves all but ERR, ERR_INFO and, for DEC_END, DEC_CUR. -/
theorem same_of_exec_failed (h : exec i s = .next t) (he : t.err ≠ .ok) (hx : x ≠ .decCur) : x.Same s t := by
  rcases exec_inversion h with ⟨e, n, _, _, _, rfl, _⟩ | ⟨_, _, rfl⟩ | ⟨u, rfl, _⟩
  · exact (Element.Same.refl x s).withStatus e n
  · cases x <;> simp_all [Element.Same]
  · exact absurd (u.withStatus_err .ok 0) he

/-- A command leaves what it does not write, however it ends. -/
theorem same_of_exec (h : exec i s = .next t) (hx : x ∉ writes i) : x.Same s t := by
  rcases exec_inversion h with ⟨e, n, _, _, _, rfl, _⟩ | ⟨rfl, _, rfl⟩ | ⟨u, rfl, hu⟩
  · exact (Element.Same.refl x s).withStatus e n
  · cases x <;> simp_all [writes, Element.Same]
  · exact (same_of_effect hu hx).withStatus .ok 0

end Frame

/-! ## The writers of each element -/

section Writers

variable {i : Instr}

theorem host_not_mem_writes (i : Instr) : .host ∉ writes i := by cases i <;> simp [writes]

theorem arg_mem_writes_iff : .arg ∈ writes i ↔ i = .clr := by cases i <;> simp [writes]

theorem freq_mem_writes_iff : .freq ∈ writes i ↔ i = .clr ∨ ∃ a, i = .freqWr a := by cases i <;> simp [writes]

theorem node_mem_writes_iff : .node ∈ writes i ↔ i = .clr ∨ (∃ a, i = .nodeWr a) ∨ i = .build := by
  cases i <;> simp [writes]

theorem code_mem_writes_iff :
    .code ∈ writes i ↔ i = .clr ∨ (∃ a k, i = .codeWr a k) ∨ (∃ a, i = .codeLenWr a) ∨ i = .build := by
  cases i <;> simp [writes]

theorem root_mem_writes_iff : .root ∈ writes i ↔ i = .clr ∨ i = .rootWr ∨ i = .build := by cases i <;> simp [writes]

theorem counts_mem_writes_iff : .counts ∈ writes i ↔ i = .clr ∨ i = .build := by cases i <;> simp [writes]

theorem packer_mem_writes_iff :
    .packer ∈ writes i ↔ i = .clr ∨ i = .encReset ∨ (∃ a, i = .encSym a) ∨ i = .encFlush := by
  cases i <;> simp [writes]

theorem encTotal_mem_writes_iff : .encTotal ∈ writes i ↔ i = .clr ∨ i = .encReset ∨ ∃ a, i = .encSym a := by
  cases i <;> simp [writes]

theorem outq_mem_writes_iff :
    .outq ∈ writes i ↔ i = .clr ∨ i = .encReset ∨ (∃ a, i = .encSym a) ∨ i = .encFlush ∨ i = .outPop := by
  cases i <;> simp [writes]

theorem decCur_mem_writes_iff :
    .decCur ∈ writes i ↔ i = .clr ∨ i = .decReset ∨ (∃ a, i = .decWord a) ∨ i = .decEnd ∨ i = .build ∨ i = .rootWr := by
  cases i <;> simp [writes]

theorem symq_mem_writes_iff :
    .symq ∈ writes i ↔ i = .clr ∨ i = .decReset ∨ (∃ a, i = .decWord a) ∨ i = .symPop := by
  cases i <;> simp [writes]

end Writers

/-- Settles O16: the row of `writes` for ARG, and that no row has the host's elements. -/
theorem argWrittenOnlyByHostAndClr : Obligations.ArgWrittenOnlyByHostAndClr := by
  unfold Obligations.ArgWrittenOnlyByHostAndClr
  intro i s t h
  refine ⟨fun hclr => same_of_exec (x := .arg) h ?_, same_of_exec (x := .host) h (host_not_mem_writes i)⟩
  rwa [arg_mem_writes_iff]

/-- Settles O17: a command that fails keeps its results (`same_of_exec_failed`), the named ones do not write them. -/
theorem resultRegistersKept : Obligations.ResultRegistersKept := by
  unfold Obligations.ResultRegistersKept
  intro i s t h hi
  rcases hi with herr | hi
  · exact same_of_exec_failed (x := .results) h herr (by simp)
  · refine same_of_exec (x := .results) h ?_
    rcases hi with rfl | ⟨a, rfl⟩ | ⟨a, rfl⟩ | rfl | ⟨a, k, rfl⟩ | ⟨a, rfl⟩ | rfl | rfl | rfl <;> simp [writes]

/-- Settles O18: the writers of the tables and of ROOT, NLEAF and NCOUNT. -/
theorem tablesWrittenOnlyByTheirCommands : Obligations.TablesWrittenOnlyByTheirCommands := by
  unfold Obligations.TablesWrittenOnlyByTheirCommands
  intro i s t h hclr
  refine ⟨fun hwr => same_of_exec (x := .freq) h ?freq, fun hwr hbuild => same_of_exec (x := .node) h ?node,
    fun hwr hlen hbuild => same_of_exec (x := .code) h ?code, fun hwr hbuild => same_of_exec (x := .root) h ?root,
    fun hbuild => same_of_exec (x := .counts) h ?counts⟩
  case freq => simp [freq_mem_writes_iff, hclr, hwr]
  case node => simp [node_mem_writes_iff, hclr, hwr, hbuild]
  case code => simp [code_mem_writes_iff, hclr, hwr, hlen, hbuild]
  case root => simp [root_mem_writes_iff, hclr, hwr, hbuild]
  case counts => simp [counts_mem_writes_iff, hclr, hbuild]

/-- Settles O19: the writers of the encoder's elements. -/
theorem encoderStateWrittenOnlyByEncoder : Obligations.EncoderStateWrittenOnlyByEncoder := by
  unfold Obligations.EncoderStateWrittenOnlyByEncoder
  intro i s t h hclr hreset hsym
  have htotal : Element.encTotal.Same s t := same_of_exec h (by simp [encTotal_mem_writes_iff, hclr, hreset, hsym])
  refine ⟨htotal, fun hflush => ?_⟩
  obtain ⟨hpack, hfill⟩ : Element.packer.Same s t :=
    same_of_exec h (by simp [packer_mem_writes_iff, hclr, hreset, hsym, hflush])
  refine ⟨hpack, hfill, fun hpop => same_of_exec (x := .outq) h ?_⟩
  simp [outq_mem_writes_iff, hclr, hreset, hsym, hflush, hpop]

/-- Settles O20: the writers of the decoder's elements. -/
theorem decoderStateWrittenOnlyByItsCommands : Obligations.DecoderStateWrittenOnlyByItsCommands := by
  unfold Obligations.DecoderStateWrittenOnlyByItsCommands
  intro i s t h hclr hreset hword
  refine ⟨fun hpop => same_of_exec (x := .symq) h ?symq,
    fun hend hbuild hroot => same_of_exec (x := .decCur) h ?decCur⟩
  case symq => simp [symq_mem_writes_iff, hclr, hreset, hword, hpop]
  case decCur => simp [decCur_mem_writes_iff, hclr, hreset, hword, hend, hbuild, hroot]

end Sys2Proof.Machine
end

section
/-! PROOFS. How commands end (spec/60_exceptions.md R200, R201, R205): every command completes, with an error of its own or
OK, and ERR_INFO is the index of DEC_WORD's failing bit or 0. -/

namespace Sys2Proof.Machine

/-! ## Completion and error codes -/

/-- Settles O15: each end a command's body has is a next state. -/
theorem everyCommandCompletes : Obligations.EveryCommandCompletes := by
  unfold Obligations.EveryCommandCompletes
  intro i s
  cases i <;> rw [exec]
  case nop | clr | treeInfo | rootWr | encReset | encInfo | decReset | decInfo => exact ⟨_, rfl⟩
  case freqWr a => rcases execFreqWr_cases a s with ⟨_, e⟩ | e <;> exact ⟨_, e⟩
  case freqRd a => rcases execFreqRd_cases a s with ⟨_, e⟩ | e <;> exact ⟨_, e⟩
  case build => rcases execBuild_cases s with ⟨_, _, e⟩ | ⟨_, e⟩ <;> exact ⟨_, e⟩
  case nodeRd a => rcases execNodeRd_cases a s with ⟨_, _, e⟩ | e <;> exact ⟨_, e⟩
  case nodeWr a => rcases execNodeWr_cases a s with ⟨_, e⟩ | e <;> exact ⟨_, e⟩
  case codeRd a k => rcases execCodeRd_cases a k s with ⟨_, _, e⟩ | e <;> exact ⟨_, e⟩
  case codeWr a k => rcases execCodeWr_cases a k s with ⟨_, e⟩ | e <;> exact ⟨_, e⟩
  case codeLenWr a => rcases execCodeLenWr_cases a s with ⟨_, _, _, e⟩ | e <;> exact ⟨_, e⟩
  case encSym a => rcases execEncSym_cases a s with ⟨_, _, _, e⟩ | e | ⟨_, _, e⟩ <;> exact ⟨_, e⟩
  case encFlush => rcases execEncFlush_cases s with ⟨_, e⟩ | ⟨_, _, e⟩ | e <;> exact ⟨_, e⟩
  case outPop => rcases execOutPop_cases s with ⟨_, _, _, e⟩ | ⟨_, e⟩ <;> exact ⟨_, e⟩
  case decWord a =>
    rcases execDecWord_cases a s with ⟨_, _, ⟨_, _, _, _, e⟩ | ⟨_, _, e⟩ | ⟨_, _, e⟩⟩ | ⟨_, e⟩ <;> exact ⟨_, e⟩
  case decEnd => rcases execDecEnd_cases s with ⟨_, e⟩ | ⟨_, e⟩ <;> exact ⟨_, e⟩
  case symPop => rcases execSymPop_cases s with ⟨_, _, _, e⟩ | ⟨_, e⟩ <;> exact ⟨_, e⟩

theorem ok_mem_errorsOf (i : Instr) : .ok ∈ errorsOf i := by cases i <;> simp [errorsOf]

/-- R200: the column "raised by". -/
theorem err_mem_errorsOf {i : Instr} {s t : State} (h : exec i s = .next t) : t.err ∈ errorsOf i := by
  rcases exec_inversion h with ⟨e, _, he, _, _, rfl, _⟩ | ⟨rfl, _, rfl⟩ | ⟨u, rfl, _⟩
  · exact he
  · simp [errorsOf]
  · exact ok_mem_errorsOf i

/-- Settles O13: the codes are those of `err_mem_errorsOf`, their numbers those of the definition. -/
theorem errorCodesByCommand : Obligations.ErrorCodesByCommand :=
  ⟨fun _ _ _ => err_mem_errorsOf, rfl, rfl, rfl, rfl, rfl, rfl, rfl, rfl, rfl, rfl⟩

/-! ## ERR_INFO (R201) -/

/-- R201: no command leaves an ERR_INFO of its own but with the two errors of DEC_WORD's bits. -/
theorem infoLegal_of_exec {i : Instr} {s t : State} (h : exec i s = .next t) : t.InfoLegal := by
  rcases exec_inversion h with ⟨e, n, _, _, _, rfl, hinfo⟩ | ⟨_, _, rfl⟩ | ⟨u, rfl, _⟩
  · by_cases hn : n = 0
    · exact .inr (.inr hn)
    · obtain ⟨_, _, he⟩ := hinfo hn
      exact he.imp_right .inl
  · exact .inr (.inr rfl)
  · exact .inr (.inr rfl)

theorem infoLegal_of_runCommand {w : Word} {s t : State} (h : runCommand w s = .next t) : t.InfoLegal := by
  cases hd : decode w with
  | ok i => rw [runCommand_of_ok hd] at h; exact infoLegal_of_exec h
  | error e =>
    rw [runCommand_of_error hd] at h
    cases h
    exact .inr (.inr rfl)

/-- R171, R200: MALFORMED_TREE and SYM_FULL are DEC_WORD's. -/
theorem eq_decWord_of_mem_errorsOf {i : Instr} {e : ErrCode} (h : e ∈ errorsOf i)
    (he : e = .malformedTree ∨ e = .symFull) : ∃ a, i = .decWord a := by
  cases i
  case decWord a => exact ⟨a, rfl⟩
  all_goals rcases he with rfl | rfl <;> simp [errorsOf] at h

/-- R171: the word at its bit `j`, and the bits before that. -/
theorem argBits_at {arg : Word} {a j : Nat} {b : Bool} (h : (argBits arg a)[j]? = some b) :
    j < a ∧ (argBits arg a).take j = argBits arg j ∧ b = arg.getLsbD (31 - j) := by
  have hj : j < a := by simpa using (List.getElem?_eq_some_iff.1 h).1
  rw [argBits_split arg hj] at h ⊢
  refine ⟨hj, List.take_left' (length_argBits arg j), ?_⟩
  rw [List.getElem?_append_right (by simp)] at h
  simpa using h.symm

theorem toNat_ofNat_bitIndex {a j : Nat} (ha : a ≤ 32) (hj : j < a) : (BitVec.ofNat 5 j).toNat = j := by
  rw [BitVec.toNat_ofNat]
  exact Nat.mod_eq_of_lt (by omega)

/-- R171, R201: a DEC_WORD that ends in MALFORMED_TREE or SYM_FULL names its failing bit. -/
theorem decWord_failing_bit {a : Nat} {s t : State} (h : exec (.decWord a) s = .next t)
    (he : t.err = .malformedTree ∨ t.err = .symFull) :
    ∃ cur out, t.errInfo.toNat < a ∧
      walkBits s.node s.root s.decCur (argBits s.arg t.errInfo.toNat) = some (cur, out) ∧
      (t.err = .malformedTree → decStep s.node s.root cur (s.arg.getLsbD (31 - t.errInfo.toNat)) = .malformed) ∧
      (t.err = .symFull → s.symq.length + out.length = s.cfg.depthSym ∧
        ∃ x c, decStep s.node s.root cur (s.arg.getLsbD (31 - t.errInfo.toNat)) = .emit x c) := by
  rw [exec] at h
  rcases execDecWord_cases a s with ⟨-, ha, ⟨_, _, _, -, e⟩ | ⟨j, hj, e⟩ | ⟨j, hj, e⟩⟩ | ⟨-, e⟩
  · rw [e, done_eq_next_iff] at h
    subst h
    simp at he
  · obtain ⟨cur, out, b, hw, hb, hd⟩ := (walkBits_of_decBits_stop _ 0 0 j _ _).1 (by rw [hj, Nat.zero_add])
    obtain ⟨hja, htake, rfl⟩ := argBits_at hb
    rw [e, raise_eq_next_iff] at h
    subst h
    simp only [State.withStatus_errInfo, toNat_ofNat_bitIndex ha hja]
    exact ⟨cur, out, hja, htake ▸ hw, fun _ => hd, by simp⟩
  · obtain ⟨cur, out, b, x, c, hw, hb, hq, hd⟩ := (walkBits_of_decBits_stop _ 0 0 j _ _).2 (by rw [hj, Nat.zero_add])
    obtain ⟨hja, htake, rfl⟩ := argBits_at hb
    rw [e, raise_eq_next_iff] at h
    subst h
    simp only [State.withStatus_errInfo, toNat_ofNat_bitIndex ha hja]
    exact ⟨cur, out, hja, htake ▸ hw, by simp, fun _ => ⟨hq, x, c, hd⟩⟩
  · rw [e, raise_eq_next_iff] at h
    subst h
    simp at he

/-- Settles O14: the two errors are DEC_WORD's, whose ERR_INFO is the bit of `decWord_failing_bit`. -/
theorem infoIsTheBitIndex : Obligations.InfoIsTheBitIndex := by
  unfold Obligations.InfoIsTheBitIndex
  refine ⟨fun w s t h hne => ?legal, fun i s t h he => ?index⟩
  case legal =>
    rcases infoLegal_of_runCommand h with hm | hf | h0
    · exact .inl hm
    · exact .inr hf
    · exact absurd h0 hne
  case index =>
    obtain ⟨a, rfl⟩ := eq_decWord_of_mem_errorsOf (err_mem_errorsOf h) he
    obtain ⟨cur, out, hbit⟩ := decWord_failing_bit h he
    exact ⟨a, cur, out, rfl, hbit⟩

end Sys2Proof.Machine
end

section
/-! PROOFS. The register window and the step (spec/20_memory.md R62 to R68): a legal access reaches the slot of its offset,
any other is refused; a CMD write runs the command of its word; and a bridge's lanes (R67). -/

namespace Sys2Proof.Machine

/-! ## The slot of an access (R64, R68) -/

theorem slotOfAccess_slotOffset (x : Slot) : slotOfAccess (slotOffset x) 4 = some x := by
  cases x <;> rfl

/-- R68: the accesses that cannot be expressed. -/
theorem slotOfAccess_eq_none_iff (off bytes : Nat) :
    slotOfAccess off bytes = none ↔ bytes ≠ 4 ∨ off % 4 ≠ 0 ∨ 0x1C < off := by
  have hnot : ¬ (bytes = 4 ∧ off % 4 = 0 ∧ off ≤ 0x1C) ↔ bytes ≠ 4 ∨ off % 4 ≠ 0 ∨ 0x1C < off := by omega
  rw [← hnot, slotOfAccess]
  split <;> simp_all

/-- R65: what a read returns does not depend on the host's transactions. -/
theorem readSlot_pending (x : Slot) (s : State) (rest : List Transaction) :
    readSlot x { s with pending := rest } = readSlot x s := by
  cases x <;> rfl

/-! ## Steps by the next transaction -/

section Step

variable {s : State} {rest : List Transaction}

/-- R65: a read hands the slot's word to the host. -/
theorem step_busRead (x : Slot) (h : s.pending = .busRead (slotOffset x) 4 :: rest) :
    step s = .next { s with pending := rest, reads := s.reads ++ [readSlot x s] } := by
  simp only [step, h, runTransaction, slotOfAccess_slotOffset, readSlot_pending]

/-- R65, R66: a write to a slot. -/
theorem step_busWrite (x : Slot) {v : Word} (h : s.pending = .busWrite (slotOffset x) 4 v :: rest) :
    step s = writeSlot x v { s with pending := rest } := by
  simp only [step, h, runTransaction, slotOfAccess_slotOffset]

theorem step_cmdWrite {w : Word} (h : s.pending = .busWrite 0x0C 4 w :: rest) :
    step s = runCommand w { s with pending := rest } := step_busWrite .cmd h

/-- R66: the slots a write to which has no effect. -/
theorem writeSlot_of_readOnly {x : Slot} (harg : x ≠ .arg) (hcmd : x ≠ .cmd) (v : Word) (s : State) :
    writeSlot x v s = .next s := by
  cases x
  case arg => exact absurd rfl harg
  case cmd => exact absurd rfl hcmd
  all_goals rfl

/-- R68: an access no slot of the window answers. -/
theorem step_badAccess {off bytes : Nat} {v : Word} (hbad : slotOfAccess off bytes = none)
    (h : s.pending = .busRead off bytes :: rest ∨ s.pending = .busWrite off bytes v :: rest) :
    step s = .refused .noSuchTransaction := by
  rcases h with h | h <;> simp only [step, h, runTransaction, hbad]

theorem step_idle (h : s.pending = []) : step s = .next s := by rw [step, h]

end Step

/-- Settles O6: a CMD write runs `runCommand`, and `withFetchWord` places one. -/
theorem stepRunsTheDecodedCommand : Obligations.StepRunsTheDecodedCommand := by
  unfold Obligations.StepRunsTheDecodedCommand
  refine ⟨?command, ?illegal, fun s h => step_idle h, ?fetched⟩
  case command =>
    intro s w rest i hp hw
    rw [step_cmdWrite hp, runCommand_of_ok hw]
  case illegal =>
    intro s w rest e hp hw
    rw [step_cmdWrite hp, runCommand_of_error hw]
  case fetched =>
    intro s w i hw
    have hp : (s.withFetchWord 32 w).pending = .busWrite 0x0C 4 (BitVec.ofNat 32 (w % 2 ^ 32)) :: s.pending := rfl
    rw [step_cmdWrite hp, runCommand_of_ok hw]
    rfl

/-- Settles O7: `step_busRead` and `step_busWrite` at each slot. -/
theorem registerWindowAccesses : Obligations.RegisterWindowAccesses := by
  unfold Obligations.RegisterWindowAccesses
  refine fun s rest => ⟨?read, fun v => step_busWrite .arg, fun v => step_cmdWrite, ?readOnly⟩
  case read =>
    intro off v hmem hp
    obtain ⟨x, rfl, rfl⟩ : ∃ x, slotOffset x = off ∧ readSlot x s = v := by
      simp only [List.mem_cons, Prod.mk.injEq, List.not_mem_nil, or_false] at hmem
      rcases hmem with ⟨rfl, rfl⟩ | ⟨rfl, rfl⟩ | ⟨rfl, rfl⟩ | ⟨rfl, rfl⟩ | ⟨rfl, rfl⟩ | ⟨rfl, rfl⟩ | ⟨rfl, rfl⟩ | ⟨rfl, rfl⟩
      exacts [⟨.id, rfl, rfl⟩, ⟨.status, rfl, rfl⟩, ⟨.arg, rfl, rfl⟩, ⟨.cmd, rfl, rfl⟩, ⟨.res0, rfl, rfl⟩,
        ⟨.res1, rfl, rfl⟩, ⟨.param, rfl, rfl⟩, ⟨.reserved, rfl, rfl⟩]
    exact step_busRead x hp
  case readOnly =>
    intro off v hmem hp
    obtain ⟨x, rfl, harg, hcmd⟩ : ∃ x, slotOffset x = off ∧ x ≠ .arg ∧ x ≠ .cmd := by
      simp only [List.mem_cons, List.not_mem_nil, or_false] at hmem
      rcases hmem with rfl | rfl | rfl | rfl | rfl | rfl
      exacts [⟨.id, by decide⟩, ⟨.status, by decide⟩, ⟨.res0, by decide⟩, ⟨.res1, by decide⟩, ⟨.param, by decide⟩,
        ⟨.reserved, by decide⟩]
    rw [step_busWrite x hp, writeSlot_of_readOnly harg hcmd]

/-- R205, R232: a write to a slot completes. -/
theorem exists_writeSlot (x : Slot) (v : Word) (s : State) : ∃ t, writeSlot x v s = .next t := by
  cases x
  case cmd =>
    cases hd : decode v with
    | ok i => rw [writeSlot, runCommand_of_ok hd]; exact everyCommandCompletes i s
    | error e => rw [writeSlot, runCommand_of_error hd]; exact ⟨_, rfl⟩
  all_goals exact ⟨_, rfl⟩

/-- Settles O8: an access without a slot is refused (`step_badAccess`), and nothing else is. -/
theorem stepRefusesExactlyBadAccesses : Obligations.StepRefusesExactlyBadAccesses := by
  unfold Obligations.StepRefusesExactlyBadAccesses
  refine ⟨fun s rest off bytes v hbad => step_badAccess ((slotOfAccess_eq_none_iff off bytes).2 hbad), fun s => ?_⟩
  cases hp : s.pending with
  | nil => exact .inl ⟨s, step_idle hp⟩
  | cons tr rest =>
    cases tr with
    | reset => exact .inl ⟨_, step_reset hp⟩
    | busRead off bytes =>
      cases hslot : slotOfAccess off bytes with
      | none =>
        exact .inr ⟨step_badAccess (v := 0) hslot (.inl hp), off, bytes, 0, rest,
          (slotOfAccess_eq_none_iff _ _).1 hslot, .inl rfl⟩
      | some x => simp only [step, hp, runTransaction, hslot]; exact .inl ⟨_, rfl⟩
    | busWrite off bytes v =>
      cases hslot : slotOfAccess off bytes with
      | none =>
        exact .inr ⟨step_badAccess hslot (.inr hp), off, bytes, v, rest,
          (slotOfAccess_eq_none_iff _ _).1 hslot, .inr rfl⟩
      | some x => simp only [step, hp, runTransaction, hslot]; exact .inl (exists_writeSlot x v _)

/-! ## The words read (R23, R27) -/

/-- R23: the FIFO occupancies fit their fields. -/
theorem State.FifoBounds.occupancies {s : State} (h : s.FifoBounds) :
    (outOcc s).toNat = s.outq.length ∧ (symOcc s).toNat = s.symq.length := by
  obtain ⟨hc, hout, hsym⟩ := h
  rw [Config.wellFormed_iff] at hc
  simp only [outOcc, symOcc, BitVec.toNat_ofNat]
  omega

/-- R23: the fields of STATUS. -/
theorem statusWord_fields (s : State) :
    (statusWord s).extractLsb' 0 4 = errNumber s.err ∧ (statusWord s).getLsbD 4 = flagTree s ∧
      (statusWord s).getLsbD 5 = flagDecMid s ∧ (statusWord s).extractLsb' 6 5 = s.fill ∧
      (statusWord s).extractLsb' 11 5 = outOcc s ∧ (statusWord s).extractLsb' 16 6 = symOcc s ∧
      (statusWord s).extractLsb' 22 5 = s.errInfo ∧ (statusWord s).extractLsb' 27 5 = 0 := by
  unfold statusWord
  refine ⟨BitVec.extractLsb'_append_eq_right, ?tree, ?decMid, ?fill, ?outOcc, ?symOcc, ?errInfo, ?zero⟩
  case tree | decMid => simp only [BitVec.getLsbD_append]; simp
  all_goals repeat rw [BitVec.extractLsb'_append_eq_of_le (by decide)]
  case zero => rfl
  all_goals exact BitVec.extractLsb'_append_eq_right

/-- Settles O9: the fields of STATUS, whose occupancies fit under the FIFO bounds. -/
theorem statusWordFields : Obligations.StatusWordFields := by
  unfold Obligations.StatusWordFields
  intro s h
  obtain ⟨herr, htree, hmid, hfill, hout, hsym, hinfo, hzero⟩ := statusWord_fields s
  obtain ⟨houtlen, hsymlen⟩ := h.occupancies
  rw [hout, hsym, htree, hmid]
  exact ⟨herr, bne_iff_ne, bne_iff_ne, hfill, houtlen, hsymlen, hinfo, hzero⟩

/-- R27: the fields of PARAM. -/
theorem paramWord_fields (c : Config) :
    (paramWord c).extractLsb' 0 8 = BitVec.ofNat 8 c.depthOut ∧ (paramWord c).extractLsb' 8 8 = BitVec.ofNat 8 c.depthSym ∧
      (paramWord c).extractLsb' 16 8 = 0x80#8 ∧ (paramWord c).extractLsb' 24 8 = 0x20#8 := by
  unfold paramWord
  refine ⟨BitVec.extractLsb'_append_eq_right, ?depthSym, ?nsym, ?wCount⟩
  all_goals repeat rw [BitVec.extractLsb'_append_eq_of_le (by decide)]
  case wCount => rfl
  all_goals exact BitVec.extractLsb'_append_eq_right

/-- R50: no step changes the parameters. -/
theorem cfg_of_step {s t : State} (h : step s = .next t) : t.cfg = s.cfg := by
  rcases step_inversion h with rfl | ⟨_, _, _, rfl⟩ | ⟨_, rfl⟩ | ⟨_, i, he⟩ | ⟨_, rfl⟩
  case inr.inr.inr.inl => exact (same_of_exec (x := .host) he (host_not_mem_writes i)).1
  all_goals rfl

/-- Settles O10: depths in range fit the fields of PARAM, and `cfg_of_step`. -/
theorem paramReportsFixedDepths : Obligations.ParamReportsFixedDepths := by
  unfold Obligations.ParamReportsFixedDepths
  refine ⟨fun c hc => ?_, fun s t h => cfg_of_step h⟩
  rw [Config.wellFormed_iff] at hc
  obtain ⟨hout, hsym, hnsym, hcount⟩ := paramWord_fields c
  rw [hout, hsym, BitVec.toNat_ofNat, BitVec.toNat_ofNat]
  exact ⟨Nat.mod_eq_of_lt (by omega), Nat.mod_eq_of_lt (by omega), hnsym, hcount⟩

/-! ## A bridge (R67) -/

/-- R64: each slot is four bytes at a multiple of 4 in the window, and its lanes' offsets name it. -/
theorem slotOffset_lane (x : Slot) (lane : Fin 4) :
    slotOffset x + lane.val < 32 ∧ (slotOffset x + lane.val) % 4 = lane.val ∧
      slotOfAddr (BitVec.ofNat 3 ((slotOffset x + lane.val) / 4)) = x := by
  revert lane
  cases x <;> decide

/-- Settles O60: HUF_BASE cancels, and the offset within the window names the slot and the lane. -/
theorem bridgeLanesAreLittleEndian : Obligations.BridgeLanesAreLittleEndian := by
  unfold Obligations.BridgeLanesAreLittleEndian
  intro x lane s
  obtain ⟨hlt, hlane, hslot⟩ := slotOffset_lane x lane
  have hoff : Config.hufBase + slotOffset x + lane.val - Config.hufBase = slotOffset x + lane.val := by omega
  rw [bridgeByte, if_pos (by omega)]
  simp only [hoff, hlane, hslot, laneByte]

end Sys2Proof.Machine
end

section
/-! PROOFS. The invariant of a safe run (Sys2Proof/Safety.lean): it holds after reset, and every step keeps it, since a step
outside a command touches none of its elements and each command that writes one keeps its bound. -/

namespace Sys2Proof.Machine

/-! ## After reset -/

theorem fifoBounds_cleared {s : State} (hc : s.cfg.wellFormed = true) : s.cleared.FifoBounds :=
  ⟨hc, Nat.zero_le _, Nat.zero_le _⟩

theorem paddingZero_reset : State.reset.PaddingZero := by simp [State.PaddingZero, State.reset]

theorem lengthsLegal_reset : State.reset.LengthsLegal := by
  simp [State.LengthsLegal, State.readCode, State.reset, Code.empty]

theorem countsLegal_reset : State.reset.CountsLegal := by simp [State.CountsLegal, State.reset]

/-- Settles O56: empty FIFOs, no lengths and no counts; the default depths are in range. -/
theorem resetMeetsTheInvariant : Obligations.ResetMeetsTheInvariant :=
  ⟨fifoBounds_cleared (s := State.reset) rfl, paddingZero_reset, lengthsLegal_reset, countsLegal_reset, .inr (.inr rfl)⟩

/-! ## Commands

A part of the invariant that an effect keeps is kept by the command: an error and DEC_END's report touch none of what these
four parts read. -/

section Command

variable {i : Instr} {s t u : State}

/-- A predicate that depends neither on ERR and ERR_INFO nor on DEC_CUR is kept by a command whose effect keeps it. -/
theorem exec_keeps {P : State → Prop} (hstatus : ∀ u e n, P u → P (u.withStatus e n))
    (hcur : P { s with decCur := s.root }) (heffect : ∀ u, Effect i s u → P u) (hs : P s)
    (h : exec i s = .next t) : P t := by
  rcases exec_inversion h with ⟨e, n, _, _, _, rfl, _⟩ | ⟨_, _, rfl⟩ | ⟨u, rfl, hu⟩
  · exact hstatus s e n hs
  · exact hstatus _ .truncatedStream 0 hcur
  · exact hstatus u .ok 0 (heffect u hu)

/-- R45: a command that writes OUTQ shortens it or has checked the room. -/
theorem outq_le_of_effect (hq : s.outq.length ≤ s.cfg.depthOut) (h : Effect i s u) : u.outq.length ≤ s.cfg.depthOut := by
  by_cases hw : .outq ∈ writes i
  · rcases outq_mem_writes_iff.1 hw with rfl | rfl | ⟨a, rfl⟩ | rfl | rfl
    · obtain rfl := h
      exact Nat.zero_le _
    · obtain rfl := h
      exact Nat.zero_le _
    · obtain ⟨ha, r0, r1, -, hroom, rfl⟩ := h
      obtain ⟨-, -, -, pushed, houtq, hcount, -⟩ := appendCode_spec (s.readCode ⟨a, ha⟩) s
      rwa [State.withResults_outq, houtq, List.length_append, hcount]
    · rcases h with ⟨-, rfl⟩ | ⟨-, hfull, rfl⟩
      · exact hq
      · simp only [State.withResults_outq, List.length_append, List.length_singleton]
        omega
    · obtain ⟨e, rest, r0, r1, houtq, rfl⟩ := h
      rw [houtq, List.length_cons] at hq
      exact Nat.le_of_succ_le hq
  · have hsame : u.outq = s.outq := same_of_effect (x := .outq) h hw
    rwa [hsame]

/-- R47: a command that writes SYMQ shortens it or stops where it is full (`decBits_bounds`). -/
theorem symq_le_of_effect (hq : s.symq.length ≤ s.cfg.depthSym) (h : Effect i s u) : u.symq.length ≤ s.cfg.depthSym := by
  by_cases hw : .symq ∈ writes i
  · rcases symq_mem_writes_iff.1 hw with rfl | rfl | ⟨a, rfl⟩ | rfl
    · obtain rfl := h
      exact Nat.zero_le _
    · obtain rfl := h
      exact Nat.zero_le _
    · obtain ⟨cur, q, m, hbits, rfl⟩ := h
      have hb := decBits_bounds (node := s.node) (root := s.root) (argBits s.arg a) 0 0 s.decCur s.symq hq
      rw [hbits] at hb
      exact hb.1
    · obtain ⟨x, rest, r0, r1, hsymq, rfl⟩ := h
      rw [hsymq, List.length_cons] at hq
      exact Nat.le_of_succ_le hq
  · have hsame : u.symq = s.symq := same_of_effect (x := .symq) h hw
    rwa [hsame]

theorem fifoBounds_of_exec (hs : s.FifoBounds) (h : exec i s = .next t) : t.FifoBounds := by
  refine exec_keeps (fun _ _ _ hu => hu) hs (fun u hu => ?_) hs h
  obtain ⟨hc, hout, hsym⟩ := hs
  obtain ⟨hcfg, -⟩ : Element.host.Same s u := same_of_effect hu (host_not_mem_writes i)
  rw [State.FifoBounds, hcfg]
  exact ⟨hc, outq_le_of_effect hout hu, symq_le_of_effect hsym hu⟩

/-- R152: the partial word ENC_FLUSH pushes has its FILL stream bits and the padding of PACK. -/
theorem paddingZero_encFlush (hs : s.PaddingZero) (h0 : s.fill ≠ 0) :
    State.PaddingZero
      { s with pack := 0, fill := 0, outq := s.outq ++ [{ data := s.pack, nbits := s.fill.setWidth 6 }] } := by
  obtain ⟨hpack, houtq⟩ := hs
  have hfill := s.fill.isLt
  have hpos : 0 < s.fill.toNat := Nat.pos_of_ne_zero fun hz => h0 (BitVec.eq_of_toNat_eq hz)
  have hn : (s.fill.setWidth 6).toNat = s.fill.toNat := BitVec.toNat_setWidth_of_le (by decide)
  refine ⟨by simp, fun e he => ?_⟩
  rcases List.mem_append.1 he with he | he
  · exact houtq e he
  · obtain rfl := List.mem_singleton.1 he
    simp only [hn]
    exact ⟨hpos, by omega, hpack⟩

/-- R44, R45: a command that writes PACK, FILL or OUTQ keeps the padding. -/
theorem paddingZero_of_effect (hs : s.PaddingZero) (h : Effect i s u) : u.PaddingZero := by
  by_cases hw : .outq ∈ writes i
  · rcases outq_mem_writes_iff.1 hw with rfl | rfl | ⟨a, rfl⟩ | rfl | rfl
    · obtain rfl := h
      exact paddingZero_reset
    · obtain rfl := h
      exact paddingZero_reset
    · obtain ⟨ha, r0, r1, -, -, rfl⟩ := h
      obtain ⟨-, -, hpadding, -⟩ := appendCode_spec (s.readCode ⟨a, ha⟩) s
      exact hpadding hs
    · rcases h with ⟨-, rfl⟩ | ⟨h0, -, rfl⟩
      · exact hs
      · exact paddingZero_encFlush hs h0
    · obtain ⟨e, rest, r0, r1, houtq, rfl⟩ := h
      obtain ⟨hpack, hall⟩ := hs
      exact ⟨hpack, fun e' he' => hall e' (houtq ▸ List.mem_cons_of_mem e he')⟩
  · have houtq : u.outq = s.outq := same_of_effect (x := .outq) h hw
    obtain ⟨hpack, hfill⟩ : Element.packer.Same s u := same_of_effect h fun hp => hw (by
      rw [packer_mem_writes_iff] at hp
      rw [outq_mem_writes_iff]
      tauto)
    rwa [State.PaddingZero, houtq, hpack, hfill]

theorem paddingZero_of_exec (hs : s.PaddingZero) (h : exec i s = .next t) : t.PaddingZero :=
  exec_keeps (fun _ _ _ hu => hu) hs (fun _ hu => paddingZero_of_effect hs hu) hs h

/-- R42: one entry written with a legal length. -/
theorem lengthsLegal_writeCode (hs : s.LengthsLegal) (x : SymIx) {c : Code} (hc : c.len.toNat ≤ 127) :
    (s.writeCode x c).LengthsLegal := by
  intro y
  rw [State.readCode_writeCode]
  split
  · exact hc
  · exact hs y

/-- R42: BUILD writes legal lengths (`Built.len_le`), CODE_WR none, CODE_LEN_WR one it has checked. -/
theorem lengthsLegal_of_effect (hs : s.LengthsLegal) (h : Effect i s u) : u.LengthsLegal := by
  by_cases hw : .code ∈ writes i
  · rcases code_mem_writes_iff.1 hw with rfl | ⟨a, k, rfl⟩ | ⟨a, rfl⟩ | rfl
    · obtain rfl := h
      exact lengthsLegal_reset
    · obtain ⟨x, b, rfl⟩ := h
      exact lengthsLegal_writeCode hs x (hs x)
    · obtain ⟨x, n, hn, rfl⟩ := h
      exact lengthsLegal_writeCode hs x hn
    · obtain ⟨r, hr, rfl⟩ := h
      obtain ⟨nodes, k, hb⟩ := built_of_buildTree hr
      exact hb.len_le
  · exact hs.of_code (same_of_effect (x := .code) h hw)

/-- R43: BUILD sets both counts of its tree. -/
theorem countsLegal_of_effect (hs : s.CountsLegal) (h : Effect i s u) : u.CountsLegal := by
  by_cases hw : .counts ∈ writes i
  · rcases counts_mem_writes_iff.1 hw with rfl | rfl
    · obtain rfl := h
      exact countsLegal_reset
    · obtain ⟨r, hr, rfl⟩ := h
      obtain ⟨nodes, k, hb⟩ := built_of_buildTree hr
      have hle := hb.le
      have hlen := hb.length
      show r.nleaf.toNat ≤ 128 ∧ r.ncount.toNat = 2 * r.nleaf.toNat - 1
      rw [hb.nleaf_toNat, hb.ncount_toNat]
      omega
  · obtain ⟨hnleaf, hncount⟩ : Element.counts.Same s u := same_of_effect h hw
    rwa [State.CountsLegal, hnleaf, hncount]

theorem lengthsLegal_of_exec (hs : s.LengthsLegal) (h : exec i s = .next t) : t.LengthsLegal :=
  exec_keeps (fun _ _ _ hu => hu) hs (fun _ hu => lengthsLegal_of_effect hs hu) hs h

theorem countsLegal_of_exec (hs : s.CountsLegal) (h : exec i s = .next t) : t.CountsLegal :=
  exec_keeps (fun _ _ _ hu => hu) hs (fun _ hu => countsLegal_of_effect hs hu) hs h

end Command

/-! ## Steps -/

section Step

variable {s t : State}

/-- A predicate on what only commands and a reset write is kept by a step, where they keep it. -/
theorem step_keeps {P : State → Prop}
    (hbus : ∀ (u : State) r reads arg e n, P u →
      P { u with pending := r, reads := reads, arg := arg, err := e, errInfo := n })
    (hcleared : P s.cleared) (hexec : ∀ (i : Instr) (u : State), P u → exec i u = .next t → P t)
    (hs : P s) (h : step s = .next t) : P t := by
  rcases step_inversion h with rfl | ⟨_, _, _, rfl⟩ | ⟨_, rfl⟩ | ⟨r, i, he⟩ | ⟨_, rfl⟩
  · exact hs
  · exact hbus s _ _ _ _ _ hs
  · exact hbus s.cleared _ _ _ _ _ hcleared
  · exact hexec i _ (hbus s r _ _ _ _ hs) he
  · exact hbus s _ _ _ _ _ hs

theorem fifoBounds_of_step (hs : s.FifoBounds) (h : step s = .next t) : t.FifoBounds :=
  step_keeps (fun _ _ _ _ _ _ hu => hu) (fifoBounds_cleared hs.1) (fun _ _ => fifoBounds_of_exec) hs h

theorem paddingZero_of_step (hs : s.PaddingZero) (h : step s = .next t) : t.PaddingZero :=
  step_keeps (fun _ _ _ _ _ _ hu => hu) paddingZero_reset (fun _ _ => paddingZero_of_exec) hs h

theorem lengthsLegal_of_step (hs : s.LengthsLegal) (h : step s = .next t) : t.LengthsLegal :=
  step_keeps (fun _ _ _ _ _ _ hu => hu) lengthsLegal_reset (fun _ _ => lengthsLegal_of_exec) hs h

theorem countsLegal_of_step (hs : s.CountsLegal) (h : step s = .next t) : t.CountsLegal :=
  step_keeps (fun _ _ _ _ _ _ hu => hu) countsLegal_reset (fun _ _ => countsLegal_of_exec) hs h

/-- R201: only a command or its decoding writes ERR and ERR_INFO, and either leaves them legal whatever they were. -/
theorem infoLegal_of_step (hs : s.InfoLegal) (h : step s = .next t) : t.InfoLegal := by
  rcases step_inversion h with rfl | ⟨_, _, _, rfl⟩ | ⟨_, rfl⟩ | ⟨_, i, he⟩ | ⟨_, rfl⟩
  · exact hs
  · exact hs
  · exact .inr (.inr rfl)
  · exact infoLegal_of_exec he
  · exact .inr (.inr rfl)

end Step

/-- Settles O57: the three parts are kept one by one. -/
theorem stepKeepsQueuesAndPadding : Obligations.StepKeepsQueuesAndPadding :=
  fun _ _ hfifos hpadding hinfo h =>
    ⟨fifoBounds_of_step hfifos h, paddingZero_of_step hpadding h, infoLegal_of_step hinfo h⟩

/-- Settles O58: so are the lengths and the counts. -/
theorem stepKeepsTheInvariant : Obligations.StepKeepsTheInvariant :=
  fun _ _ hs h =>
    ⟨fifoBounds_of_step hs.fifos h, paddingZero_of_step hs.padding h, lengthsLegal_of_step hs.lengths h,
      countsLegal_of_step hs.counts h, infoLegal_of_step hs.info h⟩

end Sys2Proof.Machine
end
